-- ==== Sys2Proof/Word.lean ====
section
/-! DEFINITION. The widths HTB computes with (00_scope.md rules R6 and R11): bytes, 64-bit counts,
16-bit command words. Every value is unsigned. -/

namespace Sys2Proof

/-- One byte, the addressable unit of SRC and SNK, and one symbol (`SYM_BITS` = 8; rules R6, R50). -/
abbrev Byte := BitVec 8

/-- A value of width `W` = 64: `SIZE`, `CHECKSUM`, a counter, a weight, `SRC_LEN`, `SRC_POS` (rule R6). -/
abbrev Word64 := BitVec 64

/-- A command word, `CMD_BITS` = 16 bits (rules R6 and R80). -/
abbrev CmdWord := BitVec 16

/-- An index into the node arena, 9 bits (rules R33 to R35). -/
abbrev NodeIx := BitVec 9

end Sys2Proof
end

