-- ==== Sys2Proof/Syntax.lean ====
section
/-! DEFINITION. The 23 commands of 30_encoding.md rule R82, one constructor for each row of
spec/opcode_table.json. Only WR_BIT and WR_BYTE have an operand (rule R81). -/

namespace Sys2Proof

inductive Instr where
  | nop                    -- R100
  | rewind                 -- R101
  | ldSize                 -- R102
  | openRd                 -- R114
  | openWr                 -- R115
  | rdBit                  -- R116
  | rdByte                 -- R117
  | wrBit (b : Bool)       -- R118: b = IMM[0]
  | wrByte (v : Byte)      -- R119: v = IMM
  | flush                  -- R121
  | rdSize                 -- R122
  | wrSize                 -- R123
  | cntDistinct            -- R140
  | hist                   -- R143
  | flist                  -- R146
  | buildTree              -- R160
  | genCodes               -- R180
  | wrTree                 -- R195
  | rdTree                 -- R200
  | encode                 -- R215
  | decode                 -- R220
  | compress               -- R235
  | decompress             -- R236
deriving DecidableEq, Repr

end Sys2Proof
end

