-- ==== Sys2Proof/WellFormed.lean ====
section
/-! DEFINITION. Which command words are legal: the opcode map of 30_encoding.md rule R82 as data, and the
checks a word must pass (rules R81, R82 and R84). The operands of `Instr` have exactly the widths of
rule R81, so every `Instr` is well formed as it stands; what can be ill formed is a word, or a program
made of words. -/

namespace Sys2Proof

/-- The three formats of rule R81: they differ only in how `IMM` is used. -/
inductive Format where
  | n   -- IMM must be 0
  | b   -- IMM[7:1] must be 0, IMM[0] is the operand
  | y   -- IMM is the operand
deriving DecidableEq, Repr

/-- The check a format makes on `IMM` (rule R81). -/
def Format.immOk (f : Format) (imm : Byte) : Bool :=
  match f with
  | .n => imm == 0
  | .b => imm &&& 0xFE == 0
  | .y => true

/-- One row of the opcode map (rule R82). -/
structure OpcRow where
  opc       : Byte
  mnemonic  : String
  format    : Format
  matchWord : CmdWord
  mask      : CmdWord
deriving DecidableEq, Repr

def controlRows : List OpcRow :=
  [⟨0x00, "NOP", .n, 0x0000, 0xFFFF⟩, ⟨0x01, "REWIND", .n, 0x0100, 0xFFFF⟩,
   ⟨0x02, "LD_SIZE", .n, 0x0200, 0xFFFF⟩]

def channelRows : List OpcRow :=
  [⟨0x10, "OPEN_RD", .n, 0x1000, 0xFFFF⟩, ⟨0x11, "OPEN_WR", .n, 0x1100, 0xFFFF⟩,
   ⟨0x12, "RD_BIT", .n, 0x1200, 0xFFFF⟩, ⟨0x13, "RD_BYTE", .n, 0x1300, 0xFFFF⟩,
   ⟨0x14, "WR_BIT", .b, 0x1400, 0xFFFE⟩, ⟨0x15, "WR_BYTE", .y, 0x1500, 0xFF00⟩,
   ⟨0x16, "FLUSH", .n, 0x1600, 0xFFFF⟩, ⟨0x17, "RD_SIZE", .n, 0x1700, 0xFFFF⟩,
   ⟨0x18, "WR_SIZE", .n, 0x1800, 0xFFFF⟩]

def treeRows : List OpcRow :=
  [⟨0x20, "CNT_DISTINCT", .n, 0x2000, 0xFFFF⟩, ⟨0x21, "HIST", .n, 0x2100, 0xFFFF⟩,
   ⟨0x22, "FLIST", .n, 0x2200, 0xFFFF⟩, ⟨0x30, "BUILD_TREE", .n, 0x3000, 0xFFFF⟩,
   ⟨0x31, "GEN_CODES", .n, 0x3100, 0xFFFF⟩, ⟨0x32, "WR_TREE", .n, 0x3200, 0xFFFF⟩,
   ⟨0x33, "RD_TREE", .n, 0x3300, 0xFFFF⟩]

def codecRows : List OpcRow :=
  [⟨0x40, "ENCODE", .n, 0x4000, 0xFFFF⟩, ⟨0x41, "DECODE", .n, 0x4100, 0xFFFF⟩,
   ⟨0x50, "COMPRESS", .n, 0x5000, 0xFFFF⟩, ⟨0x51, "DECOMPRESS", .n, 0x5100, 0xFFFF⟩]

/-- The opcode map of rule R82, its 23 rows in the spec's order. -/
def opcodeMap : List OpcRow :=
  controlRows ++ channelRows ++ treeRows ++ codecRows

/-- "A word `w` selects the row for which `w & mask = match`" (rule R82). -/
def OpcRow.selects (r : OpcRow) (w : CmdWord) : Bool := w &&& r.mask == r.matchWord

/-- A legal command word: it selects a row of the map (rule R84 lists the words that do not). -/
def wellFormedWord (w : CmdWord) : Bool := opcodeMap.any fun r => r.selects w

/-- A program all of whose words are legal. -/
def wellFormedProg (p : List CmdWord) : Bool := p.all wellFormedWord

end Sys2Proof
end

