-- ==== Sys2Proof/Decode.lean ====
section
/-! DEFINITION. The decoder of 30_encoding.md rule R83, total on every 16-bit word and rejecting by name,
the encoder written from the map of rule R82, and the assembler's notation of rules R86, R89 and R90. -/

namespace Sys2Proof

/-- Why a word is `ILLEGAL` (the three cases of rule R84). -/
inductive Illegal where
  | unusedOpc     -- rule R82 does not list the opcode
  | immNotZero    -- format N with IMM != 0
  | bitOperand    -- WR_BIT with IMM[7:1] != 0
deriving DecidableEq, Repr

/-- `OPC`, bits 15:8 of a word (rule R80). -/
def wordOpc (w : CmdWord) : Byte := w.extractLsb' 8 8

/-- `IMM`, bits 7:0 of a word (rule R80). -/
def wordImm (w : CmdWord) : Byte := w.extractLsb' 0 8

/-- The command of format N with this opcode (rules R82 and R83). -/
def formatN (opc : Byte) : Option Instr :=
  match opc.toNat with
  | 0x00 => some .nop
  | 0x01 => some .rewind
  | 0x02 => some .ldSize
  | 0x10 => some .openRd
  | 0x11 => some .openWr
  | 0x12 => some .rdBit
  | 0x13 => some .rdByte
  | 0x16 => some .flush
  | 0x17 => some .rdSize
  | 0x18 => some .wrSize
  | 0x20 => some .cntDistinct
  | 0x21 => some .hist
  | 0x22 => some .flist
  | 0x30 => some .buildTree
  | 0x31 => some .genCodes
  | 0x32 => some .wrTree
  | 0x33 => some .rdTree
  | 0x40 => some .encode
  | 0x41 => some .decode
  | 0x50 => some .compress
  | 0x51 => some .decompress
  | _ => none

/-- The decoder of rule R83. -/
def decode (w : CmdWord) : Except Illegal Instr :=
  let opc := wordOpc w
  let imm := wordImm w
  if opc = 0x14 then
    if imm.extractLsb' 1 7 = 0 then .ok (.wrBit (imm.getLsbD 0)) else .error .bitOperand
  else if opc = 0x15 then .ok (.wrByte imm)
  else
    match formatN opc with
    | some i => if imm = 0 then .ok i else .error .immNotZero
    | none => .error .unusedOpc

/-- A command's opcode (rule R82). -/
def Instr.opc : Instr → Byte
  | .nop => 0x00
  | .rewind => 0x01
  | .ldSize => 0x02
  | .openRd => 0x10
  | .openWr => 0x11
  | .rdBit => 0x12
  | .rdByte => 0x13
  | .wrBit _ => 0x14
  | .wrByte _ => 0x15
  | .flush => 0x16
  | .rdSize => 0x17
  | .wrSize => 0x18
  | .cntDistinct => 0x20
  | .hist => 0x21
  | .flist => 0x22
  | .buildTree => 0x30
  | .genCodes => 0x31
  | .wrTree => 0x32
  | .rdTree => 0x33
  | .encode => 0x40
  | .decode => 0x41
  | .compress => 0x50
  | .decompress => 0x51

/-- A command's `IMM`: its operand, or 0 (rule R81). -/
def Instr.imm : Instr → Byte
  | .wrBit b => if b then 1 else 0
  | .wrByte v => v
  | .nop | .rewind | .ldSize | .openRd | .openWr | .rdBit | .rdByte | .flush | .rdSize | .wrSize
  | .cntDistinct | .hist | .flist | .buildTree | .genCodes | .wrTree | .rdTree | .encode | .decode
  | .compress | .decompress => 0

/-- The word of a command: `OPC ++ IMM` (rule R80). -/
def encode (i : Instr) : CmdWord := i.opc ++ i.imm

/-- The instruction the decoder reads from an instruction whose bits are `w`, numbered as
spec/opcode_table.json numbers them. A command is one word, a value on the port without a byte order
(rule R80), so the number's low 16 bits are the word. -/
def decodeTableWord (nbits w : Nat) : Option Instr :=
  match decode (BitVec.ofNat 16 (w % 2 ^ nbits)) with
  | .ok i => some i
  | .error _ => none

/-! ## The assembler's notation (rules R86, R89 and R90); a line is a list of characters

What the rules leave open about the text is settled here as log entry 13 says, each point marked where it stands -/

/-- The mnemonic of a command, as the row of its opcode has it (rule R82). -/
def Instr.mnemonic (i : Instr) : String :=
  match opcodeMap.find? fun r => r.opc == i.opc with
  | some r => r.mnemonic
  | none => ""

/-- A hexadecimal digit, upper case. -/
def hexDigit (n : Nat) : Char := ['0', '1', '2', '3', '4', '5', '6', '7', '8', '9', 'A', 'B', 'C', 'D', 'E', 'F'].getD n '0'

/-- `0x` and the `k` lowest hexadecimal digits of a number. -/
def hexText (k n : Nat) : List Char :=
  ['0', 'x'] ++ ((List.range k).map fun j => hexDigit (n / 16 ^ (k - 1 - j) % 16))

/-- Disassembly: mnemonic and operand, or `.word 0xNNNN` of an illegal word (rule R90). -/
def disassemble (w : CmdWord) : String :=
  match decode w with
  | .ok (.wrBit b) => (Instr.wrBit b).mnemonic ++ (if b then " 1" else " 0")
  | .ok (.wrByte v) => (Instr.wrByte v).mnemonic ++ " " ++ String.ofList (hexText 2 v.toNat)
  | .ok i => i.mnemonic
  | .error _ => ".word " ++ String.ofList (hexText 4 w.toNat)

/-- The value of a digit in a base up to 16. DESIGN CHOICE (log entry 13): a hexadecimal digit may have either
case; rule R86 shows upper case only. -/
def digitValue (base : Nat) (c : Char) : Option Nat :=
  let n := c.toNat
  let v := if 48 ≤ n ∧ n ≤ 57 then n - 48 else if 65 ≤ n ∧ n ≤ 70 then n - 55 else if 97 ≤ n ∧ n ≤ 102 then n - 87 else 16
  if v < base then some v else none

/-- The value of a run of digits; none of an empty run or one with a character that is no digit. -/
def digitsValue (base : Nat) : Nat → List Char → Option Nat
  | v, [] => some v
  | v, c :: rest => (digitValue base c).bind fun d => digitsValue base (v * base + d) rest

/-- A byte operand: decimal `0` to `255`, hexadecimal `0x00` to `0xFF`, or a quoted ASCII character (rule R86).
DESIGN CHOICE (log entry 13): the rule gives the ranges and no number of digits, so leading zeros may be fewer or
more than it shows. -/
def byteOperand (cs : List Char) : Option Byte :=
  let value := match cs with
    | ['\'', c, '\''] => if c.toNat < 128 then some c.toNat else none
    | '0' :: 'x' :: d :: rest => digitsValue 16 0 (d :: rest)
    | d :: rest => digitsValue 10 0 (d :: rest)
    | [] => none
  value.bind fun n => if n < 256 then some (BitVec.ofNat 8 n) else none

/-- Spaces taken off both ends. -/
def trimSpaces (cs : List Char) : List Char :=
  ((cs.dropWhile (· == ' ')).reverse.dropWhile (· == ' ')).reverse

/-- The operands of a pseudo-command, separated by commas (rule R89). DESIGN CHOICE (log entry 13): the rule does
not say what a comma inside quotes is; here every comma separates, so `','` is no operand of WR_BYTES and the line
is refused. -/
def splitCommas : List Char → List (List Char)
  | [] => [[]]
  | c :: rest =>
    if c = ',' then [] :: splitCommas rest
    else
      match splitCommas rest with
      | [] => [[c]]
      | x :: xs => (c :: x) :: xs

/-- WR_BYTES: one WR_BYTE for each operand, in order (rule R89). -/
def wrBytesWords (vs : List Byte) : List CmdWord := vs.map fun v => encode (.wrByte v)

/-- The words of a mnemonic and the text of its operands (rules R86 and R89). DESIGN CHOICE (log entry 13): spaces
may stand around the operands of WR_BYTES, which rule R89 shows after a comma only. -/
def assembleCommand (name operand : List Char) : Option (List CmdWord) :=
  if String.ofList name == "WR_BYTES" then ((splitCommas operand).mapM fun x => byteOperand (trimSpaces x)).map wrBytesWords
  else
    match opcodeMap.find? fun r => r.mnemonic == String.ofList name with
    | none => none
    | some r =>
      match r.format with
      | .n => if operand = [] then some [r.matchWord] else none
      | .b =>
        if operand = ['0'] then some [encode (.wrBit false)]
        else if operand = ['1'] then some [encode (.wrBit true)] else none
      | .y => (byteOperand operand).map fun v => [encode (.wrByte v)]

/-- One line: a command, or nothing but spaces and a comment (rule R86). DESIGN CHOICE (log entry 13): rule R86
does not say whether a `#` inside quotes starts a comment; here the first `#` of the line does, before operands are
read, so `WR_BYTE '#'` is refused (`WR_BYTE 0x23` is that byte). Nor does it speak of empty lines and of spaces
before a command or after it, which are allowed here. -/
def assembleLine (line : List Char) : Option (List CmdWord) :=
  let text := trimSpaces (line.takeWhile (· != '#'))
  if text = [] then some []
  else assembleCommand (text.takeWhile (· != ' ')) (trimSpaces (text.dropWhile (· != ' ')))

/-- A program: its lines' words, first line first (rule R86). -/
def assemble (lines : List (List Char)) : Option (List CmdWord) := (lines.mapM assembleLine).map List.flatten

end Sys2Proof
end

