-- ==== Sys2Proof/Config.lean ====
section
/-! DEFINITION. What is fixed for the machine (00_scope.md rule R6): the named parameters, and the one
free value of the model. `SNK_CAP`, the one OPEN parameter a rule's outcome depends on, is an argument
of the model and stands in `State.snkCap`; its default is here. -/

namespace Sys2Proof.Config

/-- `NSYM`: the number of symbols (rule R6). -/
def nsym : Nat := 256

/-- `CODE_MAX`: the longest code, in bits (rules R6 and R37). -/
def codeMax : Nat := 30

/-- `NODE_MAX` = 2 * `NSYM` - 1: the capacity of the node arena (rules R6 and R33). -/
def nodeMax : Nat := 511

/-- `WL_MAX` = `NSYM`: the capacity of the work list (rules R6 and R34). -/
def wlMax : Nat := 256

/-- `SIZE_BYTES`: the length of the size header (rules R6 and R122). -/
def sizeBytes : Nat := 8

/-- `CHUNK`: recorded, and without any effect (rules R6 and R141). -/
def chunk : Nat := 4096

/-- `SNK_CAP`'s default, unbounded (rule R6; 92_eei_decisions.md, OPEN parameters). -/
def snkCapDefault : Option Word64 := none

/-- FREE VALUE (log entry 3). What the 64-bit register `SNK_LEN` shows when SNK holds 2^64 bytes or
more, which only the unbounded default of `SNK_CAP` allows: rule R126 excludes the case because
`SNK_CAP <= 2^64 - 1`, and rule R57 admits it; no rule states the value. -/
opaque snkLenBeyond : Nat → Word64

end Sys2Proof.Config
end

