-- ==== Sys2Proof/Machine/State.lean ====
section
/-! DEFINITION. The state of HTB: every piece of state of 10_state.md rule R20 as plain data, and its
value after reset (rule R42). Three fields are the model's own: `prog` and `pc`, the command stream and
its index (rule R22), and `snkCap`, the argument `SNK_CAP` (rule R6). The lengths `SRC_LEN`, `SNK_LEN`,
`NODE_CNT` and `WL_LEN` are the lengths of what they count and are not stored twice. -/

namespace Sys2Proof.Machine

/-- A byte store as address and byte pairs. Canonical form: addresses strictly rising (`Memory.wf`). An
address that is not listed holds no byte: it is past the end of the store (rules R50 and R56). -/
abbrev Memory := List Host.Cell

/-- What an address that is not listed reads as: no byte, so that no byte is ever made up. -/
def Memory.unlisted : Option Byte := none

/-- The canonical form of a memory. -/
abbrev Memory.wf (m : Memory) : Prop := m.Pairwise fun x y => x.1 < y.1

/-- `BC_DIR` (rule R30). -/
inductive Dir where
  | closed   -- 0
  | rd       -- 1: wraps SRC for reading
  | wr       -- 2: wraps SNK for writing
deriving DecidableEq, Repr

/-- A node of the arena (rule R33): `KIND`, `SYM`, `LEFT`, `RIGHT`. `SYM` is 0 in a Branch and both
children are 0 in a Leaf, so each kind carries only its own fields. -/
inductive Node where
  | leaf (sym : Byte)
  | branch (left right : NodeIx)
deriving DecidableEq, Repr

/-- The tree read off the arena (rules R15 and R36). -/
inductive Tree where
  | leaf (sym : Byte)
  | branch (left right : Tree)
deriving DecidableEq, Repr

/-- A Weighted Work Item `(w, n)` of the work list (rule R34). -/
structure WorkItem where
  w : Word64
  n : NodeIx
deriving DecidableEq, Repr

/-- An entry of the code table, `(VALID, LEN, BITS)` (rule R37). -/
structure CodeEntry where
  valid : Bool
  len   : BitVec 5
  bits  : BitVec 30
deriving DecidableEq, Repr

/-- An array with one entry for each of the 256 symbols (rules R32 and R37), entry 0 first. -/
structure Table (α : Type) where
  entries : List α
  size    : entries.length = 256
deriving DecidableEq, Repr

/-- The table with every entry `v`. -/
def Table.fill {α : Type} (v : α) : Table α := ⟨List.replicate 256 v, List.length_replicate⟩

structure State where
  /-- The command stream `prog`: the words the host has issued (rules R22 and R74). The model's own. -/
  prog     : List CmdWord
  /-- The command index `pc`: completed commands (rule R22). The model's own. -/
  pc       : Nat
  /-- `SNK_CAP`: none is the unbounded default (rule R6). The model's own; no step writes it. -/
  snkCap   : Option Word64
  /-- `STATUS.FAULT` (rule R23). -/
  fault    : Bool
  /-- `STATUS.TREE_VALID` (rule R23). -/
  treeValid : Bool
  /-- `STATUS.DEPTH_OVF` (rule R23). -/
  depthOvf : Bool
  /-- `CAUSE` (rule R24). -/
  cause    : BitVec 4
  /-- `RES` (rule R25). -/
  res      : Byte
  /-- `DISTINCT` (rule R26). -/
  distinct : BitVec 9
  /-- `SIZE` (rule R27). -/
  size     : Word64
  /-- `CHECKSUM` (rule R28). -/
  checksum : Word64
  /-- `SRC` (rule R50); its number of bytes is `SRC_LEN` (rule R29). -/
  src      : Memory
  /-- `SRC_POS` (rules R29 and R51). -/
  srcPos   : Word64
  /-- `SNK` (rule R56); its number of bytes is `SNK_LEN` (rule R29). -/
  snk      : Memory
  /-- `BC_DIR` (rule R30). -/
  bcDir    : Dir
  /-- `BC_CUR` (rule R30). -/
  bcCur    : BitVec 3
  /-- `BC_BUF` (rule R30). -/
  bcBuf    : Byte
  /-- `CNT` (rule R32). -/
  cnt      : Table Word64
  /-- `NODE` (rule R33); its length is `NODE_CNT`. -/
  node     : List Node
  /-- `WL`, the front first (rule R34); its length is `WL_LEN`. -/
  wl       : List WorkItem
  /-- `ROOT` (rule R35). -/
  root     : NodeIx
  /-- `CODE` (rule R37). -/
  code     : Table CodeEntry
deriving DecidableEq, Repr

/-- A step that does not happen. HTB's own faults are no `Fault`: rule R262 gives them an entry, and the
step that takes one answers a next state. -/
inductive Fault where
  /-- By `step` when `STATUS.FAULT = 1`: "no step", the run is over, faulted (rules R103 and R263). Safe:
  the machine takes no command there. -/
  | runFaulted
  /-- By `step` when no word stands at `pc`: "no step", the run is over (rules R103 and R288). Safe. -/
  | runComplete
  /-- By `srcNext` and RD_SIZE when SRC holds no byte at an address below `SRC_LEN`: `MemRead` is not
  defined there (rule R14). Safe: no run reaches such a state (`StoresWf`). -/
  | noByte
  /-- By `needTree` when `TREE_VALID = 1` and `tree(ROOT)` is no finite tree of the arena, which rule R36
  rules out. Safe: no run reaches such a state (`TreeWf`). -/
  | noTree
deriving DecidableEq, Repr

/-- A command the model gives no meaning. No arm of `exec` answers it. -/
inductive Refusal where
  /-- By an arm of `exec` whose command has no meaning yet. Safe. -/
  | notModelled (mnemonic : String)
deriving DecidableEq, Repr

/-- The entry of a symbol without a code (rule R37). -/
def CodeEntry.none : CodeEntry := ⟨false, 0, 0⟩

/-- Right after reset: "zero or empty", the channel closed (rules R42 and R280). No command has been
issued, and `SNK_CAP` has its default. -/
def State.reset : State where
  prog      := []
  pc        := 0
  snkCap    := Config.snkCapDefault
  fault     := false
  treeValid := false
  depthOvf  := false
  cause     := 0
  res       := 0
  distinct  := 0
  size      := 0
  checksum  := 0
  src       := []
  srcPos    := 0
  snk       := []
  bcDir     := .closed
  bcCur     := 0
  bcBuf     := 0
  cnt       := Table.fill 0
  node      := []
  wl        := []
  root      := 0
  code      := Table.fill CodeEntry.none

end Sys2Proof.Machine
end

