-- ==== Sys2Proof/Machine/Operands.lean ====
section
/-! DEFINITION. The forms a value takes on its way through HTB: the operand of a command (30_encoding.md
rule R81), a byte as bits in stream order (20_memory.md rule R60), the 8-byte size header (rule R61), a
code as bits (10_state.md rule R38), the symbol arrays, and the tree read off the arena (rule R36). -/

namespace Sys2Proof.Machine

/-- `zext_8(b)` of one bit (rule R11). -/
def zext8 (b : Bool) : Byte := if b then 1 else 0

/-- The bits of a byte in stream order: bit 7 first, bit 0 last (rules R12 and R60). -/
def byteBits (v : Byte) : List Bool :=
  [v.getLsbD 7, v.getLsbD 6, v.getLsbD 5, v.getLsbD 4, v.getLsbD 3, v.getLsbD 2, v.getLsbD 1, v.getLsbD 0]

/-- `v[i] <- b` for a bit that is still 0 (rule R111). -/
def setBit (v : Byte) (i : Nat) (b : Bool) : Byte := v ||| (zext8 b <<< i)

/-- The size header: byte `i` holds bits `8i+7` down to `8i` of `SIZE` (rule R61). -/
def sizeHeader (v : Word64) : List Byte :=
  [v.extractLsb' 0 8, v.extractLsb' 8 8, v.extractLsb' 16 8, v.extractLsb' 24 8,
   v.extractLsb' 32 8, v.extractLsb' 40 8, v.extractLsb' 48 8, v.extractLsb' 56 8]

/-- The little-endian value of a run of bytes, the first least significant (rules R61 and R122). -/
def sizeOfHeader : List Byte → Word64
  | [] => 0
  | b :: rest => b.setWidth 64 ||| (sizeOfHeader rest <<< 8)

/-- A code's bits, the first direction first: `bits[len-1-k]` for `k` from 0 (rules R38 and R215). -/
def CodeEntry.emitted (e : CodeEntry) : List Bool :=
  (List.range e.len.toNat).map fun k => e.bits.getLsbD (e.len.toNat - 1 - k)

/-- `x[s]`: the entry of symbol `s` (rules R13, R32 and R37). -/
def Table.get {α : Type} (t : Table α) (s : Byte) : α :=
  t.entries.get ⟨s.toNat, by rw [t.size]; exact s.isLt⟩

/-- `x[s] <- v` (rule R13). -/
def Table.set {α : Type} (t : Table α) (s : Byte) (v : α) : Table α :=
  ⟨t.entries.set s.toNat v, by rw [List.length_set]; exact t.size⟩

/-- `tree(i)` (rule R36), none where no finite tree stands at `i`. `fuel` bounds the depth: a tree that
reaches no node twice is no deeper than the arena is long. -/
def treeAt (nodes : List Node) : Nat → Nat → Option Tree
  | 0, _ => none
  | fuel + 1, i =>
    match nodes[i]? with
    | none => none
    | some (.leaf s) => some (.leaf s)
    | some (.branch l r) =>
      match treeAt nodes fuel l.toNat with
      | none => none
      | some tl =>
        match treeAt nodes fuel r.toNat with
        | none => none
        | some tr => some (.branch tl tr)

/-- `tree(ROOT)` (rule R36). -/
def State.tree (s : State) : Option Tree := treeAt s.node s.node.length s.root.toNat

/-- `SRC_LEN`, 64 bits (rule R29). -/
def State.srcLen (s : State) : Word64 := BitVec.ofNat 64 s.src.length

/-- `SNK_LEN`, the exact count of the bytes of SNK (rule R29; log entry 3 for its 64-bit view). -/
def State.snkLen (s : State) : Nat := s.snk.length

/-- `NODE_CNT` (rule R33). -/
def State.nodeCnt (s : State) : Nat := s.node.length

/-- `WL_LEN` (rule R34). -/
def State.wlLen (s : State) : Nat := s.wl.length

/-- The number of bytes of SRC still to be read, `SRC_LEN - SRC_POS`: how often a loop
`while SRC_POS < SRC_LEN` runs its body, since every pass moves `SRC_POS` by one (rules R51, R140, R143). -/
def State.remaining (s : State) : Nat := s.srcLen.toNat - s.srcPos.toNat

end Sys2Proof.Machine
end

