-- ==== Sys2Proof/Machine/Flags.lean ====
section
/-! DEFINITION. The three flags of `STATUS` (10_state.md rule R23), the only flags of HTB, the cause codes
(60_exceptions.md rule R250), and how the status, channel, node and code words are packed (rules R23,
R30, R33 and R37). -/

namespace Sys2Proof.Machine

/-- The faults HTB can raise (rule R250). -/
inductive Cause where
  | eof | io | header | empty | checksum | nocode | illegal | dir | treeOvf | notree
deriving DecidableEq, Repr

/-- The code in `CAUSE` (rule R250). -/
def Cause.code : Cause → BitVec 4
  | .eof => 1
  | .io => 2
  | .header => 3
  | .empty => 4
  | .checksum => 5
  | .nocode => 6
  | .illegal => 7
  | .dir => 8
  | .treeOvf => 9
  | .notree => 10

/-- `STATUS.FAULT <- 1` with its cause code (rule R262). -/
def State.setFault (s : State) (c : Cause) : State := { s with fault := true, cause := c.code }

/-- `STATUS.TREE_VALID <- v` together with `ROOT`, which is 0 while there is no tree (rule R35). -/
def State.setTree (s : State) (valid : Bool) (root : NodeIx) : State :=
  { s with treeValid := valid, root := root }

/-- `STATUS.DEPTH_OVF <- v` (rule R180). -/
def State.setDepthOvf (s : State) (v : Bool) : State := { s with depthOvf := v }

/-- One bit as a number. -/
def bit (b : Bool) : BitVec 1 := if b then 1 else 0

/-- Register `STATUS`: bit 0 `FAULT`, bit 1 `TREE_VALID`, bit 2 `DEPTH_OVF` (rule R23). -/
def State.statusWord (s : State) : Word64 :=
  (bit s.depthOvf ++ bit s.treeValid ++ bit s.fault).setWidth 64

/-- `BC_DIR`'s two bits (rule R30). -/
def Dir.code : Dir → BitVec 2
  | .closed => 0
  | .rd => 1
  | .wr => 2

/-- Register `BC`: `BC_DIR ++ BC_CUR ++ BC_BUF` (rule R30). -/
def State.bcWord (s : State) : Word64 := (s.bcDir.code ++ s.bcCur ++ s.bcBuf).setWidth 64

/-- The 27-bit node word `KIND ++ SYM ++ LEFT ++ RIGHT` (rule R33). -/
def Node.word : Node → Word64
  | .leaf s => ((0 : BitVec 1) ++ s ++ (0 : NodeIx) ++ (0 : NodeIx)).setWidth 64
  | .branch l r => ((1 : BitVec 1) ++ (0 : Byte) ++ l ++ r).setWidth 64

/-- The 36-bit code word `VALID ++ LEN ++ BITS` (rule R37). -/
def CodeEntry.word (e : CodeEntry) : Word64 := (bit e.valid ++ e.len ++ e.bits).setWidth 64

end Sys2Proof.Machine
end

