-- ==== Sys2Proof/Machine/Ops.lean ====
section
/-! DEFINITION. The shared operations: the byte stores (20_memory.md), what a command body is and how it
ends, fault entry (60_exceptions.md rule R262), the precondition helpers (40_control.md rules R106 and
R107), the store primitives `src_next` and `snk_append`, and the four Bit Channel primitives
(41_bit_channel.md rules R110 to R113). -/

namespace Sys2Proof.Machine

/-! ## Byte stores -/

/-- The byte at an address, none where the store holds none. -/
def Memory.read : Memory → Nat → Option Byte
  | [], _ => Memory.unlisted
  | (k, b) :: rest, a => if k = a then some b else Memory.read rest a

/-- Puts a byte at an address, keeping the canonical form. -/
def Memory.write : Memory → Nat → Byte → Memory
  | [], a, v => [(a, v)]
  | (k, b) :: rest, a, v =>
    if a < k then (a, v) :: (k, b) :: rest
    else if a = k then (k, v) :: rest
    else (k, b) :: Memory.write rest a v

/-- The store that holds these bytes from address `a` on. -/
def Memory.ofBytesFrom (a : Nat) : List Byte → Memory
  | [] => []
  | b :: rest => (a, b) :: Memory.ofBytesFrom (a + 1) rest

/-- The store that holds a sequence of bytes, "indexed from 0" (rules R50 and R56). -/
def Memory.ofBytes (bs : List Byte) : Memory := Memory.ofBytesFrom 0 bs

/-- The bytes of a store, the lowest address first. -/
def Memory.bytes (m : Memory) : List Byte := m.map Prod.snd

/-- `MemRead(addr, n)` (rule R14): the `n` bytes from `addr`, none where one of them does not exist. -/
def memRead (m : Memory) (addr : Nat) : Nat → Option (List Byte)
  | 0 => some []
  | n + 1 =>
    match m.read addr with
    | none => none
    | some b =>
      match memRead m (addr + 1) n with
      | none => none
      | some rest => some (b :: rest)

/-! ## Command bodies -/

/-- What a body comes to: it ran to its end, it met a `raise` and left the state it had made so far
(rule R13), or it went where the rules give it no step (no state that a run reaches). -/
inductive Res (α : Type) where
  | done (a : α) (s : State)
  | raised (c : Cause) (s : State)
  | stuck (r : Fault)
deriving DecidableEq, Repr

/-- A piece of pseudocode: a function of the state before it (rule R13). -/
def Op (α : Type) : Type := State → Res α

/-- A value, with no effect. -/
def Op.pure {α : Type} (a : α) : Op α := fun s => .done a s

/-- Nothing. -/
def Op.skip : Op Unit := Op.pure ()

/-- `x` and then `f` of its result; a `raise` in `x` ends it (rule R13). -/
def Op.bind {α β : Type} (x : Op α) (f : α → Op β) : Op β := fun s =>
  match x s with
  | .done a t => f a t
  | .raised c t => .raised c t
  | .stuck r => .stuck r

/-- `x` and then `y`. -/
def Op.seq {α β : Type} (x : Op α) (y : Op β) : Op β := x.bind fun _ => y

/-- A read of the state. -/
def Op.get {α : Type} (f : State → α) : Op α := fun s => .done (f s) s

/-- Writes of the state. -/
def Op.modify (f : State → State) : Op Unit := fun s => .done () (f s)

/-- `raise E_X`. -/
def raise {α : Type} (c : Cause) : Op α := fun s => .raised c s

/-- Fault entry (rule R262): `FAULT` and `CAUSE` are written and `pc` is not advanced. Nothing is saved
and there is no return (rule R264): only reset clears a fault (`State.hReset`). -/
def State.takeFault (s : State) (c : Cause) : State := s.setFault c

/-- `pc <- pc + 1` (rules R22 and R103). -/
def State.advancePc (s : State) : State := { s with pc := s.pc + 1 }

/-- The end of a command (rule R103): `pc` advances if nothing was raised, else fault entry. -/
def complete (body : Op Unit) (s : State) : Host.Outcome State Fault Refusal :=
  match body s with
  | .done _ t => .next t.advancePc
  | .raised c t => .next (t.takeFault c)
  | .stuck r => .fault r

/-- The word at `pc`, `prog[pc]` (rule R103). -/
def fetch (s : State) : Option CmdWord := s.prog[s.pc]?

/-! ## Preconditions -/

/-- `need_dir(d)` (rule R106). -/
def needDir (d : Dir) : Op Unit := fun s => if s.bcDir = d then .done () s else .raised .dir s

/-- `need_tree()` (rule R107), with the tree the command then walks, `tree(ROOT)` (rule R36). -/
def needTree : Op Tree := fun s =>
  if s.treeValid = false then .raised .notree s
  else
    match s.tree with
    | some t => .done t s
    | none => .stuck .noTree

/-! ## The stores -/

/-- `src_next()` (rule R53). Called only when `SRC_POS < SRC_LEN`. -/
def srcNext : Op Byte := fun s =>
  match s.src.read s.srcPos.toNat with
  | some b => .done b { s with srcPos := s.srcPos + 1 }
  | none => .stuck .noByte

/-- `SNK_LEN = SNK_CAP`, never when `SNK_CAP` is unbounded (rule R57). -/
def State.sinkFull (s : State) : Bool :=
  match s.snkCap with
  | none => false
  | some cap => s.snkLen == cap.toNat

/-- `snk_append(v)` (rule R57): `MemWrite` at `SNK_LEN`. -/
def snkAppend (v : Byte) : Op Unit := fun s =>
  if s.sinkFull then .raised .io s else .done () { s with snk := s.snk.write s.snkLen v }

/-- `for every byte of SRC from SRC_POS on`: the loop `while SRC_POS < SRC_LEN` over `n` bytes. -/
def forSrc (body : Byte → Op Unit) : Nat → Op Unit
  | 0 => Op.skip
  | n + 1 => (srcNext.bind body).seq (forSrc body n)

/-- A body `n` times. -/
def times : Nat → Op Unit → Op Unit
  | 0, _ => Op.skip
  | n + 1, body => body.seq (times n body)

/-! ## Bit Channel primitives -/

/-- Opens the channel: direction set, cursor and buffer zero (rules R114 and R115). -/
def openChannel (d : Dir) : Op Unit := Op.modify fun s => { s with bcDir := d, bcCur := 0, bcBuf := 0 }

/-- The first half of `read_bit()`: at cursor 0 the next byte of SRC, or `E_EOF` (rule R110). -/
def refill : Op Unit := fun s =>
  if s.bcCur = 0 then
    if s.srcPos = s.srcLen then .raised .eof s
    else (srcNext.bind fun b => Op.modify fun t => { t with bcBuf := b }) s
  else .done () s

/-- The second half of `read_bit()`: bit `7 - BC_CUR` of the buffer, and the cursor (rule R110). -/
def takeBit : Op Bool := fun s =>
  .done (s.bcBuf.getLsbD (7 - s.bcCur.toNat)) { s with bcCur := s.bcCur + 1 }

/-- `read_bit()` (rule R110). -/
def readBit : Op Bool := refill.seq takeBit

/-- The loop of `read_byte()`: bits `n - 1` down to 0 of `v` (rule R111). -/
def readByteLoop : Nat → Byte → Op Byte
  | 0, v => Op.pure v
  | n + 1, v => readBit.bind fun b => readByteLoop n (setBit v n b)

/-- `read_byte()` (rule R111). -/
def readByte : Op Byte := readByteLoop 8 0

/-- Shifts a bit into the buffer and moves the cursor (the first two lines of rule R112). -/
def State.shiftIn (s : State) (b : Bool) : State :=
  { s with bcBuf := (s.bcBuf <<< 1) ||| zext8 b, bcCur := s.bcCur + 1 }

/-- The emission at the eighth bit (the `if` of rule R112). -/
def emitByte : Op Bool := fun s =>
  if s.bcCur = 0 then
    ((snkAppend s.bcBuf).seq ((Op.modify fun t => { t with bcBuf := 0 }).seq (Op.pure true))) s
  else .done false s

/-- `write_bit(b)`, with its result "byte flushed" (rule R112). -/
def writeBit (b : Bool) : Op Bool := (Op.modify fun s => s.shiftIn b).seq emitByte

/-- `write_bit` of each bit in turn, the results dropped. -/
def writeBits : List Bool → Op Unit
  | [] => Op.skip
  | b :: rest => (writeBit b).seq (writeBits rest)

/-- `write_byte(v)` (rule R113). -/
def writeByte (v : Byte) : Op Unit := writeBits (byteBits v)

/-- `write_bytes(bytes)`: `write_byte` of each in turn (rule R120). -/
def writeBytes : List Byte → Op Unit
  | [] => Op.skip
  | v :: rest => (writeByte v).seq (writeBytes rest)

end Sys2Proof.Machine
end

