-- ==== Sys2Proof/Machine/BitChannel.lean ====
section
/-! DEFINITION. The nine Bit Channel commands (41_bit_channel.md). -/

namespace Sys2Proof.Machine

/-- `RES <- v` (rule R25). -/
def setRes (v : Byte) : Op Unit := Op.modify fun s => { s with res := v }

/-- OPEN_RD's body (rule R114). -/
def opOpenRd : Op Unit := openChannel .rd

/-- OPEN_WR's body (rule R115): SNK is not emptied. -/
def opOpenWr : Op Unit := openChannel .wr

/-- RD_BIT's body (rule R116). -/
def opRdBit : Op Unit := (needDir .rd).seq (readBit.bind fun b => setRes (zext8 b))

/-- RD_BYTE's body (rule R117). -/
def opRdByte : Op Unit := (needDir .rd).seq (readByte.bind fun v => setRes v)

/-- WR_BIT's body (rule R118). -/
def opWrBit (b : Bool) : Op Unit :=
  (needDir .wr).seq ((writeBit b).bind fun flushed => setRes (zext8 flushed))

/-- WR_BYTE's body (rule R119): `RES` is not written. -/
def opWrByte (v : Byte) : Op Unit := (needDir .wr).seq (writeByte v)

/-- `while BC_CUR != 0: write_bit(0)`, at most `n` times (rule R121). -/
def flushLoop : Nat → Op Unit
  | 0 => Op.skip
  | n + 1 => fun s => if s.bcCur = 0 then .done () s else ((writeBit false).seq (flushLoop n)) s

/-- FLUSH's body (rule R121): at most 7 bits are missing to the byte boundary. -/
def opFlush : Op Unit := (needDir .wr).seq (flushLoop 7)

/-- The transfer of RD_SIZE: eight raw bytes, the channel not touched (rule R122). -/
def takeHeader : Op Unit := fun s =>
  if s.srcLen - s.srcPos < 8 then .raised .header s
  else
    match memRead s.src s.srcPos.toNat Config.sizeBytes with
    | some h => .done () { s with size := sizeOfHeader h, srcPos := s.srcPos + 8 }
    | none => .stuck .noByte

/-- RD_SIZE's body (rule R122). -/
def opRdSize : Op Unit := (needDir .rd).seq takeHeader

/-- WR_SIZE's body (rule R123): least significant byte first, through `write_byte`. -/
def opWrSize : Op Unit := (needDir .wr).seq ((Op.get fun s => s.size).bind fun v => writeBytes (sizeHeader v))

def execOpenRd (s : State) : Host.Outcome State Fault Refusal := complete opOpenRd s
def execOpenWr (s : State) : Host.Outcome State Fault Refusal := complete opOpenWr s
def execRdBit (s : State) : Host.Outcome State Fault Refusal := complete opRdBit s
def execRdByte (s : State) : Host.Outcome State Fault Refusal := complete opRdByte s
def execWrBit (b : Bool) (s : State) : Host.Outcome State Fault Refusal := complete (opWrBit b) s
def execWrByte (v : Byte) (s : State) : Host.Outcome State Fault Refusal := complete (opWrByte v) s
def execFlush (s : State) : Host.Outcome State Fault Refusal := complete opFlush s
def execRdSize (s : State) : Host.Outcome State Fault Refusal := complete opRdSize s
def execWrSize (s : State) : Host.Outcome State Fault Refusal := complete opWrSize s

end Sys2Proof.Machine
end

