-- ==== Sys2Proof/Machine/CodeGen.lean ====
section
/-! DEFINITION. The Code Generator command GEN_CODES (44_code_generator.md). -/

namespace Sys2Proof.Machine

/-- A Leaf met at `depth` with `path`: its code, or `DEPTH_OVF` past `CODE_MAX` (rules R180 and R182). -/
def State.visitLeaf (s : State) (sym : Byte) (path : BitVec 30) (depth : Nat) : State :=
  if depth ≤ Config.codeMax then
    { s with code := s.code.set sym ⟨true, BitVec.ofNat 5 depth, path⟩ }
  else s.setDepthOvf true

/-- `walk` (rule R180): pre-order, left extends the path by 0 and right by 1. -/
def walk : Tree → BitVec 30 → Nat → Op Unit
  | .leaf sym, path, depth => Op.modify fun s => s.visitLeaf sym path depth
  | .branch l r, path, depth =>
    (walk l (path <<< 1) (depth + 1)).seq (walk r ((path <<< 1) ||| 1) (depth + 1))

/-- GEN_CODES's body (rule R180). -/
def opGenCodes : Op Unit :=
  needTree.bind fun t =>
    (Op.modify fun s => ({ s with code := Table.fill CodeEntry.none }).setDepthOvf false).seq (walk t 0 0)

def execGenCodes (s : State) : Host.Outcome State Fault Refusal := complete opGenCodes s

end Sys2Proof.Machine
end

