-- ==== Sys2Proof/Machine/Control.lean ====
section
/-! DEFINITION. The control commands NOP, REWIND and LD_SIZE (40_control.md). -/

namespace Sys2Proof.Machine

/-- NOP's body: nothing (rule R100). -/
def opNop : Op Unit := Op.skip

/-- REWIND's body (rule R101): the channel is not touched. -/
def opRewind : Op Unit := Op.modify fun s => { s with srcPos := 0 }

/-- LD_SIZE's body (rule R102). -/
def opLdSize : Op Unit := Op.modify fun s => { s with size := s.srcLen }

def execNop (s : State) : Host.Outcome State Fault Refusal := complete opNop s
def execRewind (s : State) : Host.Outcome State Fault Refusal := complete opRewind s
def execLdSize (s : State) : Host.Outcome State Fault Refusal := complete opLdSize s

end Sys2Proof.Machine
end

