-- ==== Sys2Proof/Machine/Frequency.lean ====
section
/-! DEFINITION. The Frequency Model commands CNT_DISTINCT, HIST and FLIST (42_frequency.md). -/

namespace Sys2Proof.Machine

/-- The scan of CNT_DISTINCT over at most `n` bytes: `seen` holds the byte values met so far and `d` their
number; it stops early at 256 (rule R140). -/
def distinctLoop : Nat → List Byte → BitVec 9 → Op (BitVec 9)
  | 0, _, d => Op.pure d
  | n + 1, seen, d =>
    if d = 256 then Op.pure d
    else srcNext.bind fun b =>
      if b ∈ seen then distinctLoop n seen d else distinctLoop n (b :: seen) (d + 1)

/-- CNT_DISTINCT's body (rule R140). -/
def opCntDistinct : Op Unit :=
  (Op.get State.remaining).bind fun n =>
    (distinctLoop n [] 0).bind fun d => Op.modify fun s => { s with srcPos := 0, distinct := d }

/-- `CNT[b] <- CNT[b] + 1` (rule R143). -/
def bump (b : Byte) : Op Unit := Op.modify fun s => { s with cnt := s.cnt.set b (s.cnt.get b + 1) }

/-- HIST's body (rule R143). -/
def opHist : Op Unit :=
  (Op.modify fun s => { s with cnt := Table.fill 0 }).seq <|
    (Op.get State.remaining).bind fun n =>
      (forSrc bump n).seq (Op.modify fun s => { s with srcPos := 0 })

/-- One comparison of FLIST's search: symbol `i` with count `c` against the best `m` of the symbols before;
strict, so that the first minimum wins (rule R146). -/
def lighterOf (m : Option (Byte × Word64)) (i : Nat) (c : Word64) : Option (Byte × Word64) :=
  if c = 0 then m
  else
    match m with
    | none => some (BitVec.ofNat 8 i, c)
    | some best => if c < best.2 then some (BitVec.ofNat 8 i, c) else some best

/-- The search of FLIST from symbol `i` on: the first smallest nonzero count, `m` being the best of the
symbols before (rule R146). -/
def lightest : List Word64 → Nat → Option (Byte × Word64) → Option (Byte × Word64)
  | [], _, m => m
  | c :: rest, i, m => lightest rest (i + 1) (lighterOf m i c)

/-- One pass of FLIST's outer loop for symbol `m` with count `c` (rule R146). -/
def State.emitLeaf (s : State) (m : Byte) (c : Word64) : State :=
  { s with
    node := s.node ++ [.leaf m]
    wl   := s.wl ++ [⟨c, BitVec.ofNat 9 s.nodeCnt⟩]
    cnt  := s.cnt.set m 0 }

/-- FLIST's outer loop: at most `n` passes, each zeroing one nonzero count (rule R146). -/
def flistLoop : Nat → Op Unit
  | 0 => Op.skip
  | n + 1 => fun s =>
    match lightest s.cnt.entries 0 none with
    | none => .done () s
    | some (m, c) => flistLoop n (s.emitLeaf m c)

/-- Empties the work list and the arena and drops the tree (rules R146 and R200). -/
def State.dropTree (s : State) : State := ({ s with wl := [], node := [] }).setTree false 0

/-- FLIST's body (rule R146). -/
def opFlist : Op Unit := (Op.modify State.dropTree).seq (flistLoop Config.nsym)

def execCntDistinct (s : State) : Host.Outcome State Fault Refusal := complete opCntDistinct s
def execHist (s : State) : Host.Outcome State Fault Refusal := complete opHist s
def execFlist (s : State) : Host.Outcome State Fault Refusal := complete opFlist s

end Sys2Proof.Machine
end

