-- ==== Sys2Proof/Machine/StreamCodec.lean ====
section
/-! DEFINITION. The Stream Codec commands ENCODE and DECODE (46_stream_codec.md). -/

namespace Sys2Proof.Machine

/-- One byte of ENCODE: its code's bits, or `E_NOCODE` (rule R215). -/
def encodeByte (b : Byte) : Op Unit := fun s =>
  if (s.code.get b).valid = false then .raised .nocode s else writeBits (s.code.get b).emitted s

/-- ENCODE's body (rule R215): it reads `CODE`, not the tree. -/
def opEncode : Op Unit :=
  (needDir .wr).seq ((Op.get State.remaining).bind fun n => forSrc encodeByte n)

/-- The inner walk of DECODE: one bit per Branch, to a Leaf (rule R220). -/
def walkDown : Tree → Op Byte
  | .leaf sym => Op.pure sym
  | .branch l r => readBit.bind fun d => if d then walkDown r else walkDown l

/-- DECODE's body (rule R220): raw bytes to SNK, `SIZE` of them. -/
def opDecode : Op Unit :=
  (needDir .rd).seq <| needTree.bind fun t =>
    (Op.get fun s => s.size).bind fun n => times n.toNat ((walkDown t).bind snkAppend)

def execEncode (s : State) : Host.Outcome State Fault Refusal := complete opEncode s
def execDecode (s : State) : Host.Outcome State Fault Refusal := complete opDecode s

end Sys2Proof.Machine
end

