-- ==== Sys2Proof/Machine/TreeBuilder.lean ====
section
/-! DEFINITION. The Tree Builder command BUILD_TREE (43_tree_builder.md): the priority queue, held as the
sorted work list, and the merger. -/

namespace Sys2Proof.Machine

/-- The insertion of rule R162: after every item whose weight is less than or equal to the new one's. -/
def insertItem (wl : List WorkItem) (x : WorkItem) : List WorkItem :=
  let p := wl.countP fun k => decide (k.w ≤ x.w)
  wl.take p ++ [x] ++ wl.drop p

/-- One pass of the loop of rule R160: the first two items become a Branch, `x` left and `y` right. -/
def State.merge (s : State) (x y : WorkItem) (rest : List WorkItem) : State :=
  { s with
    node := s.node ++ [.branch x.n y.n]
    wl   := insertItem rest ⟨x.w + y.w, BitVec.ofNat 9 s.nodeCnt⟩ }

/-- `while WL_LEN > 1`, at most `n` passes; each shortens the list by one (rule R160). -/
def mergeLoop : Nat → Op Unit
  | 0 => Op.skip
  | n + 1 => fun s =>
    match s.wl with
    | x :: y :: rest => mergeLoop n (s.merge x y rest)
    | _ => .done () s

/-- The end of BUILD_TREE: the last item is consumed (rule R160). It is reached with one item. -/
def takeRoot : Op Unit := fun s =>
  match s.wl with
  | [] => .raised .empty s
  | x :: _ => .done () (({ s with wl := [], checksum := x.w }).setTree true x.n)

/-- BUILD_TREE's body (rule R160). -/
def opBuildTree : Op Unit := fun s =>
  if s.wlLen = 0 then .raised .empty s else ((mergeLoop s.wlLen).seq takeRoot) s

def execBuildTree (s : State) : Host.Outcome State Fault Refusal := complete opBuildTree s

end Sys2Proof.Machine
end

