-- ==== Sys2Proof/Machine/TreeSerdes.lean ====
section
/-! DEFINITION. The Tree Serializer and Deserializer commands WR_TREE and RD_TREE (45_tree_serdes.md). -/

namespace Sys2Proof.Machine

/-- `put` (rule R195). -/
def putTree : Tree → Op Unit
  | .leaf sym => (writeBit false).seq (writeByte sym)
  | .branch l r => (writeBit true).seq ((putTree l).seq (putTree r))

/-- WR_TREE's body (rule R195): it does not FLUSH. -/
def opWrTree : Op Unit := (needDir .wr).seq (needTree.bind fun t => putTree t)

/-- `if NODE_CNT = 511: raise E_TREE_OVF` (rules R200 and R204). -/
def needRoom : Op Unit := fun s => if s.nodeCnt = Config.nodeMax then .raised .treeOvf s else .done () s

/-- Appends a node and gives its index (rule R200). -/
def newNode (x : Node) : Op NodeIx := fun s =>
  .done (BitVec.ofNat 9 s.nodeCnt) { s with node := s.node ++ [x] }

/-- `NODE[i].LEFT <- l; NODE[i].RIGHT <- r` of a Branch (rule R200). -/
def fillNode (i l r : NodeIx) : Op Unit := Op.modify fun s => { s with node := s.node.set i.toNat (.branch l r) }

/-- `get` (rule R200). `n` is the number of calls it may still nest: from an empty arena a call nested in
511 others finds 511 Branches allocated, so at 0 only the marker bit is read and the arena is full. -/
def getTree : Nat → Op NodeIx
  | 0 => readBit.seq (raise .treeOvf)
  | n + 1 => readBit.bind fun m => needRoom.seq <|
    if m then
      (newNode (.branch 0 0)).bind fun i =>
        (getTree n).bind fun l => (getTree n).bind fun r => (fillNode i l r).seq (Op.pure i)
    else readByte.bind fun sym => newNode (.leaf sym)

/-- RD_TREE's body (rules R200 and R205). -/
def opRdTree : Op Unit :=
  (needDir .rd).seq <| (Op.modify State.dropTree).seq <|
    (getTree Config.nodeMax).seq (Op.modify fun s => s.setTree true 0)

def execWrTree (s : State) : Host.Outcome State Fault Refusal := complete opWrTree s
def execRdTree (s : State) : Host.Outcome State Fault Refusal := complete opRdTree s

end Sys2Proof.Machine
end

