-- ==== Sys2Proof/Machine/Macros.lean ====
section
/-! DEFINITION. The whole-file commands COMPRESS and DECOMPRESS (47_macros.md): each line is the body of
the named command, run in place. -/

namespace Sys2Proof.Machine

/-- `if CHECKSUM != SRC_LEN: raise E_CHECKSUM` (rule R235). -/
def needChecksum : Op Unit := fun s => if s.checksum = s.srcLen then .done () s else .raised .checksum s

/-- COMPRESS up to BUILD_TREE (rule R235). -/
def compressFront : Op Unit :=
  opRewind.seq <| opOpenWr.seq <| opHist.seq <| opFlist.seq opBuildTree

/-- COMPRESS from GEN_CODES on (rule R235). -/
def compressBack : Op Unit :=
  opGenCodes.seq <| opLdSize.seq <| opWrSize.seq <| opWrTree.seq <| opEncode.seq opFlush

/-- COMPRESS's body (rule R235). -/
def opCompress : Op Unit := compressFront.seq (needChecksum.seq compressBack)

/-- DECOMPRESS's body (rule R236). -/
def opDecompress : Op Unit :=
  opRewind.seq <| opOpenRd.seq <| opRdSize.seq <| opRdTree.seq opDecode

def execCompress (s : State) : Host.Outcome State Fault Refusal := complete opCompress s
def execDecompress (s : State) : Host.Outcome State Fault Refusal := complete opDecompress s

end Sys2Proof.Machine
end

