-- ==== Sys2Proof/Machine/Dispatch.lean ====
section
/-! DEFINITION. exec: one arm for each command (40_control.md rule R103, "execute c by its rule"). -/

namespace Sys2Proof.Machine

def exec (i : Instr) (s : State) : Host.Outcome State Fault Refusal :=
  match i with
  | .nop => Sys2Proof.Machine.execNop s
  | .rewind => Sys2Proof.Machine.execRewind s
  | .ldSize => Sys2Proof.Machine.execLdSize s
  | .openRd => Sys2Proof.Machine.execOpenRd s
  | .openWr => Sys2Proof.Machine.execOpenWr s
  | .rdBit => Sys2Proof.Machine.execRdBit s
  | .rdByte => Sys2Proof.Machine.execRdByte s
  | .wrBit b => Sys2Proof.Machine.execWrBit b s
  | .wrByte v => Sys2Proof.Machine.execWrByte v s
  | .flush => Sys2Proof.Machine.execFlush s
  | .rdSize => Sys2Proof.Machine.execRdSize s
  | .wrSize => Sys2Proof.Machine.execWrSize s
  | .cntDistinct => Sys2Proof.Machine.execCntDistinct s
  | .hist => Sys2Proof.Machine.execHist s
  | .flist => Sys2Proof.Machine.execFlist s
  | .buildTree => Sys2Proof.Machine.execBuildTree s
  | .genCodes => Sys2Proof.Machine.execGenCodes s
  | .wrTree => Sys2Proof.Machine.execWrTree s
  | .rdTree => Sys2Proof.Machine.execRdTree s
  | .encode => Sys2Proof.Machine.execEncode s
  | .decode => Sys2Proof.Machine.execDecode s
  | .compress => Sys2Proof.Machine.execCompress s
  | .decompress => Sys2Proof.Machine.execDecompress s

end Sys2Proof.Machine
end

