-- ==== Sys2Proof/Machine/HostOps.lean ====
section
/-! DEFINITION. What the host may do between two commands (20_memory.md rules R70 to R75), and the
register space it reads (10_state.md rules R40 and R41). -/

namespace Sys2Proof.Machine

/-- It is the host's turn: no issued word waits for the sequencer, because every word is done or the run is
faulted and takes none. "The sequencer executes it to completion (or fault) before the host's next operation"
(rule R74), so every host operation is made in such a state (rule R76; `HostMove`). -/
def State.idle (s : State) : Bool := s.fault || s.pc == s.prog.length

/-- `H_LOAD_SRC(bytes)` (rule R70): offered only for `|bytes| < 2^64`. -/
def State.hLoadSrc (s : State) (bs : List Byte) : Option State :=
  if bs.length < 2 ^ 64 then some { s with src := Memory.ofBytes bs, srcPos := 0 } else none

/-- `H_READ_SNK()` (rule R71). -/
def State.hReadSnk (s : State) : List Byte := s.snk.bytes

/-- `H_CLEAR_SNK()` (rule R72): pending bits stay. -/
def State.hClearSnk (s : State) : State := { s with snk := [] }

/-- `H_ISSUE(word)` (rule R74): the word is the next element of `prog`. From an idle state that is not faulted it
is the word at `pc`, so it is not the host's turn again until a step has executed it; a faulted run never takes it
(rule R263). -/
def State.hIssue (s : State) (w : CmdWord) : State := { s with prog := s.prog ++ [w] }

/-- `H_RESET()` (rules R75 and R280). `SNK_CAP` is an argument of the model, not state, and stays. -/
def State.hReset (s : State) : State := { State.reset with snkCap := s.snkCap }

/-- The 64-bit view of `SNK_LEN` (rule R29; log entry 3). -/
def State.snkLenWord (s : State) : Word64 :=
  if s.snkLen < 2 ^ 64 then BitVec.ofNat 64 s.snkLen else Config.snkLenBeyond s.snkLen

/-- The scalar registers, numbers 0x000 to 0x00C (rule R40). -/
def State.scalarReg (s : State) (n : Nat) : Word64 :=
  match n with
  | 0x000 => s.statusWord
  | 0x001 => s.cause.setWidth 64
  | 0x002 => s.res.setWidth 64
  | 0x003 => s.distinct.setWidth 64
  | 0x004 => s.size
  | 0x005 => s.checksum
  | 0x006 => s.srcLen
  | 0x007 => s.srcPos
  | 0x008 => s.snkLenWord
  | 0x009 => s.bcWord
  | 0x00A => BitVec.ofNat 64 s.wlLen
  | 0x00B => BitVec.ofNat 64 s.nodeCnt
  | 0x00C => s.root.setWidth 64
  | _ => 0

/-- `NODE[i]` as the host sees it: 0 from `NODE_CNT` on (rule R41). -/
def State.nodeReg (s : State) (i : Nat) : Word64 :=
  match s.node[i]? with
  | some x => x.word
  | none => 0

/-- `H_READ_REG(n)` (rules R40, R41 and R73). -/
def State.hReadReg (s : State) (n : Nat) : Word64 :=
  if n < 0x100 then s.scalarReg n
  else if n < 0x200 then s.cnt.get (BitVec.ofNat 8 (n - 0x100))
  else if n < 0x400 then 0
  else if n < 0x5FF then s.nodeReg (n - 0x400)
  else if n < 0x600 then 0
  else if n < 0x700 then (s.code.get (BitVec.ofNat 8 (n - 0x600))).word
  else 0

end Sys2Proof.Machine
end

