-- ==== Sys2Proof/Machine/Step.lean ====
section
/-! DEFINITION. One step of the sequencer (40_control.md rule R103). -/

namespace Sys2Proof.Machine

/-- The step of rule R103. "No step" is a stop under a name of its own. -/
def step (s : State) : Host.Outcome State Fault Refusal :=
  if s.fault then .fault .runFaulted
  else
    match fetch s with
    | none => .fault .runComplete
    | some w =>
      match Sys2Proof.decode w with
      | .error _ => .next (s.takeFault .illegal)
      | .ok i => exec i s

/-- The program with the word `w` at index `n`; a command stream that ends before `n` is continued with
NOPs, which no step from `n` on reads. -/
def placeWord : List CmdWord → Nat → CmdWord → List CmdWord
  | [], 0, w => [w]
  | _ :: rest, 0, w => w :: rest
  | [], n + 1, w => 0 :: placeWord [] n w
  | x :: rest, n + 1, w => x :: placeWord rest n w

/-- The state whose very next step runs the command word `w`: the word stands at `pc`, and the run is not
faulted, which the sequencer needs to take a word at all (`CAUSE` is 0 whenever `FAULT` is, rule R24). -/
def State.withFetchWord (s : State) (nbits w : Nat) : State :=
  { s with prog := placeWord s.prog s.pc (BitVec.ofNat 16 (w % 2 ^ nbits)), fault := false, cause := 0 }

end Sys2Proof.Machine
end

