-- ==== Sys2Proof/Safety.lean ====
section
/-! DEFINITION. The terms claims are made in: how a run ends (70_reset_and_hazards.md rule R288), which
states a run reaches, the invariants the spec's rules name, and what the stores, the channel and the tree
stand for (10_state.md rules R31 and R36; 20_memory.md rules R60 and R65). -/

namespace Sys2Proof.Machine

/-! ## Runs -/

/-- The only successful end of a run (rule R288 (a)). -/
def Completed (s : State) : Prop := s.pc = s.prog.length ∧ s.fault = false

/-- The other end of a run (rule R288 (b)). -/
def Faulted (s : State) : Prop := s.fault = true

/-- What the host may do to the state between two commands (rules R70, R72, R74, R75 and R76): an issued word is
executed before the host's next operation (rule R74), so every move starts from an idle state. -/
inductive HostMove : State → State → Prop where
  | loadSrc (s t : State) (bs : List Byte) (hi : s.idle = true) (h : s.hLoadSrc bs = some t) : HostMove s t
  | clearSnk (s : State) (hi : s.idle = true) : HostMove s s.hClearSnk
  | issue (s : State) (w : CmdWord) (hi : s.idle = true) : HostMove s (s.hIssue w)
  | reset (s : State) (hi : s.idle = true) : HostMove s s.hReset

/-- The states of a run: from reset, under any `SNK_CAP`, by host moves and steps (rule R288). -/
inductive Reachable : State → Prop where
  | reset (cap : Option Word64) : Reachable { State.reset with snkCap := cap }
  | host (s t : State) (hs : Reachable s) (h : HostMove s t) : Reachable t
  | step (s t : State) (hs : Reachable s) (h : Machine.step s = .next t) : Reachable t

/-- The faults a command can raise, the "raised by" column of rule R250. -/
def mayRaise : Instr → List Cause
  | .nop | .rewind | .ldSize | .openRd | .openWr | .cntDistinct | .hist | .flist => []
  | .rdBit | .rdByte => [.dir, .eof]
  | .wrBit _ | .wrByte _ | .flush | .wrSize => [.dir, .io]
  | .rdSize => [.dir, .header]
  | .buildTree => [.empty]
  | .genCodes => [.notree]
  | .wrTree => [.dir, .notree, .io]
  | .rdTree => [.dir, .eof, .treeOvf]
  | .encode => [.dir, .nocode, .io]
  | .decode => [.dir, .notree, .eof, .io]
  | .compress => [.empty, .checksum, .nocode, .io]
  | .decompress => [.header, .eof, .treeOvf, .io]

/-- Commands one after the other, up to the first that faults (rules R68 and R263). -/
def runInstrs : List Instr → State → Host.Outcome State Fault Refusal
  | [], s => .next s
  | i :: rest, s =>
    match exec i s with
    | .next t => if t.fault then .next t else runInstrs rest t
    | .fault r => .fault r
    | .refused r => .refused r

/-- The same outcome but for `pc` (rule R238). -/
def SameButPc : Host.Outcome State Fault Refusal → Host.Outcome State Fault Refusal → Prop
  | .next s, .next t => { s with pc := 0 } = { t with pc := 0 }
  | .fault r, .fault r' => r = r'
  | .refused r, .refused r' => r = r'
  | _, _ => False

/-! ## Invariants -/

/-- A store of `n` bytes holds exactly the addresses 0 to `n - 1`, in order (rules R50 and R56). -/
def Memory.full (m : Memory) : Prop := m.map Prod.fst = List.range m.length

/-- The stores: both full, `SRC_LEN < 2^64`, `SRC_POS <= SRC_LEN`, `SNK_LEN` within `SNK_CAP` (rules R29,
R50, R51 and R57). -/
structure StoresWf (s : State) : Prop where
  src    : s.src.full
  snk    : s.snk.full
  srcLen : s.src.length < 2 ^ 64
  srcPos : s.srcPos.toNat ≤ s.src.length
  snkLen : ∀ cap, s.snkCap = some cap → s.snk.length ≤ cap.toNat

/-- The Bit Channel: closed it holds nothing, and while it writes, the buffer is the `BC_CUR` pending bits
(rules R31 and R124). A run that a full sink has stopped inside `write_bit` is excepted. -/
def ChannelWf (s : State) : Prop :=
  match s.bcDir with
  | .closed => s.bcCur = 0 ∧ s.bcBuf = 0
  | .rd => True
  | .wr => s.fault = true ∨ s.bcBuf.toNat < 2 ^ s.bcCur.toNat

/-- `CAUSE` is 0 exactly while `FAULT` is, and never 11 to 15 (rules R24 and R250). -/
def FaultWf (s : State) : Prop := (s.fault = false ↔ s.cause = 0) ∧ s.cause.toNat ≤ 10

/-- The nodes that `tree(i)` is read from, in pre-order (rule R36). -/
def visited (nodes : List Node) : Nat → Nat → List Nat
  | 0, _ => []
  | fuel + 1, i =>
    match nodes[i]? with
    | none => []
    | some (.leaf _) => [i]
    | some (.branch l r) => i :: (visited nodes fuel l.toNat ++ visited nodes fuel r.toNat)

/-- The arena and the work list: at most 511 nodes and 256 items; a valid tree is a finite tree that
reaches no node twice; without one `ROOT` is 0; a work list stands only over the Leaves FLIST has just
emitted, item `j` over node `j` (rules R33 to R36, R146). -/
structure TreeWf (s : State) : Prop where
  nodes   : s.node.length ≤ Config.nodeMax
  items   : s.wl.length ≤ Config.wlMax
  tree    : s.treeValid = true → ∃ t, s.tree = some t
  once    : s.treeValid = true → (visited s.node s.node.length s.root.toNat).Nodup
  root    : s.treeValid = false → s.root = 0
  waiting : s.wl ≠ [] → s.treeValid = false ∧
    ∃ syms : List Byte, syms.Nodup ∧ s.node = syms.map Node.leaf ∧
      s.wl.map WorkItem.n = (List.range syms.length).map (BitVec.ofNat 9)

/-- A code table entry: `(0, 0, 0)` without a code; else at most 30 bits, and `BITS[29:LEN] = 0` (rules R37
and R38). -/
def CodesWf (s : State) : Prop :=
  ∀ x, ((s.code.get x).valid = false → s.code.get x = CodeEntry.none) ∧
    ((s.code.get x).valid = true →
      (s.code.get x).len.toNat ≤ Config.codeMax ∧ (s.code.get x).bits.toNat < 2 ^ (s.code.get x).len.toNat)

/-- The counts and the weights: their sums stay below 2^64, the work list is sorted by weight, no weight
is 0, and `DISTINCT` is at most 256 (rules R26, R32, R34, R148, R167 and R168). -/
structure CountsWf (s : State) : Prop where
  counts   : (s.cnt.entries.map BitVec.toNat).sum < 2 ^ 64
  weights  : (s.wl.map fun x => x.w.toNat).sum < 2 ^ 64
  sorted   : s.wl.Pairwise fun x y => x.w ≤ y.w
  positive : ∀ x ∈ s.wl, x.w ≠ 0
  distinct : s.distinct.toNat ≤ 256

/-- `pc` stays within the command stream (rule R22). -/
def PcWf (s : State) : Prop := s.pc ≤ s.prog.length

/-- All of them. -/
structure Legal (s : State) : Prop where
  stores  : StoresWf s
  channel : ChannelWf s
  faults  : FaultWf s
  tree    : TreeWf s
  codes   : CodesWf s
  counts  : CountsWf s
  pc      : PcWf s

/-! ## What the state stands for -/

/-- SNK has room for `n` more bytes (rule R57). -/
def State.Room (s : State) (n : Nat) : Prop := ∀ cap, s.snkCap = some cap → s.snk.length + n ≤ cap.toNat

/-- The bits written and not yet emitted, the earliest first: `BC_BUF[BC_CUR-1:0]` (rule R31). -/
def State.pendingOut (s : State) : List Bool :=
  (List.range s.bcCur.toNat).map fun k => s.bcBuf.getLsbD (s.bcCur.toNat - 1 - k)

/-- The bits written: those in SNK and those still pending (rules R31 and R60). -/
def State.outBits (s : State) : List Bool := s.snk.bytes.flatMap byteBits ++ s.pendingOut

/-- The bits fetched and not yet delivered, `BC_BUF[7-BC_CUR:0]`; at cursor 0 there are none (rule R31). -/
def State.pendingIn (s : State) : List Bool :=
  if s.bcCur = 0 then [] else (byteBits s.bcBuf).drop s.bcCur.toNat

/-- The bytes of SRC from `SRC_POS` on (rule R51). -/
def State.rest (s : State) : List Byte := s.src.bytes.drop s.srcPos.toNat

/-- The bits `read_bit()` will deliver, in order (rules R31 and R110). -/
def State.inBits (s : State) : List Bool := s.pendingIn ++ s.rest.flatMap byteBits

/-- `ser` (rule R65 (b)). -/
def Tree.ser : Tree → List Bool
  | .leaf x => false :: byteBits x
  | .branch l r => true :: (l.ser ++ r.ser)

/-- The Leaves in pre-order, each with its path from the root, left = 0 and right = 1 (rules R38, R181). -/
def Tree.leaves : Tree → List (List Bool × Byte)
  | .leaf x => [([], x)]
  | .branch l r =>
    (l.leaves.map fun p => (false :: p.1, p.2)) ++ (r.leaves.map fun p => (true :: p.1, p.2))

/-- The symbols of the Leaves, in pre-order. -/
def Tree.symbols (t : Tree) : List Byte := t.leaves.map Prod.snd

/-- The arena RD_TREE makes of a tree whose root is node `i`: pre-order numbering (rule R201). -/
def Tree.preorder : Tree → Nat → List Node
  | .leaf x, _ => [.leaf x]
  | .branch l r, i =>
    let ls := l.preorder (i + 1)
    .branch (BitVec.ofNat 9 (i + 1)) (BitVec.ofNat 9 (i + 1 + ls.length)) ::
      (ls ++ r.preorder (i + 1 + ls.length))

/-- A path as the `BITS` of a code: the first direction most significant (rule R38). -/
def pathBits (p : List Bool) : BitVec 30 := p.foldl (fun v d => (v <<< 1) ||| (if d then 1 else 0)) 0

/-- The code a tree gives a symbol: the path of its last Leaf at depth 30 or less (rules R180 and R185). -/
def Tree.codeEntry (t : Tree) (x : Byte) : CodeEntry :=
  match (t.leaves.filter fun p => p.2 = x ∧ p.1.length ≤ Config.codeMax).getLast? with
  | none => CodeEntry.none
  | some p => ⟨true, BitVec.ofNat 5 p.1.length, pathBits p.1⟩

/-- The bits of a sequence of bytes under a tree's codes. -/
def Tree.payload (t : Tree) (bs : List Byte) : List Bool := bs.flatMap fun b => (t.codeEntry b).emitted

/-- The value of at most eight bits, the first most significant, in the high bits of a byte. -/
def packByte (bits : List Bool) : Byte := bits.zipIdx.foldl (fun v p => v ||| (zext8 p.1 <<< (7 - p.2))) 0

/-- A bit string as bytes, zero-padded to a byte boundary (rule R65 (d)); `n` bounds the bytes. -/
def packBits : Nat → List Bool → List Byte
  | 0, _ => []
  | n + 1, bits => if bits = [] then [] else packByte (bits.take 8) :: packBits n (bits.drop 8)

/-- The compressed stream of the bytes `bs` under the tree `t` (rule R65). -/
def stream (t : Tree) (bs : List Byte) : List Byte :=
  sizeHeader (BitVec.ofNat 64 bs.length) ++
    (let bits := t.ser ++ t.payload bs; packBits bits.length bits)

/-! ## The priority queue of 43_tree_builder.md rule R164 -/

/-- An item of the queue: the work item and its sequence number. -/
structure PqItem where
  w   : Word64
  seq : Nat
  n   : NodeIx
deriving DecidableEq, Repr

/-- The key `(w, seq)`, compared lexicographically (rule R39). -/
def PqItem.before (x y : PqItem) : Bool := decide (x.w < y.w) || (x.w == y.w && decide (x.seq < y.seq))

/-- The least item of a queue held in no order. -/
def pqLeast : PqItem → List PqItem → PqItem
  | x, [] => x
  | x, y :: rest => if y.before x then pqLeast y rest else pqLeast x rest

/-- The merger over a priority queue: two extract-min operations, one insertion with the next `seq`; gives
the last item and the arena (rule R164). -/
def pqBuild : Nat → List PqItem → Nat → List Node → Option (PqItem × List Node)
  | 0, _, _, _ => none
  | fuel + 1, q, seq, nodes =>
    match q with
    | [] => none
    | x :: rest =>
      if rest = [] then some (x, nodes)
      else
        let a := pqLeast x rest
        match q.erase a with
        | [] => none
        | y :: rest' =>
          let b := pqLeast y rest'
          pqBuild fuel (⟨a.w + b.w, seq, BitVec.ofNat 9 nodes.length⟩ :: (y :: rest').erase b) (seq + 1)
            (nodes ++ [.branch a.n b.n])

/-- The queue of a work list: `seq` in list order (rules R39 and R164). -/
def pqOf (wl : List WorkItem) : List PqItem := wl.zipIdx.map fun p => ⟨p.1.w, p.2, p.1.n⟩

end Sys2Proof.Machine
end

