-- ==== Sys2Proof/Certificates/Slice0/Obligations.lean ====
section
/-! DEFINITION. The statements about HTB for the provers, one for each obligation of OBLIGATIONS.json. Each
docstring names the rules of spec/ it formalises; where a clause is the model's own choice it names the log
entry. A state `t.advancePc` is `t` after the command's `pc <- pc + 1`; `t.takeFault c` is fault entry. -/

open Sys2Proof Sys2Proof.Machine Host

/-! ## Encoding (30_encoding.md) -/

/-- Decoding a command's word gives the command back, operand included (rules R82 and R83). -/
def Obligations.DecodeInvertsEncode : Prop :=
  ∀ i : Instr, Sys2Proof.decode (Sys2Proof.encode i) = .ok i

/-- "Each command has exactly one word per operand value" (rule R90): a word that decodes is the word of
the command it decodes to. -/
def Obligations.EncodeInvertsDecode : Prop :=
  ∀ (w : CmdWord) (i : Instr), Sys2Proof.decode w = .ok i → Sys2Proof.encode i = w

/-- The decoder of rule R83 accepts exactly the words that select a row of the map of rule R82, by mask and
match; a word selects at most one row. -/
def Obligations.DecoderAgreesWithOpcodeMap : Prop :=
  ∀ w : CmdWord,
    ((∃ i, Sys2Proof.decode w = .ok i) ↔ wellFormedWord w = true) ∧
    ∀ r ∈ opcodeMap, ∀ r' ∈ opcodeMap, r.selects w = true → r'.selects w = true → r = r'

/-- Words written out from rule R82's encodings, one at least for each unit, and the three kinds of illegal
word of rule R84. -/
def Obligations.SampleWordsDecode : Prop :=
  Sys2Proof.decode 0b0000000000000000 = .ok .nop ∧ Sys2Proof.decode 0b0000001000000000 = .ok .ldSize ∧
  Sys2Proof.decode 0b0001010000000001 = .ok (.wrBit true) ∧
  Sys2Proof.decode 0b0001010101100001 = .ok (.wrByte 0x61) ∧
  Sys2Proof.decode 0b0010001000000000 = .ok .flist ∧ Sys2Proof.decode 0b0011001100000000 = .ok .rdTree ∧
  Sys2Proof.decode 0b0100000100000000 = .ok .decode ∧ Sys2Proof.decode 0b0101000000000000 = .ok .compress ∧
  Sys2Proof.decode 0b0000001100000000 = .error .unusedOpc ∧
  Sys2Proof.decode 0b0000000000000001 = .error .immNotZero ∧
  Sys2Proof.decode 0b0001010000000010 = .error .bitOperand

/-! ## The sequencer (40_control.md rule R103) -/

/-- A step at a legal word is the command's meaning; what follows the command (`pc <- pc + 1`, or fault
entry) is inside `exec` (rule R103). The word that `H_ISSUE` hands over is the one the next step runs (rule R74). -/
def Obligations.StepRunsDecodedCommand : Prop :=
  ∀ (s : State) (w : CmdWord) (i : Instr), s.fault = false → Sys2Proof.decode w = .ok i →
    (s.prog[s.pc]? = some w → step s = exec i s) ∧
    (s.idle = true → step (s.hIssue w) = exec i (s.hIssue w))

/-- `E_ILLEGAL` in full (rule R259): the state before the step, plus `FAULT = 1` and `CAUSE = 7`. -/
def Obligations.IllegalWordFaults : Prop :=
  ∀ (s : State) (w : CmdWord), s.fault = false → s.prog[s.pc]? = some w → wellFormedWord w = false →
    step s = .next { s with fault := true, cause := 7 }

/-- The two "no step" cases of rule R103, each under its own name (the names are log entry 2's): a faulted
run, whatever word stands at `pc` (rule R263), and a run whose `pc` has reached the end of `prog` (R288). -/
def Obligations.NoStepAfterTheRun : Prop :=
  ∀ s : State, (s.fault = true → step s = .fault .runFaulted) ∧
    (s.fault = false → s.pc = s.prog.length → step s = .fault .runComplete)

/-- `pc` only ever becomes `pc + 1`, and only when nothing was raised (rules R22, R104 and R262). -/
def Obligations.PcAdvancesUnlessFaulted : Prop :=
  ∀ s t : State, step s = .next t →
    (t.fault = false ∧ t.pc = s.pc + 1) ∨ (t.fault = true ∧ t.pc = s.pc)

/-! ## Whole-machine frames -/

/-- No command changes SRC (rule R50): its contents and length change only by H_LOAD_SRC and reset. Nor does
one change the command stream or `SNK_CAP`, which are no state (rules R9 and R22). -/
def Obligations.StepKeepsSourceAndProgram : Prop :=
  ∀ s t : State, step s = .next t → t.src = s.src ∧ t.prog = s.prog ∧ t.snkCap = s.snkCap ∧
    ∀ a, t.src.read a = s.src.read a

/-- SNK is append-only (rule R56), and only the commands of rule R58 append: the bytes stored stand at the
addresses from `SNK_LEN` on, every address outside them reads as before, and the length does not shrink. -/
def Obligations.SinkIsAppendOnly : Prop :=
  ∀ (i : Instr) (s t : State), s.snk.full → exec i s = .next t →
    (∃ bs, t.snk = Memory.ofBytes (s.snk.bytes ++ bs)) ∧
    (∀ a, a < s.snk.length ∨ t.snk.length ≤ a → t.snk.read a = s.snk.read a) ∧
    (i ∈ [.nop, .rewind, .ldSize, .openRd, .openWr, .rdBit, .rdByte, .rdSize, .cntDistinct, .hist, .flist,
          .buildTree, .genCodes, .rdTree] → t.snk = s.snk)

/-- Who writes the data registers (rules R25 to R28): the frame of every command on `RES`, `DISTINCT`,
`SIZE` and `CHECKSUM`, completed or faulted. -/
def Obligations.DataRegisterFrame : Prop :=
  ∀ (i : Instr) (s t : State), exec i s = .next t →
    (i ≠ .rdBit → i ≠ .rdByte → (∀ b, i ≠ .wrBit b) → t.res = s.res) ∧
    (i ≠ .cntDistinct → t.distinct = s.distinct) ∧
    (i ≠ .ldSize → i ≠ .rdSize → i ≠ .compress → i ≠ .decompress → t.size = s.size) ∧
    (i ≠ .buildTree → i ≠ .compress → t.checksum = s.checksum)

/-- Who writes the arrays, the tree and the flags (rules R23, R32 to R37): the frame of every command on
`CNT`, `CODE`, `DEPTH_OVF`, `NODE`, `WL`, `ROOT` and `TREE_VALID`. -/
def Obligations.TreeAndTableFrame : Prop :=
  ∀ (i : Instr) (s t : State), exec i s = .next t →
    (i ∉ [Instr.hist, .flist, .compress] → t.cnt = s.cnt) ∧
    (i ∉ [Instr.genCodes, .compress] → t.code = s.code ∧ t.depthOvf = s.depthOvf) ∧
    (i ∉ [Instr.flist, .buildTree, .rdTree, .compress, .decompress] →
      t.node = s.node ∧ t.wl = s.wl ∧ t.root = s.root ∧ t.treeValid = s.treeValid)

/-- Who writes the Bit Channel and the read position (rules R30, R51, R54 and R58): the frame of every
command on `BC_DIR`, `BC_CUR`, `BC_BUF` and `SRC_POS`. -/
def Obligations.ChannelAndPositionFrame : Prop :=
  ∀ (i : Instr) (s t : State), exec i s = .next t →
    (i ∉ [Instr.openRd, .openWr, .compress, .decompress] → t.bcDir = s.bcDir) ∧
    (i ∈ [Instr.nop, .rewind, .ldSize, .rdSize, .cntDistinct, .hist, .flist, .buildTree, .genCodes] →
      t.bcCur = s.bcCur ∧ t.bcBuf = s.bcBuf) ∧
    (i ∉ [Instr.rewind, .rdBit, .rdByte, .rdSize, .cntDistinct, .hist, .rdTree, .encode, .decode, .compress,
          .decompress] → t.srcPos = s.srcPos)

/-- What a fault leaves (rules R24, R250 and R262): a command that raises sets `FAULT` and writes in `CAUSE`
the code of one of the faults that rule R250 lists for it, without advancing `pc`; one that raises nothing
advances `pc` and writes neither. -/
def Obligations.FaultEntryWritesCause : Prop :=
  ∀ (i : Instr) (s t : State), exec i s = .next t →
    (t.pc = s.pc + 1 ∧ t.fault = s.fault ∧ t.cause = s.cause) ∨
    (t.pc = s.pc ∧ t.fault = true ∧ ∃ c ∈ mayRaise i, t.cause = c.code)

/-! ## Invariants -/

/-- The reset state of rule R42: every piece of state at its value. -/
def Obligations.ResetValues : Prop :=
  State.reset.fault = false ∧ State.reset.treeValid = false ∧ State.reset.depthOvf = false ∧
  State.reset.statusWord = 0 ∧ State.reset.cause = 0 ∧ State.reset.res = 0 ∧ State.reset.distinct = 0 ∧
  State.reset.size = 0 ∧ State.reset.checksum = 0 ∧ State.reset.src = [] ∧ State.reset.srcLen = 0 ∧
  State.reset.srcPos = 0 ∧ State.reset.snk = [] ∧ State.reset.snkLen = 0 ∧ State.reset.bcDir = .closed ∧
  State.reset.bcCur = 0 ∧ State.reset.bcBuf = 0 ∧ (∀ x, State.reset.cnt.get x = 0) ∧
  State.reset.node = [] ∧ State.reset.nodeCnt = 0 ∧ State.reset.wl = [] ∧ State.reset.wlLen = 0 ∧
  State.reset.root = 0 ∧ (∀ x, State.reset.code.get x = ⟨false, 0, 0⟩) ∧ State.reset.pc = 0

/-- The reset state meets every invariant. -/
def Obligations.ResetIsLegal : Prop := Legal State.reset

/-- Every step keeps the stores canonical and full, `SRC_POS` within SRC and SNK within `SNK_CAP` (rules
R29, R51, R56 and R57). -/
def Obligations.StepKeepsStores : Prop := ∀ s t : State, StoresWf s → step s = .next t → StoresWf t

/-- Every step keeps the meaning of the channel's buffer (rules R31 and R124). -/
def Obligations.StepKeepsChannel : Prop := ∀ s t : State, ChannelWf s → step s = .next t → ChannelWf t

/-- Every step keeps rule R36: while `TREE_VALID = 1`, `tree(ROOT)` is a finite tree of the arena that
reaches no node twice; and the arena and the work list stay in their bounds (rules R33 to R35). -/
def Obligations.StepKeepsTree : Prop := ∀ s t : State, TreeWf s → step s = .next t → TreeWf t

/-- Every step keeps the counts and weights below 2^64 in sum, the work list sorted and its weights nonzero
(rules R32, R34, R148, R167 and R168). -/
def Obligations.StepKeepsCounts : Prop :=
  ∀ s t : State, StoresWf s → CountsWf s → step s = .next t → CountsWf t

/-- Every state that host moves and steps reach from reset is legal, and the sequencer executes an issued word
before the host's next operation (rule R74): in a run that is not faulted at most one word waits, and while one
waits the host has no move. -/
def Obligations.ReachableStatesAreLegal : Prop :=
  ∀ s : State, Reachable s →
    Legal s ∧ (s.fault = false → s.prog.length ≤ s.pc + 1) ∧
    (s.fault = false → s.pc < s.prog.length → s.prog.length = s.pc + 1 ∧ ∀ t, ¬ HostMove s t)

/-- Every command completes or faults (rules R8 and R103): where the stores and the tree are as the
invariants say, no command is stuck, so a step that may happen does. -/
def Obligations.CommandsNeverGetStuck : Prop :=
  ∀ (i : Instr) (s : State), StoresWf s → TreeWf s → ∃ t, exec i s = .next t

/-! ## Control commands -/

/-- NOP, REWIND and LD_SIZE (rules R100 to R102), in every state: their one word each; NOP writes nothing
but `pc`, REWIND makes `SRC_POS` 0 and LD_SIZE makes `SIZE` the number of bytes of SRC, and nothing else is
written. -/
def Obligations.ControlCommandResults : Prop :=
  (∀ w, Sys2Proof.decode w = .ok .nop ↔ w = 0x0000) ∧
  (∀ w, Sys2Proof.decode w = .ok .rewind ↔ w = 0x0100) ∧
  (∀ w, Sys2Proof.decode w = .ok .ldSize ↔ w = 0x0200) ∧
  ∀ s : State,
    exec .nop s = .next { s with pc := s.pc + 1 } ∧
    exec .rewind s = .next { s with srcPos := 0, pc := s.pc + 1 } ∧
    exec .ldSize s = .next { s with size := BitVec.ofNat 64 s.src.length, pc := s.pc + 1 }

/-! ## Bit Channel commands (41_bit_channel.md) -/

/-- OPEN_RD and OPEN_WR (rules R114 and R115): their one word each; the direction set, cursor and buffer zero, in every state;
pending bits are lost, and SNK and `SRC_POS` stay. -/
def Obligations.OpenResult : Prop :=
  (∀ w, Sys2Proof.decode w = .ok .openRd ↔ w = 0x1000) ∧
  (∀ w, Sys2Proof.decode w = .ok .openWr ↔ w = 0x1100) ∧
  ∀ s : State,
    exec .openRd s = .next { s with bcDir := .rd, bcCur := 0, bcBuf := 0, pc := s.pc + 1 } ∧
    exec .openWr s = .next { s with bcDir := .wr, bcCur := 0, bcBuf := 0, pc := s.pc + 1 }

/-- RD_BIT (rules R110 and R116): with bits pending the next of them; at cursor 0 the top bit of the next
byte of SRC; at the end of SRC `E_EOF` with nothing else changed. -/
def Obligations.RdBitResult : Prop :=
  ∀ s : State, StoresWf s → s.bcDir = .rd →
    (s.bcCur ≠ 0 →
      exec .rdBit s = .next
        { s with res := zext8 (s.bcBuf.getLsbD (7 - s.bcCur.toNat)), bcCur := s.bcCur + 1, pc := s.pc + 1 }) ∧
    (∀ b, s.bcCur = 0 → s.src.read s.srcPos.toNat = some b →
      exec .rdBit s = .next
        { s with res := zext8 (b.getLsbD 7), bcBuf := b, bcCur := 1, srcPos := s.srcPos + 1, pc := s.pc + 1 }) ∧
    (s.bcCur = 0 → s.srcPos = s.srcLen → exec .rdBit s = .next { s with fault := true, cause := 1 })

/-- RD_BYTE (rules R111 and R117): `RES` is the next byte of SRC, or with `BC_CUR = c > 0` the bits
`old BC_BUF[7-c:0] ++ next byte[7:8-c]`; `BC_CUR` stays and `BC_BUF` is the next byte. It faults exactly
when SRC is exhausted on entry, with the pending bits consumed and `RES` kept. -/
def Obligations.RdByteResult : Prop :=
  ∀ s : State, StoresWf s → s.bcDir = .rd →
    (∀ b, s.src.read s.srcPos.toNat = some b →
      exec .rdByte s = .next
        { s with
          res := if s.bcCur = 0 then b else (s.bcBuf <<< s.bcCur.toNat) ||| (b >>> (8 - s.bcCur.toNat))
          bcBuf := b, srcPos := s.srcPos + 1, pc := s.pc + 1 }) ∧
    (s.srcPos = s.srcLen → exec .rdByte s = .next { s with bcCur := 0, fault := true, cause := 1 })

/-- WR_BIT (rules R112 and R118): the bit is shifted in; the eighth appends the byte to SNK and leaves the
channel empty; `RES` is 1 exactly then. With SNK full the eighth bit faults with `E_IO`, `RES` kept. -/
def Obligations.WrBitResult : Prop :=
  ∀ (s : State) (b : Bool), s.snk.full → s.bcDir = .wr →
    (s.bcCur ≠ 7 →
      exec (.wrBit b) s = .next
        { s with bcBuf := (s.bcBuf <<< 1) ||| zext8 b, bcCur := s.bcCur + 1, res := 0, pc := s.pc + 1 }) ∧
    (s.bcCur = 7 → s.sinkFull = false →
      exec (.wrBit b) s = .next
        { s with
          snk := Memory.ofBytes (s.snk.bytes ++ [(s.bcBuf <<< 1) ||| zext8 b])
          bcBuf := 0, bcCur := 0, res := 1, pc := s.pc + 1 }) ∧
    (s.bcCur = 7 → s.sinkFull = true →
      exec (.wrBit b) s = .next
        { s with bcBuf := (s.bcBuf <<< 1) ||| zext8 b, bcCur := 0, fault := true, cause := 2 })

/-- WR_BYTE (rules R113 and R119): exactly one byte is appended, `old BC_BUF[c-1:0] ++ v[7:c]`, the new
`BC_BUF` is `v[c-1:0]`, and `BC_CUR` and `RES` stay. With SNK full it faults with `E_IO` at the emission. -/
def Obligations.WrByteResult : Prop :=
  ∀ (s : State) (v : Byte), s.snk.full → s.bcDir = .wr →
    (s.sinkFull = false →
      exec (.wrByte v) s = .next
        { s with
          snk := Memory.ofBytes (s.snk.bytes ++ [(s.bcBuf <<< (8 - s.bcCur.toNat)) ||| (v >>> s.bcCur.toNat)])
          bcBuf := v &&& BitVec.ofNat 8 (2 ^ s.bcCur.toNat - 1), pc := s.pc + 1 }) ∧
    (s.sinkFull = true →
      exec (.wrByte v) s = .next
        { s with
          bcBuf := (s.bcBuf <<< (8 - s.bcCur.toNat)) ||| (v >>> s.bcCur.toNat)
          bcCur := 0, fault := true, cause := 2 })

/-- FLUSH (rule R121): nothing at cursor 0; else one byte is appended, the pending bits and then zeros, and
the channel is empty. `RES` is not written. With SNK full it faults with `E_IO`. -/
def Obligations.FlushResult : Prop :=
  ∀ s : State, s.snk.full → s.bcDir = .wr →
    (s.bcCur = 0 → exec .flush s = .next { s with pc := s.pc + 1 }) ∧
    (s.bcCur ≠ 0 → s.sinkFull = false →
      exec .flush s = .next
        { s with
          snk := Memory.ofBytes (s.snk.bytes ++ [s.bcBuf <<< (8 - s.bcCur.toNat)])
          bcBuf := 0, bcCur := 0, pc := s.pc + 1 }) ∧
    (s.bcCur ≠ 0 → s.sinkFull = true →
      exec .flush s = .next
        { s with bcBuf := s.bcBuf <<< (8 - s.bcCur.toNat), bcCur := 0, fault := true, cause := 2 })

/-- RD_SIZE (rules R61 and R122): the eight raw bytes at `SRC_POS`, byte `i` in bits `8i+7` to `8i` of
`SIZE`; the channel is not touched. With fewer than eight left it faults with `E_HEADER`, nothing consumed. -/
def Obligations.RdSizeResult : Prop :=
  ∀ s : State, StoresWf s → s.bcDir = .rd →
    (s.srcPos.toNat + 8 ≤ s.src.length →
      ∃ v : Word64,
        (∀ i, i < 8 → s.src.read (s.srcPos.toNat + i) = some (v.extractLsb' (8 * i) 8)) ∧
        exec .rdSize s = .next { s with size := v, srcPos := s.srcPos + 8, pc := s.pc + 1 }) ∧
    (s.src.length < s.srcPos.toNat + 8 → exec .rdSize s = .next { s with fault := true, cause := 3 })

/-- WR_SIZE (rules R61 and R123): the eight bytes of `SIZE`, least significant first, follow the bits written
so far; `BC_CUR` ends as it began; only SNK and the buffer are written. At cursor 0 they are the eight bytes
appended. -/
def Obligations.WrSizeResult : Prop :=
  ∀ s : State, s.snk.full → s.bcDir = .wr → s.Room 8 →
    ∃ t : State, exec .wrSize s = .next t ∧
      t = { s with snk := t.snk, bcBuf := t.bcBuf, pc := s.pc + 1 } ∧ t.snk.full ∧
      t.snk.length = s.snk.length + 8 ∧
      t.outBits = s.outBits ++
        (List.range 8).flatMap (fun i => byteBits (s.size.extractLsb' (8 * i) 8)) ∧
      (s.bcCur = 0 →
        t.snk.bytes = s.snk.bytes ++ (List.range 8).map (fun i => s.size.extractLsb' (8 * i) 8))

/-- The law of the family (rule R125): what is written through `write_bit` from an open, empty channel and
then flushed is read back bit for bit, followed by zero bits to the byte boundary and then `E_EOF`. -/
def Obligations.WrittenBitsReadBack : Prop :=
  ∀ (s u : State) (bits : List Bool), s.snk = [] → s.bcDir = .wr → s.bcCur = 0 → s.bcBuf = 0 →
    s.snkCap = none → bits.length < 2 ^ 64 →
    ∃ t : State, ((writeBits bits).seq opFlush) s = .done () t ∧ t.snk.full ∧
      t.snk.length = (bits.length + 7) / 8 ∧
      (u.src = t.snk → u.srcPos = 0 → u.bcCur = 0 →
        u.inBits = bits ++ List.replicate ((8 - bits.length % 8) % 8) false ∧
        ∀ v : State, v.src = t.snk → v.srcPos = v.srcLen → v.bcCur = 0 → v.inBits = [] ∧
          readBit v = .raised .eof v)

/-- What `read_bit()` delivers is the first of the bits to come (rules R31 and R110): the meaning of
`State.inBits`, which the statements about reading rest on. -/
def Obligations.ReadBitDeliversInOrder : Prop :=
  ∀ s : State, StoresWf s →
    (∀ b rest, s.inBits = b :: rest → ∃ t : State, readBit s = .done b t ∧ t.inBits = rest ∧ StoresWf t ∧
      t = { s with bcCur := t.bcCur, bcBuf := t.bcBuf, srcPos := t.srcPos }) ∧
    (s.inBits = [] → readBit s = .raised .eof s)

/-- A command that uses the Bit Channel in the wrong direction faults with `E_DIR` before anything else, and
nothing else changes (rules R106 and R260). -/
def Obligations.WrongDirectionFaults : Prop :=
  ∀ (i : Instr) (s : State),
    (i ∈ [Instr.rdBit, .rdByte, .rdSize, .rdTree, .decode] → s.bcDir ≠ .rd →
      exec i s = .next { s with fault := true, cause := 8 }) ∧
    (((∃ b, i = .wrBit b) ∨ (∃ v, i = .wrByte v) ∨ i ∈ [Instr.flush, .wrSize, .wrTree, .encode]) →
      s.bcDir ≠ .wr → exec i s = .next { s with fault := true, cause := 8 })

/-- A command that walks the tree without a tree faults with `E_NOTREE` (cause 10), after `need_dir` where both
apply (`E_DIR` where the direction is wrong too), and nothing else changes (rules R107 and R260). -/
def Obligations.NoTreeFaults : Prop :=
  ∀ s : State, s.treeValid = false →
    exec .genCodes s = .next { s with fault := true, cause := 10 } ∧
    (s.bcDir = .wr → exec .wrTree s = .next { s with fault := true, cause := 10 }) ∧
    (s.bcDir = .rd → exec .decode s = .next { s with fault := true, cause := 10 }) ∧
    (s.bcDir ≠ .wr → exec .wrTree s = .next { s with fault := true, cause := 8 }) ∧
    (s.bcDir ≠ .rd → exec .decode s = .next { s with fault := true, cause := 8 })

/-! ## Frequency Model (42_frequency.md) -/

/-- CNT_DISTINCT (rule R140): `DISTINCT` is the number of distinct byte values from `SRC_POS` on, `SRC_POS`
is 0 after, and nothing else is written; it never faults. -/
def Obligations.CntDistinctResult : Prop :=
  ∀ s : State, StoresWf s →
    exec .cntDistinct s = .next
      { s with distinct := BitVec.ofNat 9 s.rest.dedup.length, srcPos := 0, pc := s.pc + 1 }

/-- HIST (rule R143): each `CNT[x]` is the number of times `x` occurs from `SRC_POS` on, whatever `CNT` held;
`SRC_POS` is 0 after; nothing else is written; it never faults. -/
def Obligations.HistResult : Prop :=
  ∀ s : State, StoresWf s →
    ∃ t : State, exec .hist s = .next t ∧ t = { s with cnt := t.cnt, srcPos := 0, pc := s.pc + 1 } ∧
      ∀ x, (t.cnt.get x).toNat = s.rest.count x

/-- FLIST (rules R146 and R147), in every state: the symbols with a nonzero count, in the order of the pair
(count, symbol), are the Leaves 0, 1, 2, ... and the items over them with their counts; every count is 0
after; `ROOT` and `TREE_VALID` are 0; nothing else is written. -/
def Obligations.FlistResult : Prop :=
  ∀ s : State, ∃ (syms : List Byte) (t : State),
    (∀ x, x ∈ syms ↔ s.cnt.get x ≠ 0) ∧
    syms.Pairwise (fun x y => s.cnt.get x < s.cnt.get y ∨ (s.cnt.get x = s.cnt.get y ∧ x < y)) ∧
    exec .flist s = .next t ∧
    t = { s with
          node := syms.map Node.leaf
          wl := syms.zipIdx.map fun p => ⟨s.cnt.get p.1, BitVec.ofNat 9 p.2⟩
          cnt := t.cnt, root := 0, treeValid := false, pc := s.pc + 1 } ∧
    ∀ x, t.cnt.get x = 0

/-! ## Tree Builder (43_tree_builder.md) -/

/-- The insertion of rule R162 into a sorted list: after every item whose weight is less than or equal to
the new one's, before every heavier one; the list stays sorted (rule R167). -/
def Obligations.InsertionIsStable : Prop :=
  ∀ (wl : List WorkItem) (x : WorkItem), (wl.Pairwise fun a b => a.w ≤ b.w) →
    insertItem wl x = (wl.filter fun k => decide (k.w ≤ x.w)) ++ x :: (wl.filter fun k => decide (x.w < k.w)) ∧
    (insertItem wl x).Pairwise fun a b => a.w ≤ b.w

/-- BUILD_TREE is the merger over a priority queue keyed by `(w, seq)` (rules R39, R161 and R164): on a
sorted, non-empty work list it completes with the arena, the root and the checksum the queue gives, the list
empty and `TREE_VALID` set, and nothing else written; on an empty one it faults with `E_EMPTY` and nothing
else changes (rule R160). -/
def Obligations.BuildTreeIsPriorityQueue : Prop :=
  ∀ s : State,
   (s.wl = [] → exec .buildTree s = .next { s with fault := true, cause := 4 }) ∧
   (s.wl ≠ [] → (s.wl.Pairwise fun a b => a.w ≤ b.w) →
    ∃ r nodes, pqBuild s.wl.length (pqOf s.wl) s.wl.length s.node = some (r, nodes) ∧
      exec .buildTree s = .next
        { s with
          node := nodes, wl := [], root := r.n, checksum := r.w, treeValid := true, pc := s.pc + 1 })

/-- What BUILD_TREE makes of FLIST's list (rules R163, R165 and R166): `k` items give `2k - 1` nodes, the
Leaves first and unchanged; the root is the last of them; `CHECKSUM` is the sum of the weights; the tree's
Leaves are the symbols of the list. -/
def Obligations.BuildTreeNumbersAndSums : Prop :=
  ∀ s t : State, s.wl ≠ [] → TreeWf s → CountsWf s → exec .buildTree s = .next t →
    t.node.length = 2 * s.wl.length - 1 ∧ t.node.take s.wl.length = s.node ∧
    t.root.toNat = 2 * s.wl.length - 2 ∧
    t.checksum.toNat = (s.wl.map fun x => x.w.toNat).sum ∧
    ∃ tr, t.tree = some tr ∧ (tr.symbols.map Node.leaf).Perm s.node

/-! ## Code Generator (44_code_generator.md) -/

/-- GEN_CODES (rules R180 to R183 and R185): each symbol's entry is the path of its last Leaf at depth 30 or
less, or invalid; `DEPTH_OVF` says whether a Leaf is deeper than 30; no fault; nothing else is written. -/
def Obligations.GenCodesResult : Prop :=
  ∀ (s : State) (tr : Tree), s.treeValid = true → s.tree = some tr →
    ∃ t : State, exec .genCodes s = .next t ∧
      t = { s with code := t.code, depthOvf := t.depthOvf, pc := s.pc + 1 } ∧
      (∀ x, t.code.get x = tr.codeEntry x) ∧
      (t.depthOvf = true ↔ ∃ p ∈ tr.leaves, 30 < p.1.length)

/-- The codes are paths in the layout of rule R38, and prefix-free (rule R184): with no Leaf deeper than 30
and no symbol twice, the bits ENCODE emits for a Leaf's symbol are the Leaf's path, every other symbol has no
code, and no symbol's bits begin another's. -/
def Obligations.CodesArePrefixFree : Prop :=
  ∀ tr : Tree, tr.symbols.Nodup → (∀ p ∈ tr.leaves, p.1.length ≤ 30) →
    (∀ p ∈ tr.leaves, (tr.codeEntry p.2).valid = true ∧ (tr.codeEntry p.2).emitted = p.1) ∧
    (∀ x, x ∉ tr.symbols → tr.codeEntry x = ⟨false, 0, 0⟩) ∧
    ∀ x ∈ tr.symbols, ∀ y ∈ tr.symbols, x ≠ y →
      ¬ (tr.codeEntry x).emitted <+: (tr.codeEntry y).emitted

/-! ## Tree Serializer and Deserializer (45_tree_serdes.md) -/

/-- WR_TREE (rule R195): the bits `ser(tree(ROOT))` follow the bits written so far, in pre-order, without a
flush; they are `10L - 1` for `L` Leaves (rule R65); only SNK and the channel are written. -/
def Obligations.WrTreeResult : Prop :=
  ∀ (s : State) (tr : Tree), s.snk.full → s.bcDir = .wr → s.treeValid = true → s.tree = some tr →
    s.Room ((s.bcCur.toNat + tr.ser.length) / 8) →
    tr.ser.length = 10 * tr.leaves.length - 1 ∧
    ∃ t : State, exec .wrTree s = .next t ∧
      t = { s with snk := t.snk, bcCur := t.bcCur, bcBuf := t.bcBuf, pc := s.pc + 1 } ∧ t.snk.full ∧
      t.outBits = s.outBits ++ tr.ser

/-- RD_TREE inverts WR_TREE (rules R200 to R202): where the bits to come begin with `ser(T)`, `T` of at most
511 nodes, it consumes exactly those bits and leaves `tree(ROOT) = T`, numbered in pre-order from node 0, the
work list empty, and nothing else written. -/
def Obligations.RdTreeInvertsWrTree : Prop :=
  ∀ (s : State) (tr : Tree) (rest : List Bool), StoresWf s → s.bcDir = .rd → s.inBits = tr.ser ++ rest →
    tr.leaves.length ≤ 256 →
    ∃ t : State, exec .rdTree s = .next t ∧ t.inBits = rest ∧ t.tree = some tr ∧
      t = { s with
            node := tr.preorder 0, wl := [], root := 0, treeValid := true,
            bcCur := t.bcCur, bcBuf := t.bcBuf, srcPos := t.srcPos, pc := s.pc + 1 }

/-- RD_TREE on any other stream (rules R200, R203 and R204): it faults, with `E_EOF` or `E_TREE_OVF` and no
valid tree; and it completes only where the bits to come begin with a tree. -/
def Obligations.RdTreeFaultsOffGrammar : Prop :=
  ∀ (s t : State), StoresWf s → s.bcDir = .rd → s.fault = false → exec .rdTree s = .next t →
    (t.fault = true → (t.cause = 1 ∨ t.cause = 9) ∧ t.treeValid = false ∧ t.wl = [] ∧ t.root = 0) ∧
    (t.fault = false → ∃ tr rest, s.inBits = tr.ser ++ rest ∧ t.tree = some tr ∧ tr.leaves.length ≤ 256)

/-! ## Stream Codec (46_stream_codec.md) -/

/-- ENCODE (rule R215): where every byte from `SRC_POS` on has a code, the codes' bits follow the bits written
so far, first direction first, `SRC_POS` is at the end, and only SNK and the channel are written besides. -/
def Obligations.EncodeResult : Prop :=
  ∀ s : State, StoresWf s → s.bcDir = .wr → (∀ b ∈ s.rest, (s.code.get b).valid = true) →
    s.Room ((s.bcCur.toNat + (s.rest.flatMap fun b => (s.code.get b).emitted).length) / 8) →
    ∃ t : State, exec .encode s = .next t ∧
      t = { s with
            snk := t.snk, bcCur := t.bcCur, bcBuf := t.bcBuf, srcPos := s.srcLen, pc := s.pc + 1 } ∧
      t.snk.full ∧
      t.outBits = s.outBits ++ s.rest.flatMap fun b => (s.code.get b).emitted

/-- A full sink (rules R57 and R250): WR_SIZE, WR_TREE, ENCODE and DECODE whose output does not fit in what
`SNK_CAP` leaves fault with `E_IO`, SNK filled to its capacity and what it held before still in front; FLUSH,
WR_BIT and WR_BYTE at a full sink are in their own statements. -/
def Obligations.FullSinkFaults : Prop :=
  ∀ (s : State) (tr : Tree) (cap : Word64), StoresWf s → s.snkCap = some cap →
    let stops := fun i => ∃ (t : State) (bs : List Byte), exec i s = .next t ∧ t.fault = true ∧ t.cause = 2 ∧
      t.pc = s.pc ∧ t.snk.length = cap.toNat ∧ t.snk.bytes = s.snk.bytes ++ bs
    (s.bcDir = .wr → ¬ s.Room 8 → stops .wrSize) ∧
    (s.bcDir = .wr → s.treeValid = true → s.tree = some tr →
      ¬ s.Room ((s.bcCur.toNat + tr.ser.length) / 8) → stops .wrTree) ∧
    (s.bcDir = .wr → (∀ b ∈ s.rest, (s.code.get b).valid = true) →
      ¬ s.Room ((s.bcCur.toNat + (s.rest.flatMap fun b => (s.code.get b).emitted).length) / 8) →
      stops .encode) ∧
    (∀ (ls : List (List Bool × Byte)) (rest : List Bool), s.bcDir = .rd → s.treeValid = true →
      s.tree = some tr → (∀ p ∈ ls, p ∈ tr.leaves) → s.inBits = ls.flatMap Prod.fst ++ rest →
      ls.length = s.size.toNat → ¬ s.Room ls.length → stops .decode)

/-- The size law of ENCODE (rule R216): with `P` the sum of the lengths of the codes of the bytes scanned and
`c` the cursor on entry, SNK grows by `floor((c + P) / 8)` bytes and `BC_CUR` ends as `(c + P) mod 8`. -/
def Obligations.EncodeSizeLaw : Prop :=
  ∀ s t : State, StoresWf s → s.bcDir = .wr → exec .encode s = .next t → t.pc = s.pc + 1 →
    let p := (s.rest.map fun b => (s.code.get b).len.toNat).sum
    t.snk.length = s.snk.length + (s.bcCur.toNat + p) / 8 ∧ t.bcCur.toNat = (s.bcCur.toNat + p) % 8

/-- ENCODE at a byte without a code (rule R215): it faults with `E_NOCODE` (cause 6), the byte consumed and
every earlier byte's code written. -/
def Obligations.EncodeRejectsUncodedByte : Prop :=
  ∀ (s : State) (pre post : List Byte) (b : Byte), StoresWf s → s.bcDir = .wr →
    s.rest = pre ++ b :: post → (∀ x ∈ pre, (s.code.get x).valid = true) → (s.code.get b).valid = false →
    s.Room ((s.bcCur.toNat + (pre.flatMap fun x => (s.code.get x).emitted).length) / 8) →
    ∃ t : State, exec .encode s = .next t ∧
      t = { s with
            snk := t.snk, bcCur := t.bcCur, bcBuf := t.bcBuf,
            srcPos := s.srcPos + BitVec.ofNat 64 (pre.length + 1), fault := true, cause := 6 } ∧
      t.outBits = s.outBits ++ pre.flatMap fun x => (s.code.get x).emitted

/-- DECODE (rules R220, R221 and R223): where the bits to come begin with the paths of `SIZE` Leaves, their
symbols are appended to SNK as raw bytes and exactly those bits are consumed; only SNK, the channel and
`SRC_POS` are written. A single-Leaf tree has the empty path, so it consumes nothing. Where the bits end
inside the path of a Leaf before `SIZE` symbols are decoded, it faults with `E_EOF`, every bit consumed and
the symbols decoded so far in SNK. -/
def Obligations.DecodeResult : Prop :=
  ∀ (s : State) (tr : Tree) (ls : List (List Bool × Byte)) (rest : List Bool), StoresWf s →
    s.bcDir = .rd → s.treeValid = true → s.tree = some tr → (∀ p ∈ ls, p ∈ tr.leaves) →
    s.inBits = ls.flatMap Prod.fst ++ rest → s.Room ls.length →
    (ls.length = s.size.toNat →
      ∃ t : State, exec .decode s = .next t ∧ t.inBits = rest ∧
        t = { s with
              snk := Memory.ofBytes (s.snk.bytes ++ ls.map Prod.snd)
              bcCur := t.bcCur, bcBuf := t.bcBuf, srcPos := t.srcPos, pc := s.pc + 1 }) ∧
    (ls.length < s.size.toNat → (∀ p ∈ tr.leaves, ¬ p.1 <+: rest) →
      ∃ t : State, exec .decode s = .next t ∧
        t = { s with
              snk := Memory.ofBytes (s.snk.bytes ++ ls.map Prod.snd)
              bcCur := 0, bcBuf := t.bcBuf, srcPos := s.srcLen, fault := true, cause := 1 })

/-- `SIZE = 0` (rule R222): the loop does not run; nothing is read or written. -/
def Obligations.DecodeOfNothing : Prop :=
  ∀ (s : State) (tr : Tree), s.bcDir = .rd → s.treeValid = true → s.tree = some tr → s.size = 0 →
    exec .decode s = .next { s with pc := s.pc + 1 }

/-! ## Whole-file commands (47_macros.md) -/

/-- COMPRESS and its spelled-out program of eleven commands, and DECOMPRESS and its program of five, reach
the same state but for `pc`, or fault with the same cause in the same state; the checksum test that only
COMPRESS makes cannot fail (rule R238). -/
def Obligations.MacrosEqualTheirPrograms : Prop :=
  ∀ s : State, StoresWf s → s.fault = false →
    SameButPc (exec .compress s)
      (runInstrs [.rewind, .openWr, .hist, .flist, .buildTree, .genCodes, .ldSize, .wrSize, .wrTree, .encode,
        .flush] s) ∧
    SameButPc (exec .decompress s) (runInstrs [.rewind, .openRd, .rdSize, .rdTree, .decode] s)

/-- COMPRESS of a non-empty source (rules R148, R165 and R235): its first five commands complete with a tree
whose Leaves are the distinct bytes of SRC, each once, and `CHECKSUM = SRC_LEN`, so that `E_CHECKSUM` is never
raised. With at most 31 distinct bytes no Leaf is deeper than 30, so that under the unbounded `SNK_CAP` the whole
command completes, and SNK grows by the stream of rule R65. -/
def Obligations.CompressBuildsTheTree : Prop :=
  ∀ s : State, StoresWf s → s.src ≠ [] →
    ∃ (b : State) (tr : Tree), compressFront s = .done () b ∧ b.treeValid = true ∧ b.tree = some tr ∧
      tr.symbols.Nodup ∧ (∀ x, x ∈ tr.symbols ↔ x ∈ s.src.bytes) ∧ b.checksum = s.srcLen ∧
      (s.src.bytes.dedup.length ≤ 31 → s.snkCap = none →
        ∃ t : State, exec .compress s = .next t ∧ t.pc = s.pc + 1 ∧ t.fault = s.fault ∧
          t.snk = Memory.ofBytes (s.snk.bytes ++ stream tr s.src.bytes))

/-- COMPRESS (rules R65 and R235): where the tree is at most 30 deep and SNK has room, SNK grows by one
complete compressed stream, and the registers are as the rule says on completion. -/
def Obligations.CompressWritesTheStream : Prop :=
  ∀ (s b : State) (tr : Tree), StoresWf s → s.src ≠ [] → compressFront s = .done () b → b.tree = some tr →
    (∀ p ∈ tr.leaves, p.1.length ≤ 30) → s.Room (stream tr s.src.bytes).length →
    ∃ t : State, exec .compress s = .next t ∧
      t = { s with
            snk := Memory.ofBytes (s.snk.bytes ++ stream tr s.src.bytes)
            size := s.srcLen, checksum := s.srcLen, srcPos := s.srcLen, bcDir := .wr, bcCur := 0, bcBuf := 0,
            treeValid := true, depthOvf := false, wl := [], cnt := t.cnt, node := t.node, root := t.root,
            code := t.code, pc := s.pc + 1 } ∧
      t.tree = some tr ∧ (∀ x, t.cnt.get x = 0) ∧ ∀ x, t.code.get x = tr.codeEntry x

/-- COMPRESS of an empty source is rejected with `E_EMPTY`, and SNK is not written (rules R160 and R235). -/
def Obligations.CompressRejectsEmptySource : Prop :=
  ∀ s : State, s.src = [] →
    ∃ t : State, exec .compress s = .next t ∧ t.fault = true ∧ t.cause = 4 ∧ t.pc = s.pc ∧ t.snk = s.snk ∧
      t.bcDir = .wr ∧ t.size = s.size ∧ t.checksum = s.checksum ∧ t.treeValid = false

/-- DECOMPRESS (rules R64 to R66 and R236): on a stream of header, tree, the paths of as many Leaves as the
header says, and any bits after, SNK grows by the Leaves' symbols; `CHECKSUM`, `CODE`, `CNT`, `RES`,
`DISTINCT` and `DEPTH_OVF` stay. -/
def Obligations.DecompressResult : Prop :=
  ∀ (s : State) (n : Word64) (tr : Tree) (ls : List (List Bool × Byte)) (body : List Byte) (rest : List Bool),
    StoresWf s → s.src.bytes = sizeHeader n ++ body →
    body.flatMap byteBits = tr.ser ++ (ls.flatMap Prod.fst ++ rest) → tr.leaves.length ≤ 256 →
    (∀ p ∈ ls, p ∈ tr.leaves) → ls.length = n.toNat → s.Room ls.length →
    ∃ t : State, exec .decompress s = .next t ∧ t.tree = some tr ∧ t.inBits = rest ∧
      t = { s with
            snk := Memory.ofBytes (s.snk.bytes ++ ls.map Prod.snd), size := n
            bcDir := .rd, bcCur := t.bcCur, bcBuf := t.bcBuf, srcPos := t.srcPos
            node := tr.preorder 0, wl := [], root := 0, treeValid := true, pc := s.pc + 1 }

/-- The round-trip law (rule R224): a non-empty file that COMPRESS completes on, DECOMPRESS restores. -/
def Obligations.RoundTrip : Prop :=
  ∀ s t u : State, StoresWf s → s.src ≠ [] → s.snk = [] → s.fault = false → exec .compress s = .next t →
    t.fault = false →
    StoresWf u → u.src = t.snk → u.snk = [] → u.fault = false → u.Room s.src.length →
    ∃ v : State, exec .decompress u = .next v ∧ v.fault = false ∧ v.snk = s.src

/-! ## The host (20_memory.md rules R70 to R75; 10_state.md rules R40 and R41) -/

/-- A read that names nothing returns 0 (rule R41): the unassigned numbers, and `NODE[i]` from `NODE_CNT` on. -/
def Obligations.UnassignedRegistersReadZero : Prop :=
  ∀ (s : State) (n : Nat),
    ((0x00D ≤ n ∧ n < 0x100) ∨ (0x200 ≤ n ∧ n < 0x400) ∨ n = 0x5FF ∨ 0x700 ≤ n → s.hReadReg n = 0) ∧
    (∀ i, s.nodeCnt ≤ i → i < 511 → s.hReadReg (0x400 + i) = 0)

/-- The registers (rule R40): every number reads the named field in the low bits, zeros above. -/
def Obligations.RegistersReadTheirFields : Prop :=
  ∀ s : State,
    (s.hReadReg 0x000).toNat = s.fault.toNat + 2 * s.treeValid.toNat + 4 * s.depthOvf.toNat ∧
    (s.hReadReg 0x001).toNat = s.cause.toNat ∧
    (s.hReadReg 0x002).toNat = s.res.toNat ∧ (s.hReadReg 0x003).toNat = s.distinct.toNat ∧
    s.hReadReg 0x004 = s.size ∧ s.hReadReg 0x005 = s.checksum ∧
    (s.src.length < 2 ^ 64 → (s.hReadReg 0x006).toNat = s.src.length) ∧ s.hReadReg 0x007 = s.srcPos ∧
    (s.snk.length < 2 ^ 64 → (s.hReadReg 0x008).toNat = s.snk.length) ∧
    (s.hReadReg 0x009).toNat = s.bcDir.code.toNat * 2048 + s.bcCur.toNat * 256 + s.bcBuf.toNat ∧
    (s.wl.length ≤ 256 → (s.hReadReg 0x00A).toNat = s.wl.length) ∧
    (s.node.length ≤ 511 → (s.hReadReg 0x00B).toNat = s.node.length) ∧
    (s.hReadReg 0x00C).toNat = s.root.toNat ∧
    (∀ x : Byte, s.hReadReg (0x100 + x.toNat) = s.cnt.get x) ∧
    (∀ (i : Nat) (x : Byte), i < 511 → s.node[i]? = some (.leaf x) →
      (s.hReadReg (0x400 + i)).toNat = x.toNat * 2 ^ 18) ∧
    (∀ (i : Nat) (l r : NodeIx), i < 511 → s.node[i]? = some (.branch l r) →
      (s.hReadReg (0x400 + i)).toNat = 2 ^ 26 + l.toNat * 2 ^ 9 + r.toNat) ∧
    (∀ x : Byte, (s.hReadReg (0x600 + x.toNat)).toNat =
      (s.code.get x).valid.toNat * 2 ^ 35 + (s.code.get x).len.toNat * 2 ^ 30 + (s.code.get x).bits.toNat)
end

