-- ==== Sys2Proof/Laws/Memory.lean ====
section
/-! SUPPORT. The laws of the byte stores: read after write, the canonical form, and that a full store is a
sequence of bytes which appending at its length extends. -/

namespace Sys2Proof.Machine

@[simp] theorem read_nil (a : Nat) : Memory.read [] a = none := rfl

theorem read_cons (k : Nat) (b : Byte) (m : Memory) (a : Nat) :
    Memory.read ((k, b) :: m) a = if k = a then some b else Memory.read m a := rfl

/-- Read after write. -/
theorem read_write (m : Memory) (a : Nat) (v : Byte) (x : Nat) :
    (m.write a v).read x = if x = a then some v else m.read x := by
  induction m with
  | nil =>
    by_cases h : x = a
    · simp [Memory.write, read_cons, h]
    · simp [Memory.write, read_cons, h, Ne.symm h]
  | cons c m ih =>
    obtain ⟨k, b⟩ := c
    simp only [Memory.write]
    split_ifs with h1 h2 <;> simp only [read_cons, ih] <;> split_ifs <;> first | rfl | omega

theorem mem_write (m : Memory) (a : Nat) (v : Byte) (c : Host.Cell) (h : c ∈ m.write a v) :
    c.1 = a ∨ c ∈ m := by
  induction m with
  | nil => simp only [Memory.write, List.mem_singleton] at h; simp [h]
  | cons d m ih =>
    obtain ⟨k, b⟩ := d
    simp only [Memory.write] at h
    split_ifs at h with h1 h2
    · rcases List.mem_cons.1 h with rfl | h
      · exact .inl rfl
      · exact .inr h
    · rcases List.mem_cons.1 h with rfl | h
      · exact .inl h2.symm
      · exact .inr (List.mem_cons_of_mem _ h)
    · rcases List.mem_cons.1 h with rfl | h
      · exact .inr List.mem_cons_self
      · exact (ih h).imp id (List.mem_cons_of_mem _)

/-- A write keeps the canonical form. -/
theorem wf_write {m : Memory} (h : m.wf) (a : Nat) (v : Byte) : (m.write a v).wf := by
  induction m with
  | nil => simp [Memory.write, Memory.wf]
  | cons d m ih =>
    obtain ⟨k, b⟩ := d
    obtain ⟨h1, h2⟩ := List.pairwise_cons.1 h
    simp only [Memory.write]
    split_ifs with ha hk
    · refine List.pairwise_cons.2 ⟨fun c hc => ?_, h⟩
      rcases List.mem_cons.1 hc with rfl | hc
      · exact ha
      · exact lt_trans ha (h1 c hc)
    · exact List.pairwise_cons.2 ⟨h1, h2⟩
    · refine List.pairwise_cons.2 ⟨fun c hc => ?_, ih h2⟩
      rcases mem_write m a v c hc with h3 | h3
      · simp only [h3]; omega
      · exact h1 c h3

theorem wf_nil : Memory.wf [] := List.Pairwise.nil

@[simp] theorem map_fst_ofBytesFrom (a : Nat) (bs : List Byte) :
    (Memory.ofBytesFrom a bs).map Prod.fst = List.range' a bs.length := by
  induction bs generalizing a with
  | nil => rfl
  | cons b bs ih => simp [Memory.ofBytesFrom, ih, List.range'_succ]

@[simp] theorem bytes_ofBytesFrom (a : Nat) (bs : List Byte) : (Memory.ofBytesFrom a bs).bytes = bs := by
  induction bs generalizing a with
  | nil => rfl
  | cons b bs ih => simpa [Memory.ofBytesFrom, Memory.bytes] using ih (a + 1)

@[simp] theorem length_ofBytesFrom (a : Nat) (bs : List Byte) : (Memory.ofBytesFrom a bs).length = bs.length := by
  induction bs generalizing a with
  | nil => rfl
  | cons b bs ih => simp [Memory.ofBytesFrom, ih]

@[simp] theorem bytes_ofBytes (bs : List Byte) : (Memory.ofBytes bs).bytes = bs := bytes_ofBytesFrom 0 bs

@[simp] theorem length_ofBytes (bs : List Byte) : (Memory.ofBytes bs).length = bs.length := length_ofBytesFrom 0 bs

@[simp] theorem length_bytes (m : Memory) : m.bytes.length = m.length := List.length_map _

theorem full_ofBytes (bs : List Byte) : (Memory.ofBytes bs).full := by
  simp [Memory.full, Memory.ofBytes, List.range_eq_range']

theorem full_nil : Memory.full [] := rfl

theorem ofBytesFrom_of_fst {m : Memory} {a : Nat} (h : m.map Prod.fst = List.range' a m.length) :
    m = Memory.ofBytesFrom a m.bytes := by
  induction m generalizing a with
  | nil => rfl
  | cons c m ih =>
    obtain ⟨k, b⟩ := c
    simp only [List.map_cons, List.length_cons, List.range'_succ, List.cons.injEq] at h
    obtain ⟨rfl, h⟩ := h
    simp only [Memory.bytes, List.map_cons, Memory.ofBytesFrom, List.cons.injEq, true_and]
    exact ih h

/-- A full store is the store of its bytes. -/
theorem Memory.full.eq_ofBytes {m : Memory} (h : m.full) : m = Memory.ofBytes m.bytes :=
  ofBytesFrom_of_fst (by rw [← List.range_eq_range']; exact h)

/-- Two full stores with the same bytes are the same store. -/
theorem Memory.full.ext {m n : Memory} (hm : m.full) (hn : n.full) (h : m.bytes = n.bytes) : m = n := by
  rw [hm.eq_ofBytes, hn.eq_ofBytes, h]

/-- A full store is in canonical form. -/
theorem Memory.full.wf {m : Memory} (h : m.full) : m.wf := by
  have h1 : (m.map Prod.fst).Pairwise (· < ·) := by rw [h]; exact List.pairwise_lt_range
  exact List.pairwise_map.1 h1

theorem read_ofBytesFrom (a : Nat) (bs : List Byte) (x : Nat) :
    (Memory.ofBytesFrom a bs).read x = if a ≤ x then bs[x - a]? else none := by
  induction bs generalizing a with
  | nil => simp [Memory.ofBytesFrom]
  | cons b bs ih =>
    simp only [Memory.ofBytesFrom, read_cons, ih]
    by_cases h : a = x
    · simp [h]
    · rw [if_neg h]
      by_cases h2 : a ≤ x
      · obtain ⟨d, hd⟩ : ∃ d, x - a = d + 1 := ⟨x - a - 1, by omega⟩
        have h3 : x - (a + 1) = d := by omega
        rw [if_pos h2, if_pos (by omega), hd, h3, List.getElem?_cons_succ]
      · rw [if_neg h2, if_neg (by omega)]

/-- Reading a full store is indexing its bytes. -/
theorem Memory.full.read {m : Memory} (h : m.full) (x : Nat) : m.read x = m.bytes[x]? := by
  conv_lhs => rw [h.eq_ofBytes]
  simp [Memory.ofBytes, read_ofBytesFrom]

theorem write_ofBytesFrom_end (a : Nat) (bs : List Byte) (v : Byte) :
    (Memory.ofBytesFrom a bs).write (a + bs.length) v = Memory.ofBytesFrom a (bs ++ [v]) := by
  induction bs generalizing a with
  | nil => rfl
  | cons b bs ih =>
    have h := ih (a + 1)
    rw [show a + 1 + bs.length = a + (b :: bs).length by simp; omega] at h
    simp only [Memory.ofBytesFrom, Memory.write, List.cons_append]
    rw [if_neg (by omega), if_neg (by simp), h]

/-- Appending at the length of a full store: the store of the longer sequence (rule R57). -/
theorem Memory.full.write_length {m : Memory} (h : m.full) (v : Byte) :
    m.write m.length v = Memory.ofBytes (m.bytes ++ [v]) := by
  have h1 := write_ofBytesFrom_end 0 m.bytes v
  rw [Nat.zero_add, length_bytes] at h1
  conv_lhs => rw [show m.write m.length v = (Memory.ofBytesFrom 0 m.bytes).write m.length v from
    congrArg (fun x => Memory.write x m.length v) h.eq_ofBytes]
  exact h1

theorem Memory.full.append {m : Memory} (h : m.full) (v : Byte) : (m.write m.length v).full := by
  rw [h.write_length]; exact full_ofBytes _

theorem Memory.full.bytes_append {m : Memory} (h : m.full) (v : Byte) :
    (m.write m.length v).bytes = m.bytes ++ [v] := by
  rw [h.write_length, bytes_ofBytes]

theorem Memory.full.length_append {m : Memory} (h : m.full) (v : Byte) :
    (m.write m.length v).length = m.length + 1 := by
  rw [h.write_length, length_ofBytes]; simp

/-- `MemRead` of a full store. -/
theorem Memory.full.memRead {m : Memory} (h : m.full) (a n : Nat) (hn : a + n ≤ m.length) :
    memRead m a n = some ((m.bytes.drop a).take n) := by
  induction n generalizing a with
  | zero => simp [Machine.memRead]
  | succ n ih =>
    have ha : a < m.bytes.length := by rw [length_bytes]; omega
    simp only [Machine.memRead, h.read, List.getElem?_eq_getElem ha, ih (a + 1) (by omega)]
    rw [List.drop_eq_getElem_cons ha, List.take_succ_cons]

/-- Reset's memories are in canonical form. -/
theorem reset_memories_wf : State.reset.src.wf ∧ State.reset.snk.wf := ⟨wf_nil, wf_nil⟩

end Sys2Proof.Machine
end

