-- ==== Sys2Proof/Laws/State.lean ====
section
/-! SUPPORT. What each named update of the state does to each field: one lemma per field per update, true
by rfl, so that no later proof unfolds an update. -/

namespace Sys2Proof.Machine

/-! `State.takeFault` -/

@[simp] theorem takeFault_prog (s : State) (c : Cause) : (s.takeFault c).prog = s.prog := rfl
@[simp] theorem takeFault_pc (s : State) (c : Cause) : (s.takeFault c).pc = s.pc := rfl
@[simp] theorem takeFault_snkCap (s : State) (c : Cause) : (s.takeFault c).snkCap = s.snkCap := rfl
@[simp] theorem takeFault_fault (s : State) (c : Cause) : (s.takeFault c).fault = true := rfl
@[simp] theorem takeFault_treeValid (s : State) (c : Cause) : (s.takeFault c).treeValid = s.treeValid := rfl
@[simp] theorem takeFault_depthOvf (s : State) (c : Cause) : (s.takeFault c).depthOvf = s.depthOvf := rfl
@[simp] theorem takeFault_cause (s : State) (c : Cause) : (s.takeFault c).cause = c.code := rfl
@[simp] theorem takeFault_res (s : State) (c : Cause) : (s.takeFault c).res = s.res := rfl
@[simp] theorem takeFault_distinct (s : State) (c : Cause) : (s.takeFault c).distinct = s.distinct := rfl
@[simp] theorem takeFault_size (s : State) (c : Cause) : (s.takeFault c).size = s.size := rfl
@[simp] theorem takeFault_checksum (s : State) (c : Cause) : (s.takeFault c).checksum = s.checksum := rfl
@[simp] theorem takeFault_src (s : State) (c : Cause) : (s.takeFault c).src = s.src := rfl
@[simp] theorem takeFault_srcPos (s : State) (c : Cause) : (s.takeFault c).srcPos = s.srcPos := rfl
@[simp] theorem takeFault_snk (s : State) (c : Cause) : (s.takeFault c).snk = s.snk := rfl
@[simp] theorem takeFault_bcDir (s : State) (c : Cause) : (s.takeFault c).bcDir = s.bcDir := rfl
@[simp] theorem takeFault_bcCur (s : State) (c : Cause) : (s.takeFault c).bcCur = s.bcCur := rfl
@[simp] theorem takeFault_bcBuf (s : State) (c : Cause) : (s.takeFault c).bcBuf = s.bcBuf := rfl
@[simp] theorem takeFault_cnt (s : State) (c : Cause) : (s.takeFault c).cnt = s.cnt := rfl
@[simp] theorem takeFault_node (s : State) (c : Cause) : (s.takeFault c).node = s.node := rfl
@[simp] theorem takeFault_wl (s : State) (c : Cause) : (s.takeFault c).wl = s.wl := rfl
@[simp] theorem takeFault_root (s : State) (c : Cause) : (s.takeFault c).root = s.root := rfl
@[simp] theorem takeFault_code (s : State) (c : Cause) : (s.takeFault c).code = s.code := rfl

/-! `State.setTree` -/

@[simp] theorem setTree_prog (s : State) (v : Bool) (r : NodeIx) : (s.setTree v r).prog = s.prog := rfl
@[simp] theorem setTree_pc (s : State) (v : Bool) (r : NodeIx) : (s.setTree v r).pc = s.pc := rfl
@[simp] theorem setTree_snkCap (s : State) (v : Bool) (r : NodeIx) : (s.setTree v r).snkCap = s.snkCap := rfl
@[simp] theorem setTree_fault (s : State) (v : Bool) (r : NodeIx) : (s.setTree v r).fault = s.fault := rfl
@[simp] theorem setTree_treeValid (s : State) (v : Bool) (r : NodeIx) : (s.setTree v r).treeValid = v := rfl
@[simp] theorem setTree_depthOvf (s : State) (v : Bool) (r : NodeIx) : (s.setTree v r).depthOvf = s.depthOvf := rfl
@[simp] theorem setTree_cause (s : State) (v : Bool) (r : NodeIx) : (s.setTree v r).cause = s.cause := rfl
@[simp] theorem setTree_res (s : State) (v : Bool) (r : NodeIx) : (s.setTree v r).res = s.res := rfl
@[simp] theorem setTree_distinct (s : State) (v : Bool) (r : NodeIx) : (s.setTree v r).distinct = s.distinct := rfl
@[simp] theorem setTree_size (s : State) (v : Bool) (r : NodeIx) : (s.setTree v r).size = s.size := rfl
@[simp] theorem setTree_checksum (s : State) (v : Bool) (r : NodeIx) : (s.setTree v r).checksum = s.checksum := rfl
@[simp] theorem setTree_src (s : State) (v : Bool) (r : NodeIx) : (s.setTree v r).src = s.src := rfl
@[simp] theorem setTree_srcPos (s : State) (v : Bool) (r : NodeIx) : (s.setTree v r).srcPos = s.srcPos := rfl
@[simp] theorem setTree_snk (s : State) (v : Bool) (r : NodeIx) : (s.setTree v r).snk = s.snk := rfl
@[simp] theorem setTree_bcDir (s : State) (v : Bool) (r : NodeIx) : (s.setTree v r).bcDir = s.bcDir := rfl
@[simp] theorem setTree_bcCur (s : State) (v : Bool) (r : NodeIx) : (s.setTree v r).bcCur = s.bcCur := rfl
@[simp] theorem setTree_bcBuf (s : State) (v : Bool) (r : NodeIx) : (s.setTree v r).bcBuf = s.bcBuf := rfl
@[simp] theorem setTree_cnt (s : State) (v : Bool) (r : NodeIx) : (s.setTree v r).cnt = s.cnt := rfl
@[simp] theorem setTree_node (s : State) (v : Bool) (r : NodeIx) : (s.setTree v r).node = s.node := rfl
@[simp] theorem setTree_wl (s : State) (v : Bool) (r : NodeIx) : (s.setTree v r).wl = s.wl := rfl
@[simp] theorem setTree_root (s : State) (v : Bool) (r : NodeIx) : (s.setTree v r).root = r := rfl
@[simp] theorem setTree_code (s : State) (v : Bool) (r : NodeIx) : (s.setTree v r).code = s.code := rfl

/-! `State.setDepthOvf` -/

@[simp] theorem setDepthOvf_prog (s : State) (v : Bool) : (s.setDepthOvf v).prog = s.prog := rfl
@[simp] theorem setDepthOvf_pc (s : State) (v : Bool) : (s.setDepthOvf v).pc = s.pc := rfl
@[simp] theorem setDepthOvf_snkCap (s : State) (v : Bool) : (s.setDepthOvf v).snkCap = s.snkCap := rfl
@[simp] theorem setDepthOvf_fault (s : State) (v : Bool) : (s.setDepthOvf v).fault = s.fault := rfl
@[simp] theorem setDepthOvf_treeValid (s : State) (v : Bool) : (s.setDepthOvf v).treeValid = s.treeValid := rfl
@[simp] theorem setDepthOvf_depthOvf (s : State) (v : Bool) : (s.setDepthOvf v).depthOvf = v := rfl
@[simp] theorem setDepthOvf_cause (s : State) (v : Bool) : (s.setDepthOvf v).cause = s.cause := rfl
@[simp] theorem setDepthOvf_res (s : State) (v : Bool) : (s.setDepthOvf v).res = s.res := rfl
@[simp] theorem setDepthOvf_distinct (s : State) (v : Bool) : (s.setDepthOvf v).distinct = s.distinct := rfl
@[simp] theorem setDepthOvf_size (s : State) (v : Bool) : (s.setDepthOvf v).size = s.size := rfl
@[simp] theorem setDepthOvf_checksum (s : State) (v : Bool) : (s.setDepthOvf v).checksum = s.checksum := rfl
@[simp] theorem setDepthOvf_src (s : State) (v : Bool) : (s.setDepthOvf v).src = s.src := rfl
@[simp] theorem setDepthOvf_srcPos (s : State) (v : Bool) : (s.setDepthOvf v).srcPos = s.srcPos := rfl
@[simp] theorem setDepthOvf_snk (s : State) (v : Bool) : (s.setDepthOvf v).snk = s.snk := rfl
@[simp] theorem setDepthOvf_bcDir (s : State) (v : Bool) : (s.setDepthOvf v).bcDir = s.bcDir := rfl
@[simp] theorem setDepthOvf_bcCur (s : State) (v : Bool) : (s.setDepthOvf v).bcCur = s.bcCur := rfl
@[simp] theorem setDepthOvf_bcBuf (s : State) (v : Bool) : (s.setDepthOvf v).bcBuf = s.bcBuf := rfl
@[simp] theorem setDepthOvf_cnt (s : State) (v : Bool) : (s.setDepthOvf v).cnt = s.cnt := rfl
@[simp] theorem setDepthOvf_node (s : State) (v : Bool) : (s.setDepthOvf v).node = s.node := rfl
@[simp] theorem setDepthOvf_wl (s : State) (v : Bool) : (s.setDepthOvf v).wl = s.wl := rfl
@[simp] theorem setDepthOvf_root (s : State) (v : Bool) : (s.setDepthOvf v).root = s.root := rfl
@[simp] theorem setDepthOvf_code (s : State) (v : Bool) : (s.setDepthOvf v).code = s.code := rfl

/-! `State.advancePc` -/

@[simp] theorem advancePc_prog (s : State) : (s.advancePc).prog = s.prog := rfl
@[simp] theorem advancePc_pc (s : State) : (s.advancePc).pc = s.pc + 1 := rfl
@[simp] theorem advancePc_snkCap (s : State) : (s.advancePc).snkCap = s.snkCap := rfl
@[simp] theorem advancePc_fault (s : State) : (s.advancePc).fault = s.fault := rfl
@[simp] theorem advancePc_treeValid (s : State) : (s.advancePc).treeValid = s.treeValid := rfl
@[simp] theorem advancePc_depthOvf (s : State) : (s.advancePc).depthOvf = s.depthOvf := rfl
@[simp] theorem advancePc_cause (s : State) : (s.advancePc).cause = s.cause := rfl
@[simp] theorem advancePc_res (s : State) : (s.advancePc).res = s.res := rfl
@[simp] theorem advancePc_distinct (s : State) : (s.advancePc).distinct = s.distinct := rfl
@[simp] theorem advancePc_size (s : State) : (s.advancePc).size = s.size := rfl
@[simp] theorem advancePc_checksum (s : State) : (s.advancePc).checksum = s.checksum := rfl
@[simp] theorem advancePc_src (s : State) : (s.advancePc).src = s.src := rfl
@[simp] theorem advancePc_srcPos (s : State) : (s.advancePc).srcPos = s.srcPos := rfl
@[simp] theorem advancePc_snk (s : State) : (s.advancePc).snk = s.snk := rfl
@[simp] theorem advancePc_bcDir (s : State) : (s.advancePc).bcDir = s.bcDir := rfl
@[simp] theorem advancePc_bcCur (s : State) : (s.advancePc).bcCur = s.bcCur := rfl
@[simp] theorem advancePc_bcBuf (s : State) : (s.advancePc).bcBuf = s.bcBuf := rfl
@[simp] theorem advancePc_cnt (s : State) : (s.advancePc).cnt = s.cnt := rfl
@[simp] theorem advancePc_node (s : State) : (s.advancePc).node = s.node := rfl
@[simp] theorem advancePc_wl (s : State) : (s.advancePc).wl = s.wl := rfl
@[simp] theorem advancePc_root (s : State) : (s.advancePc).root = s.root := rfl
@[simp] theorem advancePc_code (s : State) : (s.advancePc).code = s.code := rfl

/-! `State.shiftIn` -/

@[simp] theorem shiftIn_prog (s : State) (b : Bool) : (s.shiftIn b).prog = s.prog := rfl
@[simp] theorem shiftIn_pc (s : State) (b : Bool) : (s.shiftIn b).pc = s.pc := rfl
@[simp] theorem shiftIn_snkCap (s : State) (b : Bool) : (s.shiftIn b).snkCap = s.snkCap := rfl
@[simp] theorem shiftIn_fault (s : State) (b : Bool) : (s.shiftIn b).fault = s.fault := rfl
@[simp] theorem shiftIn_treeValid (s : State) (b : Bool) : (s.shiftIn b).treeValid = s.treeValid := rfl
@[simp] theorem shiftIn_depthOvf (s : State) (b : Bool) : (s.shiftIn b).depthOvf = s.depthOvf := rfl
@[simp] theorem shiftIn_cause (s : State) (b : Bool) : (s.shiftIn b).cause = s.cause := rfl
@[simp] theorem shiftIn_res (s : State) (b : Bool) : (s.shiftIn b).res = s.res := rfl
@[simp] theorem shiftIn_distinct (s : State) (b : Bool) : (s.shiftIn b).distinct = s.distinct := rfl
@[simp] theorem shiftIn_size (s : State) (b : Bool) : (s.shiftIn b).size = s.size := rfl
@[simp] theorem shiftIn_checksum (s : State) (b : Bool) : (s.shiftIn b).checksum = s.checksum := rfl
@[simp] theorem shiftIn_src (s : State) (b : Bool) : (s.shiftIn b).src = s.src := rfl
@[simp] theorem shiftIn_srcPos (s : State) (b : Bool) : (s.shiftIn b).srcPos = s.srcPos := rfl
@[simp] theorem shiftIn_snk (s : State) (b : Bool) : (s.shiftIn b).snk = s.snk := rfl
@[simp] theorem shiftIn_bcDir (s : State) (b : Bool) : (s.shiftIn b).bcDir = s.bcDir := rfl
@[simp] theorem shiftIn_bcCur (s : State) (b : Bool) : (s.shiftIn b).bcCur = s.bcCur + 1 := rfl
@[simp] theorem shiftIn_bcBuf (s : State) (b : Bool) : (s.shiftIn b).bcBuf = (s.bcBuf <<< 1) ||| zext8 b := rfl
@[simp] theorem shiftIn_cnt (s : State) (b : Bool) : (s.shiftIn b).cnt = s.cnt := rfl
@[simp] theorem shiftIn_node (s : State) (b : Bool) : (s.shiftIn b).node = s.node := rfl
@[simp] theorem shiftIn_wl (s : State) (b : Bool) : (s.shiftIn b).wl = s.wl := rfl
@[simp] theorem shiftIn_root (s : State) (b : Bool) : (s.shiftIn b).root = s.root := rfl
@[simp] theorem shiftIn_code (s : State) (b : Bool) : (s.shiftIn b).code = s.code := rfl

/-! `State.emitLeaf` -/

@[simp] theorem emitLeaf_prog (s : State) (m : Byte) (c : Word64) : (s.emitLeaf m c).prog = s.prog := rfl
@[simp] theorem emitLeaf_pc (s : State) (m : Byte) (c : Word64) : (s.emitLeaf m c).pc = s.pc := rfl
@[simp] theorem emitLeaf_snkCap (s : State) (m : Byte) (c : Word64) : (s.emitLeaf m c).snkCap = s.snkCap := rfl
@[simp] theorem emitLeaf_fault (s : State) (m : Byte) (c : Word64) : (s.emitLeaf m c).fault = s.fault := rfl
@[simp] theorem emitLeaf_treeValid (s : State) (m : Byte) (c : Word64) : (s.emitLeaf m c).treeValid = s.treeValid := rfl
@[simp] theorem emitLeaf_depthOvf (s : State) (m : Byte) (c : Word64) : (s.emitLeaf m c).depthOvf = s.depthOvf := rfl
@[simp] theorem emitLeaf_cause (s : State) (m : Byte) (c : Word64) : (s.emitLeaf m c).cause = s.cause := rfl
@[simp] theorem emitLeaf_res (s : State) (m : Byte) (c : Word64) : (s.emitLeaf m c).res = s.res := rfl
@[simp] theorem emitLeaf_distinct (s : State) (m : Byte) (c : Word64) : (s.emitLeaf m c).distinct = s.distinct := rfl
@[simp] theorem emitLeaf_size (s : State) (m : Byte) (c : Word64) : (s.emitLeaf m c).size = s.size := rfl
@[simp] theorem emitLeaf_checksum (s : State) (m : Byte) (c : Word64) : (s.emitLeaf m c).checksum = s.checksum := rfl
@[simp] theorem emitLeaf_src (s : State) (m : Byte) (c : Word64) : (s.emitLeaf m c).src = s.src := rfl
@[simp] theorem emitLeaf_srcPos (s : State) (m : Byte) (c : Word64) : (s.emitLeaf m c).srcPos = s.srcPos := rfl
@[simp] theorem emitLeaf_snk (s : State) (m : Byte) (c : Word64) : (s.emitLeaf m c).snk = s.snk := rfl
@[simp] theorem emitLeaf_bcDir (s : State) (m : Byte) (c : Word64) : (s.emitLeaf m c).bcDir = s.bcDir := rfl
@[simp] theorem emitLeaf_bcCur (s : State) (m : Byte) (c : Word64) : (s.emitLeaf m c).bcCur = s.bcCur := rfl
@[simp] theorem emitLeaf_bcBuf (s : State) (m : Byte) (c : Word64) : (s.emitLeaf m c).bcBuf = s.bcBuf := rfl
@[simp] theorem emitLeaf_cnt (s : State) (m : Byte) (c : Word64) : (s.emitLeaf m c).cnt = s.cnt.set m 0 := rfl
@[simp] theorem emitLeaf_node (s : State) (m : Byte) (c : Word64) : (s.emitLeaf m c).node = s.node ++ [.leaf m] := rfl
@[simp] theorem emitLeaf_wl (s : State) (m : Byte) (c : Word64) : (s.emitLeaf m c).wl = s.wl ++ [⟨c, BitVec.ofNat 9 s.nodeCnt⟩] := rfl
@[simp] theorem emitLeaf_root (s : State) (m : Byte) (c : Word64) : (s.emitLeaf m c).root = s.root := rfl
@[simp] theorem emitLeaf_code (s : State) (m : Byte) (c : Word64) : (s.emitLeaf m c).code = s.code := rfl

/-! `State.dropTree` -/

@[simp] theorem dropTree_prog (s : State) : (s.dropTree).prog = s.prog := rfl
@[simp] theorem dropTree_pc (s : State) : (s.dropTree).pc = s.pc := rfl
@[simp] theorem dropTree_snkCap (s : State) : (s.dropTree).snkCap = s.snkCap := rfl
@[simp] theorem dropTree_fault (s : State) : (s.dropTree).fault = s.fault := rfl
@[simp] theorem dropTree_treeValid (s : State) : (s.dropTree).treeValid = false := rfl
@[simp] theorem dropTree_depthOvf (s : State) : (s.dropTree).depthOvf = s.depthOvf := rfl
@[simp] theorem dropTree_cause (s : State) : (s.dropTree).cause = s.cause := rfl
@[simp] theorem dropTree_res (s : State) : (s.dropTree).res = s.res := rfl
@[simp] theorem dropTree_distinct (s : State) : (s.dropTree).distinct = s.distinct := rfl
@[simp] theorem dropTree_size (s : State) : (s.dropTree).size = s.size := rfl
@[simp] theorem dropTree_checksum (s : State) : (s.dropTree).checksum = s.checksum := rfl
@[simp] theorem dropTree_src (s : State) : (s.dropTree).src = s.src := rfl
@[simp] theorem dropTree_srcPos (s : State) : (s.dropTree).srcPos = s.srcPos := rfl
@[simp] theorem dropTree_snk (s : State) : (s.dropTree).snk = s.snk := rfl
@[simp] theorem dropTree_bcDir (s : State) : (s.dropTree).bcDir = s.bcDir := rfl
@[simp] theorem dropTree_bcCur (s : State) : (s.dropTree).bcCur = s.bcCur := rfl
@[simp] theorem dropTree_bcBuf (s : State) : (s.dropTree).bcBuf = s.bcBuf := rfl
@[simp] theorem dropTree_cnt (s : State) : (s.dropTree).cnt = s.cnt := rfl
@[simp] theorem dropTree_node (s : State) : (s.dropTree).node = [] := rfl
@[simp] theorem dropTree_wl (s : State) : (s.dropTree).wl = [] := rfl
@[simp] theorem dropTree_root (s : State) : (s.dropTree).root = 0 := rfl
@[simp] theorem dropTree_code (s : State) : (s.dropTree).code = s.code := rfl

/-! `State.merge` -/

@[simp] theorem merge_prog (s : State) (x y : WorkItem) (rest : List WorkItem) : (s.merge x y rest).prog = s.prog := rfl
@[simp] theorem merge_pc (s : State) (x y : WorkItem) (rest : List WorkItem) : (s.merge x y rest).pc = s.pc := rfl
@[simp] theorem merge_snkCap (s : State) (x y : WorkItem) (rest : List WorkItem) : (s.merge x y rest).snkCap = s.snkCap := rfl
@[simp] theorem merge_fault (s : State) (x y : WorkItem) (rest : List WorkItem) : (s.merge x y rest).fault = s.fault := rfl
@[simp] theorem merge_treeValid (s : State) (x y : WorkItem) (rest : List WorkItem) : (s.merge x y rest).treeValid = s.treeValid := rfl
@[simp] theorem merge_depthOvf (s : State) (x y : WorkItem) (rest : List WorkItem) : (s.merge x y rest).depthOvf = s.depthOvf := rfl
@[simp] theorem merge_cause (s : State) (x y : WorkItem) (rest : List WorkItem) : (s.merge x y rest).cause = s.cause := rfl
@[simp] theorem merge_res (s : State) (x y : WorkItem) (rest : List WorkItem) : (s.merge x y rest).res = s.res := rfl
@[simp] theorem merge_distinct (s : State) (x y : WorkItem) (rest : List WorkItem) : (s.merge x y rest).distinct = s.distinct := rfl
@[simp] theorem merge_size (s : State) (x y : WorkItem) (rest : List WorkItem) : (s.merge x y rest).size = s.size := rfl
@[simp] theorem merge_checksum (s : State) (x y : WorkItem) (rest : List WorkItem) : (s.merge x y rest).checksum = s.checksum := rfl
@[simp] theorem merge_src (s : State) (x y : WorkItem) (rest : List WorkItem) : (s.merge x y rest).src = s.src := rfl
@[simp] theorem merge_srcPos (s : State) (x y : WorkItem) (rest : List WorkItem) : (s.merge x y rest).srcPos = s.srcPos := rfl
@[simp] theorem merge_snk (s : State) (x y : WorkItem) (rest : List WorkItem) : (s.merge x y rest).snk = s.snk := rfl
@[simp] theorem merge_bcDir (s : State) (x y : WorkItem) (rest : List WorkItem) : (s.merge x y rest).bcDir = s.bcDir := rfl
@[simp] theorem merge_bcCur (s : State) (x y : WorkItem) (rest : List WorkItem) : (s.merge x y rest).bcCur = s.bcCur := rfl
@[simp] theorem merge_bcBuf (s : State) (x y : WorkItem) (rest : List WorkItem) : (s.merge x y rest).bcBuf = s.bcBuf := rfl
@[simp] theorem merge_cnt (s : State) (x y : WorkItem) (rest : List WorkItem) : (s.merge x y rest).cnt = s.cnt := rfl
@[simp] theorem merge_node (s : State) (x y : WorkItem) (rest : List WorkItem) : (s.merge x y rest).node = s.node ++ [.branch x.n y.n] := rfl
@[simp] theorem merge_wl (s : State) (x y : WorkItem) (rest : List WorkItem) : (s.merge x y rest).wl = insertItem rest ⟨x.w + y.w, BitVec.ofNat 9 s.nodeCnt⟩ := rfl
@[simp] theorem merge_root (s : State) (x y : WorkItem) (rest : List WorkItem) : (s.merge x y rest).root = s.root := rfl
@[simp] theorem merge_code (s : State) (x y : WorkItem) (rest : List WorkItem) : (s.merge x y rest).code = s.code := rfl

/-! `State.hClearSnk` -/

@[simp] theorem hClearSnk_prog (s : State) : (s.hClearSnk).prog = s.prog := rfl
@[simp] theorem hClearSnk_pc (s : State) : (s.hClearSnk).pc = s.pc := rfl
@[simp] theorem hClearSnk_snkCap (s : State) : (s.hClearSnk).snkCap = s.snkCap := rfl
@[simp] theorem hClearSnk_fault (s : State) : (s.hClearSnk).fault = s.fault := rfl
@[simp] theorem hClearSnk_treeValid (s : State) : (s.hClearSnk).treeValid = s.treeValid := rfl
@[simp] theorem hClearSnk_depthOvf (s : State) : (s.hClearSnk).depthOvf = s.depthOvf := rfl
@[simp] theorem hClearSnk_cause (s : State) : (s.hClearSnk).cause = s.cause := rfl
@[simp] theorem hClearSnk_res (s : State) : (s.hClearSnk).res = s.res := rfl
@[simp] theorem hClearSnk_distinct (s : State) : (s.hClearSnk).distinct = s.distinct := rfl
@[simp] theorem hClearSnk_size (s : State) : (s.hClearSnk).size = s.size := rfl
@[simp] theorem hClearSnk_checksum (s : State) : (s.hClearSnk).checksum = s.checksum := rfl
@[simp] theorem hClearSnk_src (s : State) : (s.hClearSnk).src = s.src := rfl
@[simp] theorem hClearSnk_srcPos (s : State) : (s.hClearSnk).srcPos = s.srcPos := rfl
@[simp] theorem hClearSnk_snk (s : State) : (s.hClearSnk).snk = [] := rfl
@[simp] theorem hClearSnk_bcDir (s : State) : (s.hClearSnk).bcDir = s.bcDir := rfl
@[simp] theorem hClearSnk_bcCur (s : State) : (s.hClearSnk).bcCur = s.bcCur := rfl
@[simp] theorem hClearSnk_bcBuf (s : State) : (s.hClearSnk).bcBuf = s.bcBuf := rfl
@[simp] theorem hClearSnk_cnt (s : State) : (s.hClearSnk).cnt = s.cnt := rfl
@[simp] theorem hClearSnk_node (s : State) : (s.hClearSnk).node = s.node := rfl
@[simp] theorem hClearSnk_wl (s : State) : (s.hClearSnk).wl = s.wl := rfl
@[simp] theorem hClearSnk_root (s : State) : (s.hClearSnk).root = s.root := rfl
@[simp] theorem hClearSnk_code (s : State) : (s.hClearSnk).code = s.code := rfl

/-! `State.hIssue` -/

@[simp] theorem hIssue_prog (s : State) (w : CmdWord) : (s.hIssue w).prog = s.prog ++ [w] := rfl
@[simp] theorem hIssue_pc (s : State) (w : CmdWord) : (s.hIssue w).pc = s.pc := rfl
@[simp] theorem hIssue_snkCap (s : State) (w : CmdWord) : (s.hIssue w).snkCap = s.snkCap := rfl
@[simp] theorem hIssue_fault (s : State) (w : CmdWord) : (s.hIssue w).fault = s.fault := rfl
@[simp] theorem hIssue_treeValid (s : State) (w : CmdWord) : (s.hIssue w).treeValid = s.treeValid := rfl
@[simp] theorem hIssue_depthOvf (s : State) (w : CmdWord) : (s.hIssue w).depthOvf = s.depthOvf := rfl
@[simp] theorem hIssue_cause (s : State) (w : CmdWord) : (s.hIssue w).cause = s.cause := rfl
@[simp] theorem hIssue_res (s : State) (w : CmdWord) : (s.hIssue w).res = s.res := rfl
@[simp] theorem hIssue_distinct (s : State) (w : CmdWord) : (s.hIssue w).distinct = s.distinct := rfl
@[simp] theorem hIssue_size (s : State) (w : CmdWord) : (s.hIssue w).size = s.size := rfl
@[simp] theorem hIssue_checksum (s : State) (w : CmdWord) : (s.hIssue w).checksum = s.checksum := rfl
@[simp] theorem hIssue_src (s : State) (w : CmdWord) : (s.hIssue w).src = s.src := rfl
@[simp] theorem hIssue_srcPos (s : State) (w : CmdWord) : (s.hIssue w).srcPos = s.srcPos := rfl
@[simp] theorem hIssue_snk (s : State) (w : CmdWord) : (s.hIssue w).snk = s.snk := rfl
@[simp] theorem hIssue_bcDir (s : State) (w : CmdWord) : (s.hIssue w).bcDir = s.bcDir := rfl
@[simp] theorem hIssue_bcCur (s : State) (w : CmdWord) : (s.hIssue w).bcCur = s.bcCur := rfl
@[simp] theorem hIssue_bcBuf (s : State) (w : CmdWord) : (s.hIssue w).bcBuf = s.bcBuf := rfl
@[simp] theorem hIssue_cnt (s : State) (w : CmdWord) : (s.hIssue w).cnt = s.cnt := rfl
@[simp] theorem hIssue_node (s : State) (w : CmdWord) : (s.hIssue w).node = s.node := rfl
@[simp] theorem hIssue_wl (s : State) (w : CmdWord) : (s.hIssue w).wl = s.wl := rfl
@[simp] theorem hIssue_root (s : State) (w : CmdWord) : (s.hIssue w).root = s.root := rfl
@[simp] theorem hIssue_code (s : State) (w : CmdWord) : (s.hIssue w).code = s.code := rfl

/-! `State.withFetchWord` -/

@[simp] theorem withFetchWord_prog (s : State) (n w : Nat) : (s.withFetchWord n w).prog = placeWord s.prog s.pc (BitVec.ofNat 16 (w % 2 ^ n)) := rfl
@[simp] theorem withFetchWord_pc (s : State) (n w : Nat) : (s.withFetchWord n w).pc = s.pc := rfl
@[simp] theorem withFetchWord_snkCap (s : State) (n w : Nat) : (s.withFetchWord n w).snkCap = s.snkCap := rfl
@[simp] theorem withFetchWord_fault (s : State) (n w : Nat) : (s.withFetchWord n w).fault = false := rfl
@[simp] theorem withFetchWord_treeValid (s : State) (n w : Nat) : (s.withFetchWord n w).treeValid = s.treeValid := rfl
@[simp] theorem withFetchWord_depthOvf (s : State) (n w : Nat) : (s.withFetchWord n w).depthOvf = s.depthOvf := rfl
@[simp] theorem withFetchWord_cause (s : State) (n w : Nat) : (s.withFetchWord n w).cause = 0 := rfl
@[simp] theorem withFetchWord_res (s : State) (n w : Nat) : (s.withFetchWord n w).res = s.res := rfl
@[simp] theorem withFetchWord_distinct (s : State) (n w : Nat) : (s.withFetchWord n w).distinct = s.distinct := rfl
@[simp] theorem withFetchWord_size (s : State) (n w : Nat) : (s.withFetchWord n w).size = s.size := rfl
@[simp] theorem withFetchWord_checksum (s : State) (n w : Nat) : (s.withFetchWord n w).checksum = s.checksum := rfl
@[simp] theorem withFetchWord_src (s : State) (n w : Nat) : (s.withFetchWord n w).src = s.src := rfl
@[simp] theorem withFetchWord_srcPos (s : State) (n w : Nat) : (s.withFetchWord n w).srcPos = s.srcPos := rfl
@[simp] theorem withFetchWord_snk (s : State) (n w : Nat) : (s.withFetchWord n w).snk = s.snk := rfl
@[simp] theorem withFetchWord_bcDir (s : State) (n w : Nat) : (s.withFetchWord n w).bcDir = s.bcDir := rfl
@[simp] theorem withFetchWord_bcCur (s : State) (n w : Nat) : (s.withFetchWord n w).bcCur = s.bcCur := rfl
@[simp] theorem withFetchWord_bcBuf (s : State) (n w : Nat) : (s.withFetchWord n w).bcBuf = s.bcBuf := rfl
@[simp] theorem withFetchWord_cnt (s : State) (n w : Nat) : (s.withFetchWord n w).cnt = s.cnt := rfl
@[simp] theorem withFetchWord_node (s : State) (n w : Nat) : (s.withFetchWord n w).node = s.node := rfl
@[simp] theorem withFetchWord_wl (s : State) (n w : Nat) : (s.withFetchWord n w).wl = s.wl := rfl
@[simp] theorem withFetchWord_root (s : State) (n w : Nat) : (s.withFetchWord n w).root = s.root := rfl
@[simp] theorem withFetchWord_code (s : State) (n w : Nat) : (s.withFetchWord n w).code = s.code := rfl

/-! `State.visitLeaf` writes `CODE` or `DEPTH_OVF` and nothing else -/

@[simp] theorem visitLeaf_prog (s : State) (x : Byte) (p : BitVec 30) (d : Nat) : (s.visitLeaf x p d).prog = s.prog := by
  unfold State.visitLeaf; split <;> rfl
@[simp] theorem visitLeaf_pc (s : State) (x : Byte) (p : BitVec 30) (d : Nat) : (s.visitLeaf x p d).pc = s.pc := by
  unfold State.visitLeaf; split <;> rfl
@[simp] theorem visitLeaf_snkCap (s : State) (x : Byte) (p : BitVec 30) (d : Nat) : (s.visitLeaf x p d).snkCap = s.snkCap := by
  unfold State.visitLeaf; split <;> rfl
@[simp] theorem visitLeaf_fault (s : State) (x : Byte) (p : BitVec 30) (d : Nat) : (s.visitLeaf x p d).fault = s.fault := by
  unfold State.visitLeaf; split <;> rfl
@[simp] theorem visitLeaf_treeValid (s : State) (x : Byte) (p : BitVec 30) (d : Nat) : (s.visitLeaf x p d).treeValid = s.treeValid := by
  unfold State.visitLeaf; split <;> rfl
@[simp] theorem visitLeaf_cause (s : State) (x : Byte) (p : BitVec 30) (d : Nat) : (s.visitLeaf x p d).cause = s.cause := by
  unfold State.visitLeaf; split <;> rfl
@[simp] theorem visitLeaf_res (s : State) (x : Byte) (p : BitVec 30) (d : Nat) : (s.visitLeaf x p d).res = s.res := by
  unfold State.visitLeaf; split <;> rfl
@[simp] theorem visitLeaf_distinct (s : State) (x : Byte) (p : BitVec 30) (d : Nat) : (s.visitLeaf x p d).distinct = s.distinct := by
  unfold State.visitLeaf; split <;> rfl
@[simp] theorem visitLeaf_size (s : State) (x : Byte) (p : BitVec 30) (d : Nat) : (s.visitLeaf x p d).size = s.size := by
  unfold State.visitLeaf; split <;> rfl
@[simp] theorem visitLeaf_checksum (s : State) (x : Byte) (p : BitVec 30) (d : Nat) : (s.visitLeaf x p d).checksum = s.checksum := by
  unfold State.visitLeaf; split <;> rfl
@[simp] theorem visitLeaf_src (s : State) (x : Byte) (p : BitVec 30) (d : Nat) : (s.visitLeaf x p d).src = s.src := by
  unfold State.visitLeaf; split <;> rfl
@[simp] theorem visitLeaf_srcPos (s : State) (x : Byte) (p : BitVec 30) (d : Nat) : (s.visitLeaf x p d).srcPos = s.srcPos := by
  unfold State.visitLeaf; split <;> rfl
@[simp] theorem visitLeaf_snk (s : State) (x : Byte) (p : BitVec 30) (d : Nat) : (s.visitLeaf x p d).snk = s.snk := by
  unfold State.visitLeaf; split <;> rfl
@[simp] theorem visitLeaf_bcDir (s : State) (x : Byte) (p : BitVec 30) (d : Nat) : (s.visitLeaf x p d).bcDir = s.bcDir := by
  unfold State.visitLeaf; split <;> rfl
@[simp] theorem visitLeaf_bcCur (s : State) (x : Byte) (p : BitVec 30) (d : Nat) : (s.visitLeaf x p d).bcCur = s.bcCur := by
  unfold State.visitLeaf; split <;> rfl
@[simp] theorem visitLeaf_bcBuf (s : State) (x : Byte) (p : BitVec 30) (d : Nat) : (s.visitLeaf x p d).bcBuf = s.bcBuf := by
  unfold State.visitLeaf; split <;> rfl
@[simp] theorem visitLeaf_cnt (s : State) (x : Byte) (p : BitVec 30) (d : Nat) : (s.visitLeaf x p d).cnt = s.cnt := by
  unfold State.visitLeaf; split <;> rfl
@[simp] theorem visitLeaf_node (s : State) (x : Byte) (p : BitVec 30) (d : Nat) : (s.visitLeaf x p d).node = s.node := by
  unfold State.visitLeaf; split <;> rfl
@[simp] theorem visitLeaf_wl (s : State) (x : Byte) (p : BitVec 30) (d : Nat) : (s.visitLeaf x p d).wl = s.wl := by
  unfold State.visitLeaf; split <;> rfl
@[simp] theorem visitLeaf_root (s : State) (x : Byte) (p : BitVec 30) (d : Nat) : (s.visitLeaf x p d).root = s.root := by
  unfold State.visitLeaf; split <;> rfl

end Sys2Proof.Machine
end

