-- ==== Sys2Proof/Laws/Ops.lean ====
section
/-! SUPPORT. The laws of command bodies: how `bind` and `seq` run, what the primitives answer, and `Keeps`,
by which a property of the state is carried through a body. -/

namespace Sys2Proof.Machine

variable {α β γ : Type}

/-! ## Running a body -/

theorem bind_done {x : Op α} {f : α → Op β} {s t : State} {a : α} (h : x s = .done a t) :
    x.bind f s = f a t := by
  simp only [Op.bind, h]

theorem bind_raised {x : Op α} {f : α → Op β} {s t : State} {c : Cause} (h : x s = .raised c t) :
    x.bind f s = .raised c t := by
  simp only [Op.bind, h]

theorem seq_done {x : Op α} {y : Op β} {s t : State} {a : α} (h : x s = .done a t) : x.seq y s = y t :=
  bind_done h

theorem seq_raised {x : Op α} {y : Op β} {s t : State} {c : Cause} (h : x s = .raised c t) :
    x.seq y s = .raised c t := bind_raised h

/-- A `bind` that ran to its end: both parts did. -/
theorem bind_eq_done {x : Op α} {f : α → Op β} {s u : State} {b : β} (h : x.bind f s = .done b u) :
    ∃ a t, x s = .done a t ∧ f a t = .done b u := by
  simp only [Op.bind] at h
  split at h
  · exact ⟨_, _, by assumption, h⟩
  · cases h
  · cases h

theorem seq_eq_done {x : Op α} {y : Op β} {s u : State} {b : β} (h : x.seq y s = .done b u) :
    ∃ a t, x s = .done a t ∧ y t = .done b u := bind_eq_done h

theorem bind_assoc (x : Op α) (f : α → Op β) (g : β → Op γ) :
    (x.bind f).bind g = x.bind fun a => (f a).bind g := by
  funext s; simp only [Op.bind]; cases x s <;> rfl

theorem seq_assoc (x : Op α) (y : Op β) (z : Op γ) : (x.seq y).seq z = x.seq (y.seq z) :=
  bind_assoc x _ _

@[simp] theorem pure_run (a : α) (s : State) : Op.pure a s = .done a s := rfl
@[simp] theorem skip_run (s : State) : Op.skip s = .done () s := rfl
@[simp] theorem get_run (f : State → α) (s : State) : Op.get f s = .done (f s) s := rfl
@[simp] theorem modify_run (f : State → State) (s : State) : Op.modify f s = .done () (f s) := rfl
@[simp] theorem raise_run (c : Cause) (s : State) : (raise c : Op α) s = .raised c s := rfl
@[simp] theorem bind_pure (a : α) (f : α → Op β) : (Op.pure a).bind f = f a := rfl
@[simp] theorem skip_seq (y : Op β) : Op.skip.seq y = y := rfl
@[simp] theorem get_bind (g : State → α) (f : α → Op β) (s : State) : (Op.get g).bind f s = f (g s) s := rfl
@[simp] theorem modify_seq (g : State → State) (y : Op β) (s : State) : (Op.modify g).seq y s = y (g s) := rfl

/-! ## The end of a command -/

theorem complete_done {op : Op Unit} {s t : State} {u : Unit} (h : op s = .done u t) :
    complete op s = .next t.advancePc := by simp only [complete, h]

theorem complete_raised {op : Op Unit} {s t : State} {c : Cause} (h : op s = .raised c t) :
    complete op s = .next (t.takeFault c) := by simp only [complete, h]

/-- All that the end of a command can be. -/
theorem complete_next {op : Op Unit} {s t : State} (h : complete op s = .next t) :
    (∃ u v, op s = .done u v ∧ t = v.advancePc) ∨ (∃ c v, op s = .raised c v ∧ t = v.takeFault c) := by
  simp only [complete] at h
  split at h
  · injection h with h; exact .inl ⟨_, _, by assumption, h.symm⟩
  · injection h with h; exact .inr ⟨_, _, by assumption, h.symm⟩
  · cases h

/-! ## Preconditions (rules R106 and R107) -/

theorem needDir_ok {d : Dir} {s : State} (h : s.bcDir = d) : needDir d s = .done () s := if_pos h
theorem needDir_bad {d : Dir} {s : State} (h : s.bcDir ≠ d) : needDir d s = .raised .dir s := if_neg h

theorem needTree_ok {s : State} {t : Tree} (hv : s.treeValid = true) (ht : s.tree = some t) :
    needTree s = .done t s := by simp [needTree, hv, ht]

theorem needTree_bad {s : State} (h : s.treeValid = false) : needTree s = .raised .notree s := by
  simp [needTree, h]

/-! ## Properties carried through a body -/

/-- From a state with `P` the body ends in a state with `Q`, or raises in a state with `E`. -/
def Op.Keeps (P Q E : State → Prop) (x : Op α) : Prop :=
  ∀ s, P s → match x s with
    | .done _ t => Q t
    | .raised _ t => E t
    | .stuck _ => True

variable {P Q R E : State → Prop}

theorem Op.Keeps.done {x : Op α} (h : x.Keeps P Q E) {s t : State} {a : α} (hs : P s)
    (hx : x s = .done a t) : Q t := by have := h s hs; rwa [hx] at this

theorem Op.Keeps.raised {x : Op α} (h : x.Keeps P Q E) {s t : State} {c : Cause} (hs : P s)
    (hx : x s = .raised c t) : E t := by have := h s hs; rwa [hx] at this

theorem keeps_bind {x : Op α} {f : α → Op β} (hx : x.Keeps P Q E) (hf : ∀ a, (f a).Keeps Q R E) :
    (x.bind f).Keeps P R E := by
  intro s hs
  have h1 := hx s hs
  simp only [Op.bind]
  cases h : x s with
  | done a t => rw [h] at h1; exact hf a t h1
  | raised c t => rw [h] at h1; exact h1
  | stuck r => trivial

theorem keeps_seq {x : Op α} {y : Op β} (hx : x.Keeps P Q E) (hy : y.Keeps Q R E) :
    (x.seq y).Keeps P R E := keeps_bind hx fun _ => hy

theorem keeps_pure (a : α) : (Op.pure a).Keeps P P E := fun _ h => h
theorem keeps_skip : Op.skip.Keeps P P E := fun _ h => h
theorem keeps_get (f : State → α) : (Op.get f).Keeps P P E := fun _ h => h
theorem keeps_modify {f : State → State} (h : ∀ s, P s → Q (f s)) : (Op.modify f).Keeps P Q E := h
theorem keeps_raise {c : Cause} (h : ∀ s, P s → E s) : (raise c : Op α).Keeps P Q E := h

theorem keeps_mono {P' Q' E' : State → Prop} {x : Op α} (h : x.Keeps P Q E) (hP : ∀ s, P' s → P s)
    (hQ : ∀ s, Q s → Q' s) (hE : ∀ s, E s → E' s) : x.Keeps P' Q' E' := by
  intro s hs
  have h1 := h s (hP s hs)
  cases hx : x s with
  | done a t => rw [hx] at h1; exact hQ t h1
  | raised c t => rw [hx] at h1; exact hE t h1
  | stuck r => trivial

theorem keeps_needDir (d : Dir) (hE : ∀ s, P s → E s) :
    (needDir d).Keeps P (fun s => P s ∧ s.bcDir = d) E := by
  intro s hs
  by_cases h : s.bcDir = d
  · rw [needDir_ok h]; exact ⟨hs, h⟩
  · rw [needDir_bad h]; exact hE s hs

theorem keeps_needTree (hE : ∀ s, P s → E s) :
    needTree.Keeps P (fun s => P s ∧ s.treeValid = true) E := by
  intro s hs
  simp only [needTree]
  split
  · rename_i h
    split at h
    · cases h
    · split at h
      · injection h with _ h; subst h; exact ⟨hs, by simp_all⟩
      · cases h
  · rename_i h
    split at h
    · injection h with _ h; subst h; exact hE s hs
    · split at h <;> cases h
  · trivial

theorem keeps_times {body : Op Unit} (h : body.Keeps P P E) (n : Nat) : (times n body).Keeps P P E := by
  induction n with
  | zero => exact keeps_skip
  | succ n ih => exact keeps_seq h ih

theorem keeps_forSrc {body : Byte → Op Unit} (h1 : srcNext.Keeps P P E) (h : ∀ b, (body b).Keeps P P E)
    (n : Nat) : (forSrc body n).Keeps P P E := by
  induction n with
  | zero => exact keeps_skip
  | succ n ih => exact keeps_seq (keeps_bind h1 h) ih

theorem keeps_writeBits (h : ∀ b, (writeBit b).Keeps P P E) (bs : List Bool) :
    (writeBits bs).Keeps P P E := by
  induction bs with
  | nil => exact keeps_skip
  | cons b bs ih => exact keeps_seq (h b) ih

theorem keeps_writeBytes (h : ∀ b, (writeBit b).Keeps P P E) (vs : List Byte) :
    (writeBytes vs).Keeps P P E := by
  induction vs with
  | nil => exact keeps_skip
  | cons v vs ih => exact keeps_seq (keeps_writeBits h _) ih

theorem keeps_putTree (h : ∀ b, (writeBit b).Keeps P P E) (t : Tree) : (putTree t).Keeps P P E := by
  induction t with
  | leaf x => exact keeps_seq (h _) (keeps_writeBits h _)
  | branch l r ihl ihr => exact keeps_seq (h _) (keeps_seq ihl ihr)

theorem keeps_flushLoop (h : ∀ b, (writeBit b).Keeps P P E) (n : Nat) : (flushLoop n).Keeps P P E := by
  induction n with
  | zero => exact keeps_skip
  | succ n ih =>
    intro s hs
    simp only [flushLoop]
    split_ifs with hc
    · exact hs
    · exact keeps_seq (h false) ih s hs

theorem keeps_readByteLoop (h : readBit.Keeps P P E) (n : Nat) (v : Byte) :
    (readByteLoop n v).Keeps P P E := by
  induction n generalizing v with
  | zero => exact keeps_pure v
  | succ n ih => exact keeps_bind h fun b => ih _

theorem keeps_readByte (h : readBit.Keeps P P E) : readByte.Keeps P P E := keeps_readByteLoop h 8 0

theorem keeps_walkDown (h : readBit.Keeps P P E) (t : Tree) : (walkDown t).Keeps P P E := by
  induction t with
  | leaf x => exact keeps_pure x
  | branch l r ihl ihr =>
    refine keeps_bind h fun d => ?_
    cases d
    · exact ihl
    · exact ihr

theorem keeps_distinctLoop (h : srcNext.Keeps P P E) (n : Nat) (seen : List Byte) (d : BitVec 9) :
    (distinctLoop n seen d).Keeps P P E := by
  induction n generalizing seen d with
  | zero => exact keeps_pure d
  | succ n ih =>
    simp only [distinctLoop]
    split_ifs with hd
    · exact keeps_pure d
    · refine keeps_bind h fun b => ?_
      split_ifs
      · exact ih _ _
      · exact ih _ _

end Sys2Proof.Machine
end

