-- ==== Sys2Proof/Laws/WriteSide.lean ====
section
/-! SUPPORT. The write side of the Bit Channel: what `write_bit` does to the bits written so far, once, and
the same for any run of bits (41_bit_channel.md rules R112, R113 and R124). -/

namespace Sys2Proof.Machine

/-- Only SNK and the channel's cursor and buffer differ. -/
def SameButOut (s t : State) : Prop := t = { s with snk := t.snk, bcCur := t.bcCur, bcBuf := t.bcBuf }

theorem SameButOut.refl (s : State) : SameButOut s s := rfl

theorem SameButOut.trans {s t u : State} (h1 : SameButOut s t) (h2 : SameButOut t u) : SameButOut s u := by
  rw [SameButOut] at *; rw [h2, h1]

theorem byteBits_eq (v : Byte) : byteBits v = (List.range 8).map fun k => v.getLsbD (7 - k) := rfl

@[simp] theorem length_byteBits (v : Byte) : (byteBits v).length = 8 := rfl

@[simp] theorem length_pendingOut (s : State) : s.pendingOut.length = s.bcCur.toNat := by
  simp [State.pendingOut]

theorem shl_or_getLsbD_zero (v : Byte) (b : Bool) : ((v <<< 1) ||| zext8 b).getLsbD 0 = b := by
  cases b <;> simp [zext8]

theorem shl_or_getLsbD_succ (v : Byte) (b : Bool) {i : Nat} (hi : i < 7) :
    ((v <<< 1) ||| zext8 b).getLsbD (i + 1) = v.getLsbD i := by
  cases b <;> simp [zext8, BitVec.getLsbD_shiftLeft, BitVec.getLsbD_one] <;> omega

/-- The bits of the buffer after a shift, counted from the cursor. -/
theorem shifted_bits (v : Byte) (b : Bool) {c : Nat} (hc : c ≤ 7) :
    ((List.range (c + 1)).map fun k => ((v <<< 1) ||| zext8 b).getLsbD (c + 1 - 1 - k)) =
      ((List.range c).map fun k => v.getLsbD (c - 1 - k)) ++ [b] := by
  rw [List.range_succ, List.map_append]
  congr 1
  · apply List.map_congr_left
    intro k hk
    have hk := List.mem_range.1 hk
    rw [show c + 1 - 1 - k = (c - 1 - k) + 1 by omega, shl_or_getLsbD_succ _ _ (by omega)]
  · simp only [List.map_cons, List.map_nil, Nat.add_sub_cancel, Nat.sub_self, shl_or_getLsbD_zero]

theorem cur_lt (s : State) : s.bcCur.toNat < 8 := s.bcCur.isLt

theorem cur_succ {s : State} (h : s.bcCur ≠ 7) : (s.bcCur + 1).toNat = s.bcCur.toNat + 1 := by
  have h1 : s.bcCur.toNat ≠ 7 := fun h2 => h (BitVec.eq_of_toNat_eq h2)
  have h2 := cur_lt s
  rw [BitVec.toNat_add]; simp; omega

/-- What `write_bit` does when the byte is not complete. -/
theorem writeBit_pending {s : State} (b : Bool) (h : s.bcCur ≠ 7) :
    writeBit b s = .done false (s.shiftIn b) := by
  have h1 : (s.shiftIn b).bcCur ≠ 0 := by
    intro h2
    have h3 := congrArg BitVec.toNat h2
    rw [shiftIn_bcCur, cur_succ h] at h3
    simp at h3
  show emitByte (s.shiftIn b) = _
  rw [emitByte, if_neg h1]

/-- What `write_bit` does at the eighth bit, with room in SNK. -/
theorem writeBit_emit {s : State} (b : Bool) (h : s.bcCur = 7) (hf : s.sinkFull = false) :
    writeBit b s = .done true
      { s with snk := s.snk.write s.snk.length ((s.bcBuf <<< 1) ||| zext8 b), bcCur := 0, bcBuf := 0 } := by
  have h2 : (s.shiftIn b).sinkFull = false := hf
  simp [writeBit, emitByte, h, snkAppend, Op.seq, Op.bind, State.snkLen]
  simp [State.shiftIn, State.sinkFull, State.snkLen, h] at *
  simp [hf]

/-- What `write_bit` does at the eighth bit with SNK full. -/
theorem writeBit_full {s : State} (b : Bool) (h : s.bcCur = 7) (hf : s.sinkFull = true) :
    writeBit b s = .raised .io { s with bcBuf := (s.bcBuf <<< 1) ||| zext8 b, bcCur := 0 } := by
  have h2 : (s.shiftIn b).sinkFull = true := hf
  simp [writeBit, emitByte, h, snkAppend, Op.seq, Op.bind]
  simp [State.shiftIn, State.sinkFull, State.snkLen, h] at *
  simp [hf]

theorem room_zero (s : State) (h : ∀ cap, s.snkCap = some cap → s.snk.length ≤ cap.toNat) : s.Room 0 := h

theorem State.Room.mono {s : State} {m n : Nat} (h : s.Room n) (hmn : m ≤ n) : s.Room m :=
  fun cap hc => le_trans (Nat.add_le_add_left hmn _) (h cap hc)

theorem State.Room.notFull {s : State} {n : Nat} (h : s.Room (n + 1)) : s.sinkFull = false := by
  simp only [State.sinkFull]
  split
  · rfl
  · rename_i cap hc
    have := h cap hc
    simp [State.snkLen]; omega

/-- What a run of written bits comes to, in a full SNK with room for the bytes it completes: the bits follow
those written so far, `n` bits move the cursor by `n` modulo 8 and complete `(BC_CUR + n) / 8` bytes. -/
structure Wrote (s : State) (bits : List Bool) (t : State) : Prop where
  same : SameButOut s t
  full : t.snk.full
  out  : t.outBits = s.outBits ++ bits
  cur  : t.bcCur.toNat = (s.bcCur.toNat + bits.length) % 8
  len  : t.snk.length = s.snk.length + (s.bcCur.toNat + bits.length) / 8
  buf  : s.bcBuf.toNat < 2 ^ s.bcCur.toNat → t.bcBuf.toNat < 2 ^ t.bcCur.toNat
  more : ∃ bs, t.snk.bytes = s.snk.bytes ++ bs

theorem Wrote.room {s t : State} {bits : List Bool} (h : Wrote s bits t) {n : Nat}
    (hr : s.Room ((s.bcCur.toNat + bits.length + n) / 8)) : t.Room ((t.bcCur.toNat + n) / 8) := by
  intro cap hc
  rw [h.same] at hc
  have h1 := hr cap hc
  rw [h.len, h.cur]
  omega

theorem Wrote.refl {s : State} (h : s.snk.full) : Wrote s [] s where
  same := rfl
  full := h
  out := by simp
  cur := by have := cur_lt s; simp; omega
  len := by have := cur_lt s; simp; omega
  buf := id
  more := ⟨[], by simp⟩

theorem Wrote.trans {s t u : State} {b c : List Bool} (h1 : Wrote s b t) (h2 : Wrote t c u) :
    Wrote s (b ++ c) u where
  same := h1.same.trans h2.same
  full := h2.full
  out := by rw [h2.out, h1.out, List.append_assoc]
  cur := by rw [h2.cur, h1.cur, List.length_append]; omega
  len := by rw [h2.len, h1.len, h1.cur, List.length_append]; omega
  buf := fun h => h2.buf (h1.buf h)
  more := by
    obtain ⟨x, hx⟩ := h1.more
    obtain ⟨y, hy⟩ := h2.more
    exact ⟨x ++ y, by rw [hy, hx, List.append_assoc]⟩

theorem buf_shift {v : Byte} {c : Nat} (b : Bool) (h : v.toNat < 2 ^ c) :
    ((v <<< 1) ||| zext8 b).toNat < 2 ^ (c + 1) := by
  rw [BitVec.toNat_or]
  apply Nat.or_lt_two_pow
  · rw [BitVec.toNat_shiftLeft, Nat.shiftLeft_eq]
    exact lt_of_le_of_lt (Nat.mod_le _ _) (by rw [pow_succ]; omega)
  · have : (zext8 b).toNat < 2 := by cases b <;> decide
    exact lt_of_lt_of_le this (by rw [pow_succ]; have := Nat.one_le_two_pow (n := c); omega)

/-- `write_bit`, all it can do with room in a full SNK. -/
theorem writeBit_wrote {s : State} (b : Bool) (hs : s.snk.full) (hr : s.Room ((s.bcCur.toNat + 1) / 8)) :
    ∃ f t, writeBit b s = .done f t ∧ Wrote s [b] t := by
  by_cases h : s.bcCur = 7
  · have h7 : s.bcCur.toNat = 7 := congrArg BitVec.toNat h
    rw [h7] at hr
    refine ⟨_, _, writeBit_emit b h (State.Room.notFull (n := 0) hr), ?_⟩
    have hp : s.pendingOut ++ [b] = byteBits ((s.bcBuf <<< 1) ||| zext8 b) := by
      rw [byteBits_eq, State.pendingOut, h7]; exact (shifted_bits s.bcBuf b (le_refl 7)).symm
    refine ⟨rfl, hs.append _, ?_, ?_, ?_, ?_, ⟨_, hs.bytes_append _⟩⟩
    · simp only [State.outBits, hs.bytes_append, List.append_assoc, hp]
      simp [State.pendingOut]
    · simp [h7]
    · simp [h7, hs.length_append]
    · intro _; exact Nat.one_pos
  · have h7 : s.bcCur.toNat ≠ 7 := fun h2 => h (BitVec.eq_of_toNat_eq h2)
    have h8 := cur_lt s
    refine ⟨_, _, writeBit_pending b h, rfl, hs, ?_, ?_, ?_, ?_, ⟨[], by simp⟩⟩
    · simp only [State.outBits, State.pendingOut, shiftIn_snk, shiftIn_bcCur, shiftIn_bcBuf, cur_succ h,
        List.append_assoc, shifted_bits s.bcBuf b (by omega : s.bcCur.toNat ≤ 7)]
    · rw [shiftIn_bcCur, cur_succ h]; simp; omega
    · simp; omega
    · intro hb
      rw [shiftIn_bcCur, shiftIn_bcBuf, cur_succ h]
      exact buf_shift b hb

/-- Any run of bits. -/
theorem writeBits_wrote {s : State} (bits : List Bool) (hs : s.snk.full)
    (hr : s.Room ((s.bcCur.toNat + bits.length) / 8)) :
    ∃ t, writeBits bits s = .done () t ∧ Wrote s bits t := by
  induction bits generalizing s with
  | nil => exact ⟨s, rfl, Wrote.refl hs⟩
  | cons b bits ih =>
    obtain ⟨f, t, h1, h2⟩ := writeBit_wrote b hs (hr.mono (by simp; omega))
    obtain ⟨u, h3, h4⟩ := ih h2.full (h2.room (by simpa [Nat.add_assoc, Nat.add_comm, Nat.add_left_comm] using hr))
    exact ⟨u, by rw [writeBits, seq_done h1, h3], h2.trans h4⟩

theorem writeBits_append (a b : List Bool) : writeBits (a ++ b) = (writeBits a).seq (writeBits b) := by
  induction a with
  | nil => rfl
  | cons x a ih => simp only [List.cons_append, writeBits, ih, seq_assoc]

theorem writeBytes_eq (vs : List Byte) : writeBytes vs = writeBits (vs.flatMap byteBits) := by
  induction vs with
  | nil => rfl
  | cons v vs ih => rw [writeBytes, ih, List.flatMap_cons, writeBits_append]; rfl

/-- `put` writes `ser` (rules R65 and R195). -/
theorem putTree_eq (t : Tree) : putTree t = writeBits t.ser := by
  induction t with
  | leaf x => rfl
  | branch l r ihl ihr => rw [putTree, ihl, ihr, Tree.ser, writeBits, writeBits_append]

end Sys2Proof.Machine
end

