-- ==== Sys2Proof/Laws/ReadSide.lean ====
section
/-! SUPPORT. The read side of the Bit Channel: `src_next()` and `read_bit()` over the bits still to come
(20_memory.md rule R53, 41_bit_channel.md rules R110 and R111), and the decoding of trees and paths from
them. -/

namespace Sys2Proof.Machine

/-- Only the read position and the channel's cursor and buffer differ. -/
def SameButIn (s t : State) : Prop := t = { s with srcPos := t.srcPos, bcCur := t.bcCur, bcBuf := t.bcBuf }

theorem SameButIn.refl (s : State) : SameButIn s s := rfl

theorem SameButIn.trans {s t u : State} (h1 : SameButIn s t) (h2 : SameButIn t u) : SameButIn s u := by
  rw [SameButIn] at *; rw [h2, h1]

theorem srcLen_toNat {s : State} (h : s.src.length < 2 ^ 64) : s.srcLen.toNat = s.src.length := by
  rw [State.srcLen, BitVec.toNat_ofNat, Nat.mod_eq_of_lt h]

theorem atEnd_iff {s : State} (h : StoresWf s) : s.srcPos = s.srcLen ↔ s.srcPos.toNat = s.src.length := by
  rw [← srcLen_toNat h.srcLen]
  exact ⟨fun h => congrArg _ h, fun h => BitVec.eq_of_toNat_eq h⟩

theorem remaining_eq {s : State} (h : StoresWf s) : s.remaining = s.rest.length := by
  simp [State.remaining, State.rest, srcLen_toNat h.srcLen]

theorem rest_nil_iff {s : State} (h : StoresWf s) : s.rest = [] ↔ s.srcPos = s.srcLen := by
  have := h.srcPos
  rw [atEnd_iff h, State.rest, List.drop_eq_nil_iff, length_bytes]; omega

theorem pos_succ {s : State} (h : StoresWf s) (hp : s.srcPos.toNat < s.src.length) :
    (s.srcPos + 1).toNat = s.srcPos.toNat + 1 := by
  have := h.srcLen
  rw [BitVec.toNat_add]
  exact Nat.mod_eq_of_lt (by simp; omega)

/-- The next byte of SRC: where it stands and what is left. -/
theorem rest_cons {s : State} {b : Byte} {bs : List Byte} (h : StoresWf s) (hr : s.rest = b :: bs) :
    s.srcPos.toNat < s.src.length ∧ s.src.read s.srcPos.toNat = some b ∧
      s.src.bytes.drop (s.srcPos + 1).toNat = bs := by
  have h1 : s.srcPos.toNat < s.src.bytes.length := by
    by_contra h2
    rw [State.rest, List.drop_eq_nil_of_le (not_lt.1 h2)] at hr
    cases hr
  rw [State.rest, List.drop_eq_getElem_cons h1] at hr
  injection hr with h2 h3
  rw [length_bytes] at h1
  refine ⟨h1, ?_, ?_⟩
  · rw [h.src.read, List.getElem?_eq_getElem (by rwa [length_bytes]), h2]
  · rw [pos_succ h h1, h3]

theorem rest_of_read {s : State} {b : Byte} (h : StoresWf s) (hr : s.src.read s.srcPos.toNat = some b) :
    ∃ bs, s.rest = b :: bs := by
  rw [h.src.read] at hr
  obtain ⟨h1, h2⟩ := List.getElem?_eq_some_iff.1 hr
  exact ⟨_, by rw [State.rest, List.drop_eq_getElem_cons h1, h2]⟩

/-- `src_next()` (rule R53). -/
theorem srcNext_eq {s : State} {b : Byte} {bs : List Byte} (h : StoresWf s) (hr : s.rest = b :: bs) :
    srcNext s = .done b { s with srcPos := s.srcPos + 1 } := by
  rw [srcNext, (rest_cons h hr).2.1]

theorem StoresWf.next {s : State} {b : Byte} {bs : List Byte} (h : StoresWf s) (hr : s.rest = b :: bs) :
    StoresWf { s with srcPos := s.srcPos + 1 } where
  src := h.src
  snk := h.snk
  srcLen := h.srcLen
  srcPos := by rw [pos_succ h (rest_cons h hr).1]; exact (rest_cons h hr).1
  snkLen := h.snkLen

theorem StoresWf.congr {s t : State} (h : StoresWf s) (h1 : t.src = s.src) (h2 : t.snk = s.snk)
    (h3 : t.srcPos = s.srcPos) (h4 : t.snkCap = s.snkCap) : StoresWf t where
  src := by rw [h1]; exact h.src
  snk := by rw [h2]; exact h.snk
  srcLen := by rw [h1]; exact h.srcLen
  srcPos := by rw [h1, h3]; exact h.srcPos
  snkLen := by rw [h2, h4]; exact h.snkLen

/-- The bits of a byte from bit `c` of the stream on. -/
theorem drop_byteBits (v : Byte) {c : Nat} (hc : c < 8) :
    (byteBits v).drop c = v.getLsbD (7 - c) :: (byteBits v).drop (c + 1) := by
  rw [List.drop_eq_getElem_cons (by simpa using hc)]
  congr 1
  simp [byteBits_eq]

theorem takeBit_run (s : State) :
    takeBit s = .done (s.bcBuf.getLsbD (7 - s.bcCur.toNat)) { s with bcCur := s.bcCur + 1 } := rfl

/-- The bits left of the buffer after one more is taken. -/
theorem pendingIn_succ (s : State) :
    ({ s with bcCur := s.bcCur + 1 } : State).pendingIn = (byteBits s.bcBuf).drop (s.bcCur.toNat + 1) := by
  have h8 := cur_lt s
  by_cases h : s.bcCur = 7
  · simp [State.pendingIn, h, byteBits]
  · have h2 : s.bcCur + 1 ≠ 0 := by
      intro h3
      have h4 := congrArg BitVec.toNat h3
      rw [cur_succ h] at h4; simp at h4
    simp only [State.pendingIn, h2, if_false, cur_succ h]

/-- `read_bit()`: it delivers the first of the bits to come (rule R110). -/
theorem readBit_cons {s : State} {b : Bool} {bits : List Bool} (h : StoresWf s) (hb : s.inBits = b :: bits) :
    ∃ t, readBit s = .done b t ∧ SameButIn s t ∧ StoresWf t ∧ t.inBits = bits := by
  by_cases hc : s.bcCur = 0
  · have hp : s.pendingIn = [] := by simp [State.pendingIn, hc]
    cases hr : s.rest with
    | nil => simp [State.inBits, hp, hr] at hb
    | cons v vs =>
      have hne : s.srcPos ≠ s.srcLen := fun he => by rw [(rest_nil_iff h).2 he] at hr; cases hr
      have h1 : refill s = .done () { s with srcPos := s.srcPos + 1, bcBuf := v } := by
        simp [refill, hc, hne, bind_done (srcNext_eq h hr)]
      have h2 : readBit s = .done (v.getLsbD 7) { s with srcPos := s.srcPos + 1, bcBuf := v, bcCur := 1 } := by
        rw [readBit, seq_done h1, takeBit_run]; simp [hc]
      rw [State.inBits, hp, hr, List.nil_append, List.flatMap_cons] at hb
      obtain ⟨h3, h4⟩ : v.getLsbD 7 = b ∧ (byteBits v).drop 1 ++ vs.flatMap byteBits = bits := by
        simpa [byteBits] using hb
      subst h3 h4
      refine ⟨_, h2, rfl, (h.next hr).congr rfl rfl rfl rfl, ?_⟩
      simp only [State.inBits, State.pendingIn, State.rest, (rest_cons h hr).2.2]
      rfl
  · have h1 : refill s = .done () s := by simp only [refill, if_neg hc]
    have h2 : readBit s = .done (s.bcBuf.getLsbD (7 - s.bcCur.toNat)) { s with bcCur := s.bcCur + 1 } := by
      rw [readBit, seq_done h1, takeBit_run]
    rw [State.inBits, State.pendingIn, if_neg hc, drop_byteBits _ (cur_lt s), List.cons_append] at hb
    injection hb with h3 h4
    subst h3 h4
    refine ⟨_, h2, rfl, h.congr rfl rfl rfl rfl, ?_⟩
    rw [State.inBits, pendingIn_succ]; rfl

/-- `read_bit()` with no bit to come: `E_EOF`, and nothing has changed (rule R110). -/
theorem readBit_nil {s : State} (h : StoresWf s) (hb : s.inBits = []) : readBit s = .raised .eof s := by
  obtain ⟨h1, h2⟩ := List.append_eq_nil_iff.1 hb
  have hc : s.bcCur = 0 := by
    by_contra hc
    rw [State.pendingIn, if_neg hc, drop_byteBits _ (cur_lt s)] at h1
    cases h1
  have hr : s.rest = [] := by
    cases hr : s.rest with
    | nil => rfl
    | cons v vs => rw [hr] at h2; simp [byteBits] at h2
  have he := (rest_nil_iff h).1 hr
  have h3 : refill s = .raised .eof s := by simp [refill, hc, he]
  rw [readBit, seq_raised h3]

/-- Eight bits set one after the other are the byte they are the bits of (rule R111). -/
theorem setBits_byteBits (v : Byte) :
    setBit (setBit (setBit (setBit (setBit (setBit (setBit (setBit 0 7 (v.getLsbD 7)) 6 (v.getLsbD 6))
      5 (v.getLsbD 5)) 4 (v.getLsbD 4)) 3 (v.getLsbD 3)) 2 (v.getLsbD 2)) 1 (v.getLsbD 1)) 0 (v.getLsbD 0) = v := by
  revert v; decide +kernel

theorem readByteLoop_cons {s : State} {b : Bool} {bits : List Bool} {n : Nat} {v : Byte} (h : StoresWf s)
    (hb : s.inBits = b :: bits) :
    ∃ t, readByteLoop (n + 1) v s = readByteLoop n (setBit v n b) t ∧ SameButIn s t ∧ StoresWf t ∧
      t.inBits = bits := by
  obtain ⟨t, h1, h2, h3, h4⟩ := readBit_cons h hb
  exact ⟨t, by rw [readByteLoop, bind_done h1], h2, h3, h4⟩

/-- `read_byte()`: the next eight bits (rule R111). -/
theorem readByte_cons {s : State} {v : Byte} {bits : List Bool} (h : StoresWf s)
    (hb : s.inBits = byteBits v ++ bits) :
    ∃ t, readByte s = .done v t ∧ SameButIn s t ∧ StoresWf t ∧ t.inBits = bits := by
  obtain ⟨t1, e1, c1, w1, b1⟩ := readByteLoop_cons (n := 7) (v := 0) h hb
  obtain ⟨t2, e2, c2, w2, b2⟩ := readByteLoop_cons (n := 6) (v := setBit 0 7 (v.getLsbD 7)) w1 b1
  obtain ⟨t3, e3, c3, w3, b3⟩ := readByteLoop_cons (n := 5) w2 b2
  obtain ⟨t4, e4, c4, w4, b4⟩ := readByteLoop_cons (n := 4) w3 b3
  obtain ⟨t5, e5, c5, w5, b5⟩ := readByteLoop_cons (n := 3) w4 b4
  obtain ⟨t6, e6, c6, w6, b6⟩ := readByteLoop_cons (n := 2) w5 b5
  obtain ⟨t7, e7, c7, w7, b7⟩ := readByteLoop_cons (n := 1) w6 b6
  obtain ⟨t8, e8, c8, w8, b8⟩ := readByteLoop_cons (n := 0) w7 b7
  refine ⟨t8, ?_, c1.trans (c2.trans (c3.trans (c4.trans (c5.trans (c6.trans (c7.trans c8)))))), w8, b8⟩
  rw [readByte, e1, e2, e3, e4, e5, e6, e7, e8]
  simp only [readByteLoop, pure_run, setBits_byteBits]

/-- The inner walk of DECODE: a Leaf's path leads to its symbol, and exactly its bits are consumed (R220). -/
theorem walkDown_path {tr : Tree} {s : State} {p : List Bool × Byte} {bits : List Bool} (h : StoresWf s)
    (hp : p ∈ tr.leaves) (hb : s.inBits = p.1 ++ bits) :
    ∃ t, walkDown tr s = .done p.2 t ∧ SameButIn s t ∧ StoresWf t ∧ t.inBits = bits := by
  induction tr generalizing s p with
  | leaf x =>
    simp only [Tree.leaves, List.mem_singleton] at hp
    subst hp
    exact ⟨s, rfl, SameButIn.refl s, h, hb⟩
  | branch l r ihl ihr =>
    rcases List.mem_append.1 hp with hp | hp
    all_goals
      obtain ⟨q, hq, rfl⟩ := List.mem_map.1 hp
      obtain ⟨t, h1, h2, h3, h4⟩ := readBit_cons h hb
    · obtain ⟨u, h5, h6, h7, h8⟩ := ihl h3 hq h4
      exact ⟨u, by rw [walkDown, bind_done h1]; exact h5, h2.trans h6, h7, h8⟩
    · obtain ⟨u, h5, h6, h7, h8⟩ := ihr h3 hq h4
      exact ⟨u, by rw [walkDown, bind_done h1]; exact h5, h2.trans h6, h7, h8⟩

end Sys2Proof.Machine
end

