-- ==== Sys2Proof/Laws/Tables.lean ====
section
/-! SUPPORT. The symbol arrays: read after write, and their extensionality (10_state.md rules R32, R37). -/

namespace Sys2Proof.Machine

variable {α : Type}

theorem Table.get_eq (t : Table α) (x : Byte) : t.entries[x.toNat]? = some (t.get x) := by
  rw [Table.get, List.get_eq_getElem, List.getElem?_eq_getElem]

theorem Table.get_eq_iff (t : Table α) (x : Byte) (v : α) :
    t.get x = v ↔ t.entries[x.toNat]? = some v := by
  rw [t.get_eq, Option.some.injEq]

/-- Read after write. -/
theorem Table.get_set (t : Table α) (y : Byte) (v : α) (x : Byte) :
    (t.set y v).get x = if x = y then v else t.get x := by
  rw [Table.get_eq_iff]
  have hy : y.toNat < t.entries.length := by rw [t.size]; exact y.isLt
  by_cases h : x = y
  · rw [h, if_pos rfl]; exact List.getElem?_set_self hy
  · rw [if_neg h, ← t.get_eq]
    exact List.getElem?_set_ne fun h2 => h (BitVec.eq_of_toNat_eq h2.symm)

@[simp] theorem Table.get_fill (v : α) (x : Byte) : (Table.fill v).get x = v := by
  rw [Table.get_eq_iff, Table.fill]
  exact List.getElem?_replicate_of_lt x.isLt

theorem Table.ext' {t u : Table α} (h : ∀ x, t.get x = u.get x) : t = u := by
  obtain ⟨e, he⟩ := t
  obtain ⟨f, hf⟩ := u
  have : e = f := by
    refine List.ext_getElem (he.trans hf.symm) fun i h1 h2 => ?_
    have h3 : i < 256 := he ▸ h1
    have h4 := h (BitVec.ofNat 8 i)
    simpa [Table.get, Nat.mod_eq_of_lt h3] using h4
  subst this; rfl

theorem Table.get_of_lt (t : Table α) {i : Nat} (h : i < t.entries.length) :
    t.entries[i] = t.get (BitVec.ofNat 8 i) := by
  have h1 : i < 256 := t.size ▸ h
  simp [Table.get, Nat.mod_eq_of_lt h1]

/-- The sum of a table of counts after one entry has changed. -/
theorem Table.sum_set (t : Table Word64) (y : Byte) (v : Word64) :
    ((t.set y v).entries.map BitVec.toNat).sum + (t.get y).toNat =
      (t.entries.map BitVec.toNat).sum + v.toNat := by
  have hy : y.toNat < t.entries.length := by rw [t.size]; exact y.isLt
  have key : ∀ (l : List Word64) (i : Nat) (h : i < l.length),
      ((l.set i v).map BitVec.toNat).sum + l[i].toNat = (l.map BitVec.toNat).sum + v.toNat := by
    intro l
    induction l with
    | nil => intro i h; cases h
    | cons a l ih =>
      intro i h
      cases i with
      | zero => simp; omega
      | succ i => have := ih i (by simpa using h); simp at this ⊢; omega
  simpa [Table.set, Table.get] using key t.entries y.toNat hy

theorem Table.get_le_sum (t : Table Word64) (y : Byte) :
    (t.get y).toNat ≤ (t.entries.map BitVec.toNat).sum := by
  have h : (t.get y).toNat ∈ t.entries.map BitVec.toNat :=
    List.mem_map_of_mem (List.mem_of_getElem? (t.get_eq y))
  exact List.le_sum_of_mem h

theorem Table.sum_zero {t : Table Word64} (h : ∀ x, t.get x = 0) : (t.entries.map BitVec.toNat).sum = 0 := by
  have : t = Table.fill 0 := Table.ext' fun x => by rw [h, Table.get_fill]
  subst this
  show ((List.replicate 256 (0 : Word64)).map BitVec.toNat).sum = 0
  rw [List.map_replicate, List.sum_replicate]; rfl

end Sys2Proof.Machine
end

