-- ==== Sys2Proof/Laws/Arena.lean ====
section
/-! SUPPORT. Trees in the node arena (10_state.md rules R15 and R36): `treeAt` and `visited` as one relation,
and that a tree which reaches no node twice is found whatever the arena's length. -/

namespace Sys2Proof.Machine

/-- From node `i` the arena reads as the tree `t`, reaching the nodes `vs` in pre-order (rule R36). -/
inductive Spans (nodes : List Node) : Nat → Tree → List Nat → Prop where
  | leaf {i : Nat} {x : Byte} (h : nodes[i]? = some (.leaf x)) : Spans nodes i (.leaf x) [i]
  | branch {i : Nat} {l r : NodeIx} {tl tr : Tree} {vl vr : List Nat} (h : nodes[i]? = some (.branch l r))
      (hl : Spans nodes l.toNat tl vl) (hr : Spans nodes r.toNat tr vr) :
      Spans nodes i (.branch tl tr) (i :: (vl ++ vr))

/-- The depth of a tree: 0 for a Leaf. -/
def Tree.depth : Tree → Nat
  | .leaf _ => 0
  | .branch l r => max l.depth r.depth + 1

theorem Spans.depth_lt {nodes : List Node} {i : Nat} {t : Tree} {vs : List Nat} (h : Spans nodes i t vs) :
    t.depth < vs.length := by
  induction h with
  | leaf h => simp [Tree.depth]
  | branch h hl hr ihl ihr => simp [Tree.depth]; omega

/-- Nodes appended to the arena change no tree in it. -/
theorem Spans.append {nodes : List Node} {i : Nat} {t : Tree} {vs : List Nat} (h : Spans nodes i t vs)
    (more : List Node) : Spans (nodes ++ more) i t vs := by
  have old : ∀ {j : Nat} {x : Node}, nodes[j]? = some x → (nodes ++ more)[j]? = some x := fun hj => by
    rw [List.getElem?_append_left (List.getElem?_eq_some_iff.1 hj).1]; exact hj
  induction h with
  | leaf h => exact .leaf (old h)
  | branch h _ _ ihl ihr => exact .branch (old h) ihl ihr

theorem Spans.lt {nodes : List Node} {i : Nat} {t : Tree} {vs : List Nat} (h : Spans nodes i t vs) :
    ∀ j ∈ vs, j < nodes.length := by
  induction h with
  | leaf h =>
    intro j hj
    rw [List.mem_singleton.1 hj]
    exact (List.getElem?_eq_some_iff.1 h).1
  | branch h _ _ ihl ihr =>
    intro j hj
    rcases List.mem_cons.1 hj with rfl | hj
    · exact (List.getElem?_eq_some_iff.1 h).1
    · rcases List.mem_append.1 hj with hj | hj
      · exact ihl j hj
      · exact ihr j hj

/-- `treeAt` and `visited` find it, with fuel enough for its depth. -/
theorem Spans.reads {nodes : List Node} {i : Nat} {t : Tree} {vs : List Nat} (h : Spans nodes i t vs) {fuel : Nat}
    (hf : t.depth < fuel) : treeAt nodes fuel i = some t ∧ visited nodes fuel i = vs := by
  induction h generalizing fuel with
  | leaf h =>
    obtain ⟨f, rfl⟩ : ∃ f, fuel = f + 1 := ⟨fuel - 1, by omega⟩
    simp [treeAt, visited, h]
  | branch h _ _ ihl ihr =>
    obtain ⟨f, rfl⟩ : ∃ f, fuel = f + 1 := ⟨fuel - 1, by omega⟩
    simp only [Tree.depth] at hf
    have h1 := ihl (fuel := f) (by omega)
    have h2 := ihr (fuel := f) (by omega)
    simp [treeAt, visited, h, h1, h2]

theorem spans_of_treeAt {nodes : List Node} {fuel i : Nat} {t : Tree} (h : treeAt nodes fuel i = some t) :
    Spans nodes i t (visited nodes fuel i) := by
  induction fuel generalizing i t with
  | zero => cases h
  | succ f ih =>
    simp only [treeAt] at h
    simp only [visited]
    cases hn : nodes[i]? with
    | none => rw [hn] at h; cases h
    | some x =>
      rw [hn] at h
      cases x with
      | leaf x => simp only at h; injection h with h; subst h; exact .leaf hn
      | branch l r =>
        simp only at h
        cases hl : treeAt nodes f l.toNat with
        | none => rw [hl] at h; cases h
        | some tl =>
          rw [hl] at h
          simp only at h
          cases hr : treeAt nodes f r.toNat with
          | none => rw [hr] at h; cases h
          | some tr =>
            rw [hr] at h
            simp only at h
            injection h with h; subst h
            exact .branch hn (ih hl) (ih hr)

theorem length_le_of_nodup {vs : List Nat} {n : Nat} (h : vs.Nodup) (hlt : ∀ j ∈ vs, j < n) : vs.length ≤ n := by
  have h1 : vs ⊆ List.range n := fun x hx => List.mem_range.2 (hlt x hx)
  simpa using (h.subperm h1).length_le

/-- A tree that reaches no node twice is found, whatever the arena. -/
theorem Spans.found {nodes : List Node} {i : Nat} {t : Tree} {vs : List Nat} (h : Spans nodes i t vs)
    (hn : vs.Nodup) : treeAt nodes nodes.length i = some t ∧ visited nodes nodes.length i = vs :=
  h.reads (lt_of_lt_of_le h.depth_lt (length_le_of_nodup hn h.lt))

/-- What `tree(ROOT)` is for a state whose arena spans a tree from `ROOT`. -/
theorem Spans.tree {s : State} {t : Tree} {vs : List Nat} (h : Spans s.node s.root.toNat t vs) (hn : vs.Nodup) :
    s.tree = some t ∧ visited s.node s.node.length s.root.toNat = vs := h.found hn

@[simp] theorem symbols_leaf (x : Byte) : (Tree.leaf x).symbols = [x] := rfl

@[simp] theorem symbols_branch (l r : Tree) : (Tree.branch l r).symbols = l.symbols ++ r.symbols := by
  simp [Tree.symbols, Tree.leaves, Function.comp_def]

theorem length_leaves (t : Tree) : t.leaves.length = t.symbols.length := by simp [Tree.symbols]

theorem leaves_pos (t : Tree) : 0 < t.leaves.length := by
  induction t with
  | leaf x => exact Nat.one_pos
  | branch l r ihl ihr => simp [Tree.leaves]; omega

/-- The nodes a tree reaches: a Branch less than twice its Leaves. -/
theorem Spans.length {nodes : List Node} {i : Nat} {t : Tree} {vs : List Nat} (h : Spans nodes i t vs) :
    vs.length + 1 = 2 * t.leaves.length := by
  induction h with
  | leaf h => rfl
  | branch h _ _ ihl ihr => simp [Tree.leaves]; omega

/-- `ser` takes `10L - 1` bits (rule R65). -/
theorem length_ser (t : Tree) : t.ser.length + 1 = 10 * t.leaves.length := by
  induction t with
  | leaf x => rfl
  | branch l r ihl ihr => simp [Tree.ser, Tree.leaves]; omega

end Sys2Proof.Machine
end

