-- ==== Sys2Proof/Laws/Frames.lean ====
section
/-! SUPPORT. The frame of every body: which fields of the state it may write, said once for each body and
holding whether it runs to its end or raises (the "Writes:" line of each command's rule). -/

namespace Sys2Proof.Machine

variable {α : Type} {P E : State → Prop}

/-! ## The primitives -/

theorem keeps_srcNext (h : ∀ s v, P s → P { s with srcPos := v }) : srcNext.Keeps P P E := by
  intro s hs
  simp only [srcNext]
  cases s.src.read s.srcPos.toNat with
  | some b => exact h s _ hs
  | none => trivial

theorem keeps_snkAppend (h : ∀ s m, P s → P { s with snk := m }) (v : Byte) : (snkAppend v).Keeps P P P := by
  intro s hs
  simp only [snkAppend]
  cases s.sinkFull
  · exact h s _ hs
  · exact hs

theorem keeps_refill (h : ∀ s p b, P s → P { s with srcPos := p, bcBuf := b }) : refill.Keeps P P P := by
  intro s hs
  simp only [refill]
  by_cases hc : s.bcCur = 0
  · rw [if_pos hc]
    by_cases hp : s.srcPos = s.srcLen
    · rw [if_pos hp]; exact hs
    · rw [if_neg hp]
      simp only [Op.bind, srcNext]
      cases s.src.read s.srcPos.toNat with
      | some b => exact h s _ _ hs
      | none => trivial
  · rw [if_neg hc]; exact hs

theorem keeps_readBit (h : ∀ s p c b, P s → P { s with srcPos := p, bcCur := c, bcBuf := b }) :
    readBit.Keeps P P P :=
  keeps_seq (keeps_refill fun s p b hs => h s p s.bcCur b hs) fun s hs => h s s.srcPos _ s.bcBuf hs

theorem keeps_emitByte (h : ∀ s m b, P s → P { s with snk := m, bcBuf := b }) : emitByte.Keeps P P P := by
  intro s hs
  simp only [emitByte]
  by_cases hc : s.bcCur = 0
  · rw [if_pos hc]
    exact keeps_seq (keeps_snkAppend (fun t m ht => h t m t.bcBuf ht) _)
      (keeps_seq (keeps_modify fun t ht => h t t.snk 0 ht) (keeps_pure true)) s hs
  · rw [if_neg hc]; exact hs

theorem keeps_writeBit (h : ∀ s m c b, P s → P { s with snk := m, bcCur := c, bcBuf := b }) (b : Bool) :
    (writeBit b).Keeps P P P :=
  keeps_seq (keeps_modify fun s hs => h s s.snk _ _ hs) (keeps_emitByte fun s m b hs => h s m s.bcCur b hs)

theorem keeps_writeByte (h : ∀ s m c b, P s → P { s with snk := m, bcCur := c, bcBuf := b }) (v : Byte) :
    (writeByte v).Keeps P P P := keeps_writeBits (keeps_writeBit h) _

theorem keeps_mergeLoop (h : ∀ s w n, P s → P { s with wl := w, node := n }) (n : Nat) :
    (mergeLoop n).Keeps P P P := by
  induction n with
  | zero => exact keeps_skip
  | succ n ih =>
    intro s hs
    rcases hw : s.wl with _ | ⟨x, _ | ⟨y, rest⟩⟩
    · simp only [mergeLoop, hw]; exact hs
    · simp only [mergeLoop, hw]; exact hs
    · simp only [mergeLoop, hw]; exact ih _ (h s _ _ hs)

theorem keeps_flistLoop (h : ∀ s w n c, P s → P { s with wl := w, node := n, cnt := c }) (n : Nat) :
    (flistLoop n).Keeps P P P := by
  induction n with
  | zero => exact keeps_skip
  | succ n ih =>
    intro s hs
    simp only [flistLoop]
    cases lightest s.cnt.entries 0 none with
    | none => exact hs
    | some mc => exact ih _ (h s _ _ _ hs)

theorem keeps_walk (h : ∀ s c d, P s → P { s with code := c, depthOvf := d }) (t : Tree) (p : BitVec 30)
    (n : Nat) : (walk t p n).Keeps P P P := by
  induction t generalizing p n with
  | leaf x =>
    refine keeps_modify fun s hs => ?_
    simp only [State.visitLeaf]
    by_cases hd : n ≤ Config.codeMax
    · rw [if_pos hd]; exact h s _ _ hs
    · rw [if_neg hd]; exact h s _ _ hs
  | branch l r ihl ihr => exact keeps_seq (ihl _ _) (ihr _ _)

theorem keeps_getTree (h1 : ∀ s p c b, P s → P { s with srcPos := p, bcCur := c, bcBuf := b })
    (h2 : ∀ s n, P s → P { s with node := n }) (n : Nat) : (getTree n).Keeps P P P := by
  have room : needRoom.Keeps P P P := fun s hs => by
    simp only [needRoom]
    by_cases hn : s.nodeCnt = Config.nodeMax
    · rw [if_pos hn]; exact hs
    · rw [if_neg hn]; exact hs
  have new : ∀ x, (newNode x).Keeps P P P := fun x s hs => h2 s _ hs
  induction n with
  | zero => exact keeps_seq (keeps_readBit h1) (keeps_raise fun _ hs => hs)
  | succ n ih =>
    refine keeps_bind (keeps_readBit h1) fun m => keeps_seq room ?_
    cases m
    · exact keeps_bind (keeps_readByte (keeps_readBit h1)) fun x => new _
    · exact keeps_bind (new (.branch 0 0)) fun i => keeps_bind ih fun l => keeps_bind ih fun r =>
        keeps_seq (x := fillNode i l r) (fun s hs => h2 s _ hs) (keeps_pure i)

theorem keeps_needTree_same (hE : ∀ s, P s → E s) : needTree.Keeps P P E :=
  keeps_mono (keeps_needTree hE) (fun _ h => h) (fun _ h => h.1) (fun _ h => h)

theorem keeps_needDir_same (d : Dir) (hE : ∀ s, P s → E s) : (needDir d).Keeps P P E :=
  keeps_mono (keeps_needDir d hE) (fun _ h => h) (fun _ h => h.1) (fun _ h => h)

theorem keeps_encodeByte (h : ∀ b, (writeBit b).Keeps P P P) (b : Byte) : (encodeByte b).Keeps P P P := by
  intro s hs
  simp only [encodeByte]
  cases (s.code.get b).valid
  · exact hs
  · exact keeps_writeBits h _ s hs

theorem keeps_takeHeader (h : ∀ s v p, P s → P { s with size := v, srcPos := p }) :
    takeHeader.Keeps P P P := by
  intro s hs
  simp only [takeHeader]
  by_cases hl : s.srcLen - s.srcPos < 8
  · rw [if_pos hl]; exact hs
  · rw [if_neg hl]
    cases memRead s.src s.srcPos.toNat Config.sizeBytes with
    | none => trivial
    | some bs => exact h s _ _ hs

theorem keeps_takeRoot (h : ∀ s w c v r, P s → P { s with wl := w, checksum := c, treeValid := v, root := r }) :
    takeRoot.Keeps P P P := by
  intro s hs
  simp only [takeRoot]
  cases s.wl with
  | nil => exact hs
  | cons x xs => exact h s _ _ _ _ hs

theorem keeps_needChecksum : needChecksum.Keeps P P P := by
  intro s hs
  simp only [needChecksum]
  by_cases hc : s.checksum = s.srcLen
  · rw [if_pos hc]; exact hs
  · rw [if_neg hc]; exact hs

/-! ## What each body writes

`e` sets the fields that the body may write to a fixed value; the body keeps every other field. -/

/-- The body keeps every field that `e` keeps. -/
def Op.Writes (x : Op α) (e : State → State) : Prop :=
  ∀ s, x.Keeps (fun t => e t = e s) (fun t => e t = e s) (fun t => e t = e s)

theorem Op.Writes.done {x : Op α} {e : State → State} (h : x.Writes e) {s t : State} {a : α}
    (hx : x s = .done a t) : e t = e s := (h s).done rfl hx

theorem Op.Writes.raised {x : Op α} {e : State → State} (h : x.Writes e) {s t : State} {c : Cause}
    (hx : x s = .raised c t) : e t = e s := (h s).raised rfl hx

/-- A body that writes less writes no more. -/
theorem Op.Writes.mono {x : Op α} {e e' : State → State} (h : x.Writes e) (he : ∀ s, e' (e s) = e' s) :
    x.Writes e' := by
  intro s t ht
  have h1 := h t t rfl
  cases hx : x t with
  | done a u =>
    rw [hx] at h1
    have h2 : e u = e t := h1
    show e' u = e' s
    rw [← he u, h2, he t, ht]
  | raised c u =>
    rw [hx] at h1
    have h2 : e u = e t := h1
    show e' u = e' s
    rw [← he u, h2, he t, ht]
  | stuck r => trivial

theorem Op.Writes.seq {x : Op α} {y : Op Unit} {e : State → State} (hx : x.Writes e) (hy : y.Writes e) :
    (x.seq y).Writes e := fun s => keeps_seq (hx s) (hy s)

/-- Without the fields that written bits reach. -/
def eraseOut (s : State) : State :=
  { s with snk := [], bcCur := 0, bcBuf := 0 }

/-- Without the fields that read bits reach. -/
def eraseIn (s : State) : State :=
  { s with srcPos := 0, bcCur := 0, bcBuf := 0 }

/-- Without the channel. -/
def eraseChannel (s : State) : State :=
  { s with bcDir := .closed, bcCur := 0, bcBuf := 0 }

/-- Without the arena, the work list and the tree. -/
def eraseTree (s : State) : State :=
  { s with node := [], wl := [], treeValid := false, root := 0 }

theorem writeBit_writes (b : Bool) : (writeBit b).Writes eraseOut := fun _ =>
  keeps_writeBit (fun _ _ _ _ h => h) b

theorem readBit_writes : readBit.Writes eraseIn := fun _ => keeps_readBit fun _ _ _ _ h => h

theorem srcNext_writes : srcNext.Writes fun s => { s with srcPos := 0 } := fun _ => keeps_srcNext fun _ _ h => h

theorem snkAppend_writes (v : Byte) : (snkAppend v).Writes fun s => { s with snk := [] } := fun _ =>
  keeps_snkAppend (fun _ _ h => h) v

theorem needDir_writes (d : Dir) : (needDir d).Writes id := fun _ => keeps_needDir_same d fun _ h => h

theorem opNop_writes : opNop.Writes id := fun _ => keeps_skip

theorem opRewind_writes : opRewind.Writes fun s => { s with srcPos := 0 } := fun _ => keeps_modify fun _ h => h

theorem opLdSize_writes : opLdSize.Writes fun s => { s with size := 0 } := fun _ => keeps_modify fun _ h => h

theorem opOpenRd_writes : opOpenRd.Writes eraseChannel := fun _ => keeps_modify fun _ h => h

theorem opOpenWr_writes : opOpenWr.Writes eraseChannel := fun _ => keeps_modify fun _ h => h

theorem opRdBit_writes : opRdBit.Writes fun s => { eraseIn s with res := 0 } := fun _ =>
  keeps_seq (keeps_needDir_same _ fun _ h => h) <|
    keeps_bind (keeps_readBit fun _ _ _ _ h => h) fun _ => keeps_modify fun _ h => h

theorem opRdByte_writes : opRdByte.Writes fun s => { eraseIn s with res := 0 } := fun _ =>
  keeps_seq (keeps_needDir_same _ fun _ h => h) <|
    keeps_bind (keeps_readByte (keeps_readBit fun _ _ _ _ h => h)) fun _ => keeps_modify fun _ h => h

theorem opWrBit_writes (b : Bool) : (opWrBit b).Writes fun s => { eraseOut s with res := 0 } := fun _ =>
  keeps_seq (keeps_needDir_same _ fun _ h => h) <|
    keeps_bind (keeps_writeBit (fun _ _ _ _ h => h) b) fun _ => keeps_modify fun _ h => h

theorem opWrByte_writes (v : Byte) : (opWrByte v).Writes eraseOut := fun s =>
  keeps_seq (keeps_needDir_same _ fun _ h => h) (keeps_writeBits (fun b => writeBit_writes b s) _)

theorem opFlush_writes : opFlush.Writes eraseOut := fun s =>
  keeps_seq (keeps_needDir_same _ fun _ h => h) (keeps_flushLoop (fun b => writeBit_writes b s) _)

theorem opRdSize_writes : opRdSize.Writes fun s => { s with size := 0, srcPos := 0 } := fun _ =>
  keeps_seq (keeps_needDir_same _ fun _ h => h) (keeps_takeHeader fun _ _ _ h => h)

theorem opWrSize_writes : opWrSize.Writes eraseOut := fun s =>
  keeps_seq (keeps_needDir_same _ fun _ h => h) <|
    keeps_bind (keeps_get _) fun _ => keeps_writeBytes (fun b => writeBit_writes b s) _

theorem opCntDistinct_writes : opCntDistinct.Writes fun s => { s with distinct := 0, srcPos := 0 } := fun _ =>
  keeps_bind (keeps_get _) fun n =>
    keeps_bind (keeps_distinctLoop (keeps_srcNext fun _ _ h => h) n [] 0) fun _ => keeps_modify fun _ h => h

theorem keeps_bump (h : ∀ s c, P s → P { s with cnt := c }) (b : Byte) : (bump b).Keeps P P E :=
  keeps_modify fun s hs => h s _ hs

theorem opHist_writes : opHist.Writes fun s => { s with cnt := Table.fill 0, srcPos := 0 } := fun _ =>
  keeps_seq (keeps_modify fun _ h => h) <|
    keeps_bind (keeps_get _) fun n =>
      keeps_seq (keeps_forSrc (keeps_srcNext fun _ _ h => h) (keeps_bump fun _ _ h => h) n)
        (keeps_modify fun _ h => h)

theorem opFlist_writes : opFlist.Writes fun s => { eraseTree s with cnt := Table.fill 0 } := fun _ =>
  keeps_seq (keeps_modify fun _ h => h) (keeps_flistLoop (fun _ _ _ _ h => h) _)

theorem opBuildTree_writes : opBuildTree.Writes fun s => { eraseTree s with checksum := 0 } := fun s t h => by
  simp only [opBuildTree]
  by_cases hl : t.wlLen = 0
  · rw [if_pos hl]; exact h
  · rw [if_neg hl]
    exact keeps_seq (keeps_mergeLoop (fun _ _ _ h => h) _) (keeps_takeRoot fun _ _ _ _ _ h => h) t h

theorem opGenCodes_writes :
    opGenCodes.Writes fun s => { s with code := Table.fill CodeEntry.none, depthOvf := false } := fun _ =>
  keeps_bind (keeps_needTree_same fun _ h => h) fun tr =>
    keeps_seq (keeps_modify fun _ h => h) (keeps_walk (fun _ _ _ h => h) tr 0 0)

theorem opWrTree_writes : opWrTree.Writes eraseOut := fun s =>
  keeps_seq (keeps_needDir_same _ fun _ h => h) <|
    keeps_bind (keeps_needTree_same fun _ h => h) fun tr => keeps_putTree (fun b => writeBit_writes b s) tr

theorem opRdTree_writes : opRdTree.Writes fun s => eraseTree (eraseIn s) := fun _ =>
  keeps_seq (keeps_needDir_same _ fun _ h => h) <|
    keeps_seq (keeps_modify fun _ h => h) <|
      keeps_seq (keeps_getTree (fun _ _ _ _ h => h) (fun _ _ h => h) _) (keeps_modify fun _ h => h)

theorem opEncode_writes : opEncode.Writes fun s => { eraseOut s with srcPos := 0 } := fun _ =>
  keeps_seq (keeps_needDir_same _ fun _ h => h) <|
    keeps_bind (keeps_get _) fun n =>
      keeps_forSrc (keeps_srcNext fun _ _ h => h)
        (fun b => keeps_encodeByte (keeps_writeBit fun _ _ _ _ h => h) b) n

theorem opDecode_writes : opDecode.Writes fun s => { eraseOut s with srcPos := 0 } := fun _ =>
  keeps_seq (keeps_needDir_same _ fun _ h => h) <|
    keeps_bind (keeps_needTree_same fun _ h => h) fun tr =>
      keeps_bind (keeps_get _) fun n =>
        keeps_times (keeps_bind (keeps_walkDown (keeps_readBit fun _ _ _ _ h => h) tr)
          fun x => keeps_snkAppend (fun _ _ h => h) x) n.toNat

/-- Without the fields that COMPRESS reaches. -/
def eraseCompress (s : State) : State :=
  { eraseTree (eraseChannel s) with
    snk := [], srcPos := 0, size := 0, checksum := 0, cnt := Table.fill 0
    code := Table.fill CodeEntry.none, depthOvf := false }

theorem compressFront_writes : compressFront.Writes eraseCompress :=
  (opRewind_writes.mono fun _ => rfl).seq <| (opOpenWr_writes.mono fun _ => rfl).seq <|
    (opHist_writes.mono fun _ => rfl).seq <| (opFlist_writes.mono fun _ => rfl).seq <|
      opBuildTree_writes.mono fun _ => rfl

theorem compressBack_writes : compressBack.Writes eraseCompress :=
  (opGenCodes_writes.mono fun _ => rfl).seq <| (opLdSize_writes.mono fun _ => rfl).seq <|
    (opWrSize_writes.mono fun _ => rfl).seq <| (opWrTree_writes.mono fun _ => rfl).seq <|
      (opEncode_writes.mono fun _ => rfl).seq <| opFlush_writes.mono fun _ => rfl

theorem opCompress_writes : opCompress.Writes eraseCompress :=
  compressFront_writes.seq (Op.Writes.seq (fun _ => keeps_needChecksum) compressBack_writes)

/-- Without the fields that DECOMPRESS reaches. -/
def eraseDecompress (s : State) : State :=
  { eraseTree (eraseChannel s) with snk := [], srcPos := 0, size := 0 }

theorem opDecompress_writes : opDecompress.Writes eraseDecompress :=
  (opRewind_writes.mono fun _ => rfl).seq <| (opOpenRd_writes.mono fun _ => rfl).seq <|
    (opRdSize_writes.mono fun _ => rfl).seq <| (opRdTree_writes.mono fun _ => rfl).seq <|
      opDecode_writes.mono fun _ => rfl

/-! ## Every command at once -/

/-- A command's body. -/
def bodyOf : Instr → Op Unit
  | .nop => opNop
  | .rewind => opRewind
  | .ldSize => opLdSize
  | .openRd => opOpenRd
  | .openWr => opOpenWr
  | .rdBit => opRdBit
  | .rdByte => opRdByte
  | .wrBit b => opWrBit b
  | .wrByte v => opWrByte v
  | .flush => opFlush
  | .rdSize => opRdSize
  | .wrSize => opWrSize
  | .cntDistinct => opCntDistinct
  | .hist => opHist
  | .flist => opFlist
  | .buildTree => opBuildTree
  | .genCodes => opGenCodes
  | .wrTree => opWrTree
  | .rdTree => opRdTree
  | .encode => opEncode
  | .decode => opDecode
  | .compress => opCompress
  | .decompress => opDecompress

/-- `exec` is the body and then the end of the command. -/
theorem exec_eq (i : Instr) (s : State) : exec i s = complete (bodyOf i) s := by cases i <;> rfl

/-- Without the fields that the command's body reaches. -/
def eraseOf : Instr → State → State
  | .nop => id
  | .rewind => fun s => { s with srcPos := 0 }
  | .ldSize => fun s => { s with size := 0 }
  | .openRd | .openWr => eraseChannel
  | .rdBit | .rdByte => fun s => { eraseIn s with res := 0 }
  | .wrBit _ => fun s => { eraseOut s with res := 0 }
  | .wrByte _ | .flush | .wrSize | .wrTree => eraseOut
  | .rdSize => fun s => { s with size := 0, srcPos := 0 }
  | .cntDistinct => fun s => { s with distinct := 0, srcPos := 0 }
  | .hist => fun s => { s with cnt := Table.fill 0, srcPos := 0 }
  | .flist => fun s => { eraseTree s with cnt := Table.fill 0 }
  | .buildTree => fun s => { eraseTree s with checksum := 0 }
  | .genCodes => fun s => { s with code := Table.fill CodeEntry.none, depthOvf := false }
  | .rdTree => fun s => eraseTree (eraseIn s)
  | .encode | .decode => fun s => { eraseOut s with srcPos := 0 }
  | .compress => eraseCompress
  | .decompress => eraseDecompress

theorem bodyOf_writes (i : Instr) : (bodyOf i).Writes (eraseOf i) := by
  cases i with
  | nop => exact opNop_writes
  | rewind => exact opRewind_writes
  | ldSize => exact opLdSize_writes
  | openRd => exact opOpenRd_writes
  | openWr => exact opOpenWr_writes
  | rdBit => exact opRdBit_writes
  | rdByte => exact opRdByte_writes
  | wrBit b => exact opWrBit_writes b
  | wrByte v => exact opWrByte_writes v
  | flush => exact opFlush_writes
  | rdSize => exact opRdSize_writes
  | wrSize => exact opWrSize_writes
  | cntDistinct => exact opCntDistinct_writes
  | hist => exact opHist_writes
  | flist => exact opFlist_writes
  | buildTree => exact opBuildTree_writes
  | genCodes => exact opGenCodes_writes
  | wrTree => exact opWrTree_writes
  | rdTree => exact opRdTree_writes
  | encode => exact opEncode_writes
  | decode => exact opDecode_writes
  | compress => exact opCompress_writes
  | decompress => exact opDecompress_writes

/-- All that a command can do when it answers a next state: its body ended in `v`, which differs from `s` at
most in the body's fields, and then either `pc` advanced or fault entry was made (rule R103). -/
theorem exec_next {i : Instr} {s t : State} (h : exec i s = .next t) :
    ∃ v, eraseOf i v = eraseOf i s ∧
      ((∃ u, bodyOf i s = .done u v ∧ t = v.advancePc) ∨ (∃ c, bodyOf i s = .raised c v ∧ t = v.takeFault c)) := by
  rw [exec_eq] at h
  rcases complete_next h with ⟨u, v, h1, h2⟩ | ⟨c, v, h1, h2⟩
  · exact ⟨v, (bodyOf_writes i).done h1, .inl ⟨u, h1, h2⟩⟩
  · exact ⟨v, (bodyOf_writes i).raised h1, .inr ⟨c, h1, h2⟩⟩

/-- All that a step can do when it answers a next state (rule R103). -/
theorem step_next {s t : State} (h : step s = .next t) :
    s.fault = false ∧ ∃ w, s.prog[s.pc]? = some w ∧
      ((∃ e, Sys2Proof.decode w = .error e ∧ t = s.takeFault .illegal) ∨
        (∃ i, Sys2Proof.decode w = .ok i ∧ exec i s = .next t)) := by
  rw [step] at h
  cases hf : s.fault with
  | true => rw [hf] at h; cases h
  | false =>
    rw [hf, if_neg (by simp)] at h
    refine ⟨rfl, ?_⟩
    cases hw : fetch s with
    | none => rw [hw] at h; cases h
    | some w =>
      rw [hw] at h
      refine ⟨w, hw, ?_⟩
      cases hd : Sys2Proof.decode w with
      | error e => simp only [hd] at h; injection h with h; exact .inl ⟨e, rfl, h.symm⟩
      | ok i => simp only [hd] at h; exact .inr ⟨i, rfl, h⟩

end Sys2Proof.Machine
end

