-- ==== Sys2Proof/Laws/Causes.lean ====
section
/-! SUPPORT. Which faults each body can raise (60_exceptions.md rule R250). -/

namespace Sys2Proof.Machine

variable {α β : Type} {P Q : State → Prop} {C : List Cause}

/-- From a state with `P` the body raises nothing but the faults of `C`. -/
def Op.Raises (P : State → Prop) (x : Op α) (C : List Cause) : Prop :=
  ∀ s c t, P s → x s = .raised c t → c ∈ C

/-- Any state. -/
def Any : State → Prop := fun _ => True

/-- Any next state. -/
theorem keeps_any (x : Op α) : x.Keeps P Any Any := by
  intro s _
  cases x s <;> trivial

theorem raises_bind {x : Op α} {f : α → Op β} (hx : x.Raises P C) (hk : x.Keeps P Q Any)
    (hf : ∀ a, (f a).Raises Q C) : (x.bind f).Raises P C := by
  intro s c t hs h
  cases hxs : x s with
  | done a u => rw [bind_done hxs] at h; exact hf a u c t (hk.done hs hxs) h
  | raised c' u =>
    rw [bind_raised hxs] at h
    injection h with h1 h2
    exact h1 ▸ hx s c' u hs hxs
  | stuck r => simp only [Op.bind, hxs] at h; cases h

theorem raises_seq {x : Op α} {y : Op β} (hx : x.Raises P C) (hk : x.Keeps P Q Any) (hy : y.Raises Q C) :
    (x.seq y).Raises P C := raises_bind hx hk fun _ => hy

theorem raises_done {x : Op α} (h : ∀ s c t, x s ≠ .raised c t) : x.Raises P C :=
  fun s c t _ hx => absurd hx (h s c t)

theorem raises_modify (f : State → State) : (Op.modify f).Raises P C := raises_done fun _ _ _ h => by cases h
theorem raises_get (f : State → α) : (Op.get f).Raises P C := raises_done fun _ _ _ h => by cases h
theorem raises_pure (a : α) : (Op.pure a).Raises P C := raises_done fun _ _ _ h => by cases h
theorem raises_skip : Op.skip.Raises P C := raises_pure ()

theorem Op.Raises.mono {x : Op α} {P' : State → Prop} {C' : List Cause} (h : x.Raises P C)
    (hP : ∀ s, P' s → P s) (hC : ∀ c ∈ C, c ∈ C') : x.Raises P' C' :=
  fun s c t hs hx => hC c (h s c t (hP s hs) hx)

theorem raises_needDir (d : Dir) (h : Cause.dir ∈ C) : (needDir d).Raises P C := by
  intro s c t _ hx
  simp only [needDir] at hx
  split_ifs at hx
  injection hx with h1 _
  exact h1 ▸ h

theorem raises_needDir_open (d : Dir) : (needDir d).Raises (fun s => s.bcDir = d) C := by
  intro s c t hs hx
  rw [needDir_ok hs] at hx; cases hx

theorem raises_needTree (h : Cause.notree ∈ C) : needTree.Raises P C := by
  intro s c t _ hx
  by_cases hv : s.treeValid = false
  · rw [needTree_bad hv] at hx
    injection hx with h1 _
    exact h1 ▸ h
  · simp only [needTree, if_neg hv] at hx
    split at hx <;> cases hx

theorem raises_needTree_valid : needTree.Raises (fun s => s.treeValid = true) C := by
  intro s c t hs hx
  simp only [needTree, hs] at hx
  simp only [Bool.true_eq_false, if_false] at hx
  split at hx <;> cases hx

theorem raises_srcNext : srcNext.Raises P C := raises_done fun s c t h => by
  simp only [srcNext] at h
  split at h <;> cases h

theorem raises_snkAppend (h : Cause.io ∈ C) (v : Byte) : (snkAppend v).Raises P C := by
  intro s c t _ hx
  simp only [snkAppend] at hx
  split_ifs at hx
  injection hx with h1 _
  exact h1 ▸ h

theorem raises_readBit (h : Cause.eof ∈ C) : readBit.Raises P C := by
  refine raises_seq (Q := Any) (fun s c t _ hx => ?_) (keeps_any _) (raises_done fun _ _ _ h => by cases h)
  simp only [refill] at hx
  split_ifs at hx
  · injection hx with h1 _
    exact h1 ▸ h
  · exact (raises_bind (P := Any) (Q := Any) raises_srcNext (keeps_any _) fun _ => raises_modify _) s c t trivial hx

theorem raises_writeBit (h : Cause.io ∈ C) (b : Bool) : (writeBit b).Raises P C := by
  refine raises_seq (Q := Any) (raises_modify _) (keeps_any _) fun s c t _ hx => ?_
  simp only [emitByte] at hx
  split_ifs at hx
  exact (raises_seq (P := Any) (Q := Any) (raises_snkAppend h _) (keeps_any _)
    (raises_seq (Q := Any) (raises_modify _) (keeps_any _) (raises_pure true))) s c t trivial hx

theorem raises_writeBits (h : Cause.io ∈ C) (bs : List Bool) : (writeBits bs).Raises P C := by
  induction bs generalizing P with
  | nil => exact raises_skip
  | cons b bs ih => exact raises_seq (Q := Any) (raises_writeBit h b) (keeps_any _) ih

theorem raises_flushLoop (h : Cause.io ∈ C) (n : Nat) : (flushLoop n).Raises P C := by
  induction n generalizing P with
  | zero => exact raises_skip
  | succ n ih =>
    intro s c t hs hx
    simp only [flushLoop] at hx
    split_ifs at hx
    exact (raises_seq (Q := Any) (raises_writeBit h false) (keeps_any _) ih) s c t hs hx

theorem raises_readByteLoop (h : Cause.eof ∈ C) (n : Nat) (v : Byte) : (readByteLoop n v).Raises P C := by
  induction n generalizing P v with
  | zero => exact raises_pure v
  | succ n ih => exact raises_bind (Q := Any) (raises_readBit h) (keeps_any _) fun _ => ih _

theorem raises_forSrc {body : Byte → Op Unit} (h : ∀ b, (body b).Raises Any C) (n : Nat) :
    (forSrc body n).Raises P C := by
  induction n generalizing P with
  | zero => exact raises_skip
  | succ n ih =>
    exact raises_seq (Q := Any) (raises_bind (Q := Any) raises_srcNext (keeps_any _) h) (keeps_any _) ih

theorem raises_times {body : Op Unit} (h : body.Raises Any C) (n : Nat) : (times n body).Raises P C := by
  induction n generalizing P with
  | zero => exact raises_skip
  | succ n ih => exact raises_seq (Q := Any) (h.mono (fun _ _ => trivial) fun _ hc => hc) (keeps_any _) ih

theorem raises_distinctLoop (n : Nat) (seen : List Byte) (d : BitVec 9) :
    (distinctLoop n seen d).Raises P C := by
  induction n generalizing P seen d with
  | zero => exact raises_pure d
  | succ n ih =>
    simp only [distinctLoop]
    split_ifs
    · exact raises_pure d
    · refine raises_bind (Q := Any) raises_srcNext (keeps_any _) fun b => ?_
      split_ifs
      · exact ih _ _
      · exact ih _ _

theorem raises_flistLoop (n : Nat) : (flistLoop n).Raises P C := by
  induction n generalizing P with
  | zero => exact raises_skip
  | succ n ih =>
    intro s c t _ hx
    simp only [flistLoop] at hx
    split at hx
    · cases hx
    · exact ih _ c t (show Any _ from trivial) hx

theorem raises_mergeLoop (n : Nat) : (mergeLoop n).Raises P C := by
  induction n generalizing P with
  | zero => exact raises_skip
  | succ n ih =>
    intro s c t _ hx
    simp only [mergeLoop] at hx
    split at hx
    · exact ih _ c t (show Any _ from trivial) hx
    · cases hx

theorem raises_walk (t : Tree) (p : BitVec 30) (n : Nat) : (walk t p n).Raises P C := by
  induction t generalizing P p n with
  | leaf x => exact raises_modify _
  | branch l r ihl ihr => exact raises_seq (Q := Any) (ihl _ _) (keeps_any _) (ihr _ _)

theorem raises_walkDown (h : Cause.eof ∈ C) (t : Tree) : (walkDown t).Raises P C := by
  induction t generalizing P with
  | leaf x => exact raises_pure x
  | branch l r ihl ihr =>
    refine raises_bind (Q := Any) (raises_readBit h) (keeps_any _) fun d => ?_
    cases d
    · exact ihl
    · exact ihr

theorem raises_getTree (h1 : Cause.eof ∈ C) (h2 : Cause.treeOvf ∈ C) (n : Nat) : (getTree n).Raises P C := by
  have room : needRoom.Raises Any C := fun s c t _ hx => by
    simp only [needRoom] at hx
    split_ifs at hx
    injection hx with h _
    exact h ▸ h2
  have new : ∀ x, (newNode x).Raises Any C := fun x => raises_done fun _ _ _ h => by cases h
  induction n generalizing P with
  | zero =>
    refine raises_seq (Q := Any) (raises_readBit h1) (keeps_any _) fun s c t _ hx => ?_
    injection hx with h _
    exact h ▸ h2
  | succ n ih =>
    refine raises_bind (Q := Any) (raises_readBit h1) (keeps_any _) fun m =>
      raises_seq (Q := Any) room (keeps_any _) ?_
    cases m
    · exact raises_bind (Q := Any) (raises_readByteLoop h1 8 0) (keeps_any _) fun x => new _
    · exact raises_bind (Q := Any) (new (.branch 0 0)) (keeps_any _) fun i =>
        raises_bind (Q := Any) ih (keeps_any _) fun l => raises_bind (Q := Any) ih (keeps_any _) fun r =>
          raises_seq (x := fillNode i l r) (Q := Any) (raises_modify _) (keeps_any _) (raises_pure i)

/-! ## What follows `need_dir` and `need_tree` in each body -/

theorem raises_writeBytes (h : Cause.io ∈ C) (vs : List Byte) : (writeBytes vs).Raises P C := by
  rw [writeBytes_eq]; exact raises_writeBits h _

theorem raises_putTree (h : Cause.io ∈ C) (t : Tree) : (putTree t).Raises P C := by
  rw [putTree_eq]; exact raises_writeBits h _

theorem raises_takeHeader (h : Cause.header ∈ C) : takeHeader.Raises P C := by
  intro s c t _ hx
  simp only [takeHeader] at hx
  split at hx
  · injection hx with h1 _
    exact h1 ▸ h
  · split at hx <;> cases hx

theorem raises_encodeByte (h1 : Cause.nocode ∈ C) (h2 : Cause.io ∈ C) (b : Byte) :
    (encodeByte b).Raises P C := by
  intro s c t _ hx
  simp only [encodeByte] at hx
  split_ifs at hx
  · injection hx with h _
    exact h ▸ h1
  · exact raises_writeBits (P := Any) h2 _ s c t trivial hx

theorem raises_decodeLoop (h1 : Cause.eof ∈ C) (h2 : Cause.io ∈ C) (t : Tree) (n : Nat) :
    (times n ((walkDown t).bind snkAppend)).Raises P C :=
  raises_times (raises_bind (Q := Any) (raises_walkDown h1 t) (keeps_any _) fun _ => raises_snkAppend h2 _) n

theorem raises_opHist : opHist.Raises P C :=
  raises_seq (Q := Any) (raises_modify _) (keeps_any _) <|
    raises_bind (Q := Any) (raises_get _) (keeps_any _) fun n =>
      raises_seq (Q := Any) (raises_forSrc (fun _ => raises_modify _) n) (keeps_any _) (raises_modify _)

theorem raises_opFlist : opFlist.Raises P C :=
  raises_seq (Q := Any) (raises_modify _) (keeps_any _) (raises_flistLoop _)

theorem raises_opBuildTree (h : Cause.empty ∈ C) : opBuildTree.Raises P C := by
  intro s c t hs hx
  simp only [opBuildTree] at hx
  split_ifs at hx
  · injection hx with h1 _
    exact h1 ▸ h
  · refine (raises_seq (P := Any) (Q := Any) (raises_mergeLoop _) (keeps_any _) ?_) s c t trivial hx
    intro s c t _ hx
    simp only [takeRoot] at hx
    split at hx
    · injection hx with h1 _
      exact h1 ▸ h
    · cases hx

/-- A tree is left where BUILD_TREE ran to its end. -/
theorem opBuildTree_valid : opBuildTree.Keeps P (fun s => s.treeValid = true) Any := by
  intro s _
  cases h : opBuildTree s with
  | raised c t => trivial
  | stuck r => trivial
  | done u t =>
    simp only [opBuildTree] at h
    split_ifs at h
    obtain ⟨_, v, _, h2⟩ := seq_eq_done h
    simp only [takeRoot] at h2
    split at h2
    · cases h2
    · injection h2 with _ h2; subst h2; rfl

/-- A property that a body's fields do not bear on is kept by it. -/
theorem Op.Writes.keeps {x : Op α} {e : State → State} (h : x.Writes e) (hP : ∀ s t, e t = e s → P s → P t) :
    x.Keeps P P Any := by
  intro s hs
  have h1 := h s s rfl
  cases hx : x s with
  | done a t => rw [hx] at h1; exact hP s t h1 hs
  | raised c t => trivial
  | stuck r => trivial

/-! ## Every command (rule R250) -/

theorem raises_compressBack : compressBack.Raises
    (fun s => s.bcDir = .wr ∧ s.treeValid = true) [.empty, .checksum, .nocode, .io] := by
  have keep : ∀ {e : State → State} {x : Op Unit}, x.Writes e →
      (∀ s, (e s).bcDir = s.bcDir ∧ (e s).treeValid = s.treeValid) →
      x.Keeps (fun s => s.bcDir = .wr ∧ s.treeValid = true) (fun s => s.bcDir = .wr ∧ s.treeValid = true) Any :=
    fun {e x} hx he => hx.keeps fun s t h hs => by
      have h1 := congrArg State.bcDir h
      have h2 := congrArg State.treeValid h
      rw [(he _).1, (he _).1] at h1
      rw [(he _).2, (he _).2] at h2
      exact ⟨h1.trans hs.1, h2.trans hs.2⟩
  have dir : ∀ {y : Op Unit} {C : List Cause}, y.Raises Any C →
      ((needDir .wr).seq y).Raises (fun s => s.bcDir = .wr ∧ s.treeValid = true) C := fun hy =>
    raises_seq ((raises_needDir_open .wr).mono (fun _ h => h.1) fun _ h => h) (keeps_any _) hy
  refine raises_seq (Q := fun s => s.bcDir = .wr ∧ s.treeValid = true) ?_
    (keep opGenCodes_writes fun _ => ⟨rfl, rfl⟩) ?_
  · exact raises_bind (raises_needTree_valid.mono (fun _ h => h.2) fun _ h => h) (keeps_any _) fun t =>
      raises_seq (Q := Any) (raises_modify _) (keeps_any _) (raises_walk t 0 0)
  refine raises_seq (Q := fun s => s.bcDir = .wr ∧ s.treeValid = true) (raises_modify _)
    (keep opLdSize_writes fun _ => ⟨rfl, rfl⟩) ?_
  refine raises_seq (Q := fun s => s.bcDir = .wr ∧ s.treeValid = true)
    (dir (raises_bind (Q := Any) (raises_get _) (keeps_any _) fun v => raises_writeBytes (by simp) _))
    (keep opWrSize_writes fun _ => ⟨rfl, rfl⟩) ?_
  refine raises_seq (Q := fun s => s.bcDir = .wr ∧ s.treeValid = true)
    (raises_seq (Q := fun s => s.bcDir = .wr ∧ s.treeValid = true)
      ((raises_needDir_open .wr).mono (fun _ h => h.1) fun _ h => h)
      (keep (needDir_writes .wr) fun _ => ⟨rfl, rfl⟩)
      (raises_bind (raises_needTree_valid.mono (fun _ h => h.2) fun _ h => h) (keeps_any _) fun t =>
        raises_putTree (by simp) t))
    (keep opWrTree_writes fun _ => ⟨rfl, rfl⟩) ?_
  exact raises_seq (Q := fun s => s.bcDir = .wr ∧ s.treeValid = true)
    (dir (raises_bind (Q := Any) (raises_get _) (keeps_any _) fun n =>
      raises_forSrc (fun b => raises_encodeByte (by simp) (by simp) b) n))
    (keep opEncode_writes fun _ => ⟨rfl, rfl⟩)
    (dir (raises_flushLoop (by simp) 7))

theorem raises_opCompress : opCompress.Raises P [.empty, .checksum, .nocode, .io] := by
  have keep : ∀ {e : State → State} {x : Op Unit}, x.Writes e → (∀ s, (e s).bcDir = s.bcDir) →
      x.Keeps (fun s => s.bcDir = .wr) (fun s => s.bcDir = .wr) Any := fun hx he =>
    hx.keeps fun s t h hs => by
      have h1 := congrArg State.bcDir h
      rw [he, he] at h1
      exact h1.trans hs
  have front : compressFront.Keeps P (fun s => s.bcDir = .wr ∧ s.treeValid = true) Any := by
    refine keeps_seq (keeps_any _) (keeps_seq (Q := fun s => s.bcDir = .wr) (keeps_modify fun _ _ => rfl) ?_)
    refine keeps_seq (keep opHist_writes fun _ => rfl) (keeps_seq (keep opFlist_writes fun _ => rfl) ?_)
    intro s hs
    have h1 := keep opBuildTree_writes (fun _ => rfl) s hs
    have h2 := opBuildTree_valid (P := Any) s trivial
    cases h : opBuildTree s with
    | done u t => rw [h] at h1 h2; exact ⟨h1, h2⟩
    | raised c t => trivial
    | stuck r => trivial
  refine raises_seq ?_ front (raises_seq (Q := fun s => s.bcDir = .wr ∧ s.treeValid = true) ?_
    (keeps_mono keeps_needChecksum (fun _ h => h) (fun _ h => h) fun _ _ => trivial) raises_compressBack)
  · exact raises_seq (Q := Any) (raises_modify _) (keeps_any _) <|
      raises_seq (Q := Any) (raises_modify _) (keeps_any _) <|
        raises_seq (Q := Any) raises_opHist (keeps_any _) <|
          raises_seq (Q := Any) raises_opFlist (keeps_any _) (raises_opBuildTree (by simp))
  · intro s c t _ hx
    simp only [needChecksum] at hx
    split_ifs at hx
    injection hx with h _
    subst h; simp

theorem raises_opDecompress : opDecompress.Raises P [.header, .eof, .treeOvf, .io] := by
  have keep : ∀ {e : State → State} {x : Op Unit}, x.Writes e → (∀ s, (e s).bcDir = s.bcDir) →
      x.Keeps (fun s => s.bcDir = .rd) (fun s => s.bcDir = .rd) Any := fun hx he =>
    hx.keeps fun s t h hs => by
      have h1 := congrArg State.bcDir h
      rw [he, he] at h1
      exact h1.trans hs
  refine raises_seq (Q := Any) (raises_modify _) (keeps_any _) <|
    raises_seq (Q := fun s => s.bcDir = .rd) (raises_modify _) (keeps_modify fun _ _ => rfl) ?_
  refine raises_seq (raises_seq (raises_needDir_open .rd) (keeps_any _) (raises_takeHeader (by simp)))
    (keep opRdSize_writes fun _ => rfl) ?_
  refine raises_seq (Q := fun s => s.bcDir = .rd ∧ s.treeValid = true)
    (raises_seq (raises_needDir_open .rd) (keeps_any _) <|
      raises_seq (Q := Any) (raises_modify _) (keeps_any _) <|
        raises_seq (Q := Any) (raises_getTree (by simp) (by simp) _) (keeps_any _) (raises_modify _)) ?_ ?_
  · intro s hs
    have h1 := keep opRdTree_writes (fun _ => rfl) s hs
    cases h : opRdTree s with
    | raised c t => trivial
    | stuck r => trivial
    | done u t =>
      rw [h] at h1
      refine ⟨h1, ?_⟩
      obtain ⟨_, a, _, h2⟩ := seq_eq_done h
      obtain ⟨_, b, _, h3⟩ := seq_eq_done h2
      obtain ⟨_, d, _, h4⟩ := seq_eq_done h3
      injection h4 with _ h4; subst h4; rfl
  · refine raises_seq (Q := fun s => s.treeValid = true)
      ((raises_needDir_open .rd).mono (fun _ h => h.1) fun _ h => h) ?_ ?_
    · exact (needDir_writes .rd).keeps (P := fun s => s.bcDir = .rd ∧ s.treeValid = true)
        (fun s t h hs => by rw [show t = s from h]; exact hs) |> fun h =>
          keeps_mono h (fun _ h => h) (fun _ h => h.2) fun _ h => h
    · exact raises_bind raises_needTree_valid (keeps_any _) fun t =>
        raises_bind (Q := Any) (raises_get _) (keeps_any _) fun n =>
          raises_decodeLoop (by simp) (by simp) t n.toNat

/-- A command raises only the faults rule R250 lists for it. -/
theorem bodyOf_raises (i : Instr) : (bodyOf i).Raises Any (mayRaise i) := by
  have dir : ∀ {d : Dir} {y : Op Unit} {C : List Cause}, Cause.dir ∈ C → y.Raises Any C →
      ((needDir d).seq y).Raises Any C := fun hc hy => raises_seq (raises_needDir _ hc) (keeps_any _) hy
  cases i with
  | nop => exact raises_skip
  | rewind => exact raises_modify _
  | ldSize => exact raises_modify _
  | openRd => exact raises_modify _
  | openWr => exact raises_modify _
  | rdBit =>
    exact dir (by simp [mayRaise]) (raises_bind (Q := Any) (raises_readBit (by simp [mayRaise])) (keeps_any _)
      fun _ => raises_modify _)
  | rdByte =>
    exact dir (by simp [mayRaise]) (raises_bind (Q := Any) (raises_readByteLoop (by simp [mayRaise]) 8 0)
      (keeps_any _) fun _ => raises_modify _)
  | wrBit b =>
    exact dir (by simp [mayRaise]) (raises_bind (Q := Any) (raises_writeBit (by simp [mayRaise]) b) (keeps_any _)
      fun _ => raises_modify _)
  | wrByte v => exact dir (by simp [mayRaise]) (raises_writeBits (by simp [mayRaise]) _)
  | flush => exact dir (by simp [mayRaise]) (raises_flushLoop (by simp [mayRaise]) 7)
  | rdSize => exact dir (by simp [mayRaise]) (raises_takeHeader (by simp [mayRaise]))
  | wrSize =>
    exact dir (by simp [mayRaise]) (raises_bind (Q := Any) (raises_get _) (keeps_any _) fun v =>
      raises_writeBytes (by simp [mayRaise]) _)
  | cntDistinct =>
    show opCntDistinct.Raises Any _
    refine raises_bind (Q := Any) (raises_get State.remaining) (keeps_any _) fun n => ?_
    exact raises_bind (Q := Any) (raises_distinctLoop n [] 0) (keeps_any _) fun d => raises_modify _
  | hist => exact raises_opHist
  | flist => exact raises_opFlist
  | buildTree => exact raises_opBuildTree (by simp [mayRaise])
  | genCodes =>
    exact raises_bind (Q := Any) (raises_needTree (by simp [mayRaise])) (keeps_any _) fun t =>
      raises_seq (Q := Any) (raises_modify _) (keeps_any _) (raises_walk t 0 0)
  | wrTree =>
    exact dir (by simp [mayRaise]) (raises_bind (Q := Any) (raises_needTree (by simp [mayRaise])) (keeps_any _)
      fun t => raises_putTree (by simp [mayRaise]) t)
  | rdTree =>
    exact dir (by simp [mayRaise]) (raises_seq (Q := Any) (raises_modify _) (keeps_any _) <|
      raises_seq (Q := Any) (raises_getTree (by simp [mayRaise]) (by simp [mayRaise]) _) (keeps_any _)
        (raises_modify _))
  | encode =>
    exact dir (by simp [mayRaise]) (raises_bind (Q := Any) (raises_get _) (keeps_any _) fun n =>
      raises_forSrc (fun b => raises_encodeByte (by simp [mayRaise]) (by simp [mayRaise]) b) n)
  | decode =>
    exact dir (by simp [mayRaise]) (raises_bind (Q := Any) (raises_needTree (by simp [mayRaise])) (keeps_any _)
      fun t => raises_bind (Q := Any) (raises_get _) (keeps_any _) fun n =>
        raises_decodeLoop (by simp [mayRaise]) (by simp [mayRaise]) t n.toNat)
  | compress => exact raises_opCompress
  | decompress => exact raises_opDecompress

end Sys2Proof.Machine
end

