-- ==== Sys2Proof/Laws/Frequency.lean ====
section
/-! SUPPORT. The Frequency Model: what the scans of CNT_DISTINCT and HIST leave, and FLIST's selection
(42_frequency.md rules R140, R143 and R146 to R148). -/

namespace Sys2Proof.Machine

/-- One byte of a scan of SRC. -/
theorem forSrc_cons {body : Byte → Op Unit} {s : State} {b : Byte} {bs : List Byte} (h : StoresWf s)
    (hr : s.rest = b :: bs) (n : Nat) :
    forSrc body (n + 1) s = ((body b).seq (forSrc body n)) { s with srcPos := s.srcPos + 1 } := by
  simp only [forSrc, Op.seq, Op.bind, srcNext_eq h hr]

theorem rest_next {s : State} {b : Byte} {bs : List Byte} (h : StoresWf s) (hr : s.rest = b :: bs) :
    ({ s with srcPos := s.srcPos + 1 } : State).rest = bs := (rest_cons h hr).2.2

theorem StoresWf.atEnd {s : State} (h : StoresWf s) (hr : s.rest = []) : s.srcPos = s.srcLen :=
  (rest_nil_iff h).1 hr

theorem StoresWf.rewind {s : State} (h : StoresWf s) : StoresWf { s with srcPos := 0 } where
  src := h.src
  snk := h.snk
  srcLen := h.srcLen
  srcPos := by simp
  snkLen := h.snkLen

/-! ## HIST -/

/-- A table with each byte of a list counted in (rule R143). -/
def countUp (t : Table Word64) (bs : List Byte) : Table Word64 := bs.foldl (fun t b => t.set b (t.get b + 1)) t

theorem get_countUp (t : Table Word64) (bs : List Byte) (x : Byte) :
    (countUp t bs).get x = t.get x + BitVec.ofNat 64 (bs.count x) := by
  induction bs generalizing t with
  | nil => simp [countUp]
  | cons b bs ih =>
    have h := ih (t.set b (t.get b + 1))
    rw [countUp] at h ⊢
    rw [List.foldl_cons, h, Table.get_set, List.count_cons]
    by_cases hx : x = b
    · subst hx
      rw [if_pos rfl, if_pos (by simp), BitVec.add_assoc]
      congr 1
      rw [Nat.add_comm, BitVec.ofNat_add]; rfl
    · rw [if_neg hx, if_neg (by simpa using Ne.symm hx)]; rfl

theorem sum_countUp (t : Table Word64) (bs : List Byte)
    (h : (t.entries.map BitVec.toNat).sum + bs.length < 2 ^ 64) :
    ((countUp t bs).entries.map BitVec.toNat).sum = (t.entries.map BitVec.toNat).sum + bs.length := by
  induction bs generalizing t with
  | nil => rfl
  | cons b bs ih =>
    have h1 := t.sum_set b (t.get b + 1)
    have h2 := t.get_le_sum b
    simp only [List.length_cons] at h
    rw [BitVec.toNat_add, Nat.mod_eq_of_lt (by simp; omega)] at h1
    rw [show (1 : Word64).toNat = 1 from rfl] at h1
    have h3 := ih (t.set b (t.get b + 1)) (by omega)
    rw [countUp, List.foldl_cons]
    rw [countUp] at h3
    rw [h3, List.length_cons]; omega

/-- The scan of HIST counts every byte still to be read. -/
theorem forSrc_bump {s : State} (h : StoresWf s) :
    forSrc bump s.rest.length s = .done () { s with srcPos := s.srcLen, cnt := countUp s.cnt s.rest } := by
  generalize hb : s.rest = bs
  induction bs generalizing s with
  | nil => simp only [List.length_nil, forSrc, skip_run, ← h.atEnd hb]; rfl
  | cons b bs ih =>
    rw [List.length_cons, forSrc_cons h hb, bump, modify_seq]
    have h2 : StoresWf ({ s with srcPos := s.srcPos + 1, cnt := s.cnt.set b (s.cnt.get b + 1) }) :=
      (h.next hb).congr rfl rfl rfl rfl
    rw [ih h2 (rest_next h hb)]
    rfl

/-- HIST's body (rule R143). -/
theorem opHist_run {s : State} (h : StoresWf s) :
    opHist s = .done () { s with srcPos := 0, cnt := countUp (Table.fill 0) s.rest } := by
  have h1 : StoresWf { s with cnt := Table.fill 0 } := h.congr rfl rfl rfl rfl
  have h2 := forSrc_bump h1
  rw [opHist, modify_seq, get_bind, remaining_eq h1, seq_done h2]
  rfl

/-! ## CNT_DISTINCT -/

theorem card_le_of_nodup {l : List Byte} (h : l.Nodup) : l.length ≤ 256 := by
  have h1 : (l.map BitVec.toNat).Nodup := h.map fun a b hab => BitVec.eq_of_toNat_eq hab
  have h2 : (l.map BitVec.toNat) ⊆ List.range 256 := by
    intro x hx
    obtain ⟨a, _, rfl⟩ := List.mem_map.1 hx
    exact List.mem_range.2 a.isLt
  simpa using (h1.subperm h2).length_le

/-- The byte values a scan has met: those before it and those of the bytes scanned. -/
def meet (seen bs : List Byte) : List Byte := bs.foldl (fun l b => if b ∈ l then l else b :: l) seen

theorem nodup_meet {seen : List Byte} (h : seen.Nodup) (bs : List Byte) : (meet seen bs).Nodup := by
  induction bs generalizing seen with
  | nil => exact h
  | cons b bs ih =>
    rw [meet, List.foldl_cons]
    split_ifs with hb
    · exact ih h
    · exact ih (List.nodup_cons.2 ⟨hb, h⟩)

theorem mem_meet (seen bs : List Byte) (x : Byte) : x ∈ meet seen bs ↔ x ∈ seen ∨ x ∈ bs := by
  induction bs generalizing seen with
  | nil => simp [meet]
  | cons b bs ih =>
    have h := ih (if b ∈ seen then seen else b :: seen)
    rw [meet] at h ⊢
    rw [List.foldl_cons, h]
    split_ifs with hb
    · rw [List.mem_cons]
      constructor
      · rintro (h | h) <;> tauto
      · rintro (h | rfl | h) <;> tauto
    · simp only [List.mem_cons]; tauto

theorem length_meet (bs : List Byte) : (meet [] bs).length = bs.dedup.length := by
  refine List.Perm.length_eq ((List.perm_ext_iff_of_nodup (nodup_meet List.nodup_nil bs) bs.nodup_dedup).2 ?_)
  intro x; simp [mem_meet]

theorem length_le_meet (seen bs : List Byte) : seen.length ≤ (meet seen bs).length := by
  induction bs generalizing seen with
  | nil => exact le_refl _
  | cons b bs ih =>
    rw [meet, List.foldl_cons]
    split_ifs
    · exact ih seen
    · exact le_trans (Nat.le_succ _) (ih (b :: seen))

/-- The scan of CNT_DISTINCT ends with the number of byte values met, early exit or not; only `SRC_POS` has
moved (rules R140 and R141). -/
theorem distinctLoop_run {s : State} (h : StoresWf s) {seen : List Byte} (hn : seen.Nodup) :
    ∃ p, distinctLoop s.rest.length seen (BitVec.ofNat 9 seen.length) s =
      .done (BitVec.ofNat 9 (meet seen s.rest).length) { s with srcPos := p } := by
  generalize hb : s.rest = bs
  induction bs generalizing s seen with
  | nil => exact ⟨s.srcPos, rfl⟩
  | cons b bs ih =>
    have hle := card_le_of_nodup (nodup_meet hn (b :: bs))
    have hge := length_le_meet seen (b :: bs)
    rw [List.length_cons, distinctLoop]
    by_cases hd : BitVec.ofNat 9 seen.length = 256
    · have h1 : seen.length = 256 := by
        have h2 := congrArg BitVec.toNat hd
        simp at h2; omega
      refine ⟨s.srcPos, ?_⟩
      rw [if_pos hd, pure_run, show (meet seen (b :: bs)).length = 256 by omega]
      simp only [Res.done.injEq, and_true]; rw [hd]; rfl
    · rw [if_neg hd, bind_done (srcNext_eq h hb), meet, List.foldl_cons]
      split_ifs with hm
      · exact ih (h.next hb) hn (rest_next h hb)
      · obtain ⟨p, hp⟩ := ih (h.next hb) (List.nodup_cons.2 ⟨hm, hn⟩) (rest_next h hb)
        refine ⟨p, ?_⟩
        rw [List.length_cons, BitVec.ofNat_add] at hp
        exact hp

theorem opCntDistinct_run {s : State} (h : StoresWf s) :
    opCntDistinct s = .done () { s with srcPos := 0, distinct := BitVec.ofNat 9 s.rest.dedup.length } := by
  obtain ⟨p, hp⟩ := distinctLoop_run h List.nodup_nil
  rw [length_meet] at hp
  rw [opCntDistinct, get_bind, remaining_eq h]
  exact (bind_done hp).trans rfl

/-! ## FLIST -/

/-- `m` is the first least nonzero count of a list, with its index as a symbol. -/
def Best (l : List Word64) : Option (Byte × Word64) → Prop
  | none => ∀ (k : Nat) (c : Word64), l[k]? = some c → c = 0
  | some (x, c) => c ≠ 0 ∧ ∃ j, x = BitVec.ofNat 8 j ∧ l[j]? = some c ∧
      ∀ (k : Nat) (c' : Word64), l[k]? = some c' → c' = 0 ∨ c < c' ∨ (c = c' ∧ j ≤ k)

theorem best_nil : Best [] none := fun k c hk => by simp at hk

/-- One comparison of FLIST's search. -/
theorem best_snoc {l : List Word64} {m : Option (Byte × Word64)} (h : Best l m) (a : Word64) :
    Best (l ++ [a]) (lighterOf m l.length a) := by
  have old : ∀ {k : Nat} {c : Word64}, l[k]? = some c → (l ++ [a])[k]? = some c := fun hk => by
    rw [List.getElem?_append_left (List.getElem?_eq_some_iff.1 hk).1]; exact hk
  have new : ∀ {k : Nat} {c : Word64}, (l ++ [a])[k]? = some c → l[k]? = some c ∨ (k = l.length ∧ c = a) := fun {k c} hk => by
    rcases Nat.lt_trichotomy k l.length with h1 | h1 | h1
    · rw [List.getElem?_append_left h1] at hk; exact .inl hk
    · subst h1; simp at hk; exact .inr ⟨rfl, hk.symm⟩
    · rw [List.getElem?_eq_none (by simp; omega)] at hk; cases hk
  have last : (l ++ [a])[l.length]? = some a := by simp
  by_cases ha : a = 0
  · cases m with
    | none =>
      simp only [lighterOf, if_pos ha]
      intro k c hk
      rcases new hk with h1 | ⟨_, rfl⟩
      · exact h k c h1
      · exact ha
    | some best =>
      simp only [lighterOf, if_pos ha]
      obtain ⟨h1, j, h2, h3, h4⟩ := h
      refine ⟨h1, j, h2, old h3, fun k c hk => ?_⟩
      rcases new hk with h5 | ⟨_, rfl⟩
      · exact h4 k c h5
      · exact .inl ha
  · cases m with
    | none =>
      simp only [lighterOf, if_neg ha]
      refine ⟨ha, l.length, rfl, last, fun k c hk => ?_⟩
      rcases new hk with h1 | ⟨rfl, rfl⟩
      · exact .inl (h k c h1)
      · exact .inr (.inr ⟨rfl, le_refl _⟩)
    | some best =>
      obtain ⟨h1, j, h2, h3, h4⟩ := h
      simp only [lighterOf, if_neg ha]
      have hj := (List.getElem?_eq_some_iff.1 h3).1
      split_ifs with hlt
      · refine ⟨ha, l.length, rfl, last, fun k c hk => ?_⟩
        rcases new hk with h5 | ⟨rfl, rfl⟩
        · rcases h4 k c h5 with h6 | h6 | ⟨h6, _⟩
          · exact .inl h6
          · exact .inr (.inl (BitVec.lt_trans hlt h6))
          · exact .inr (.inl (h6 ▸ hlt))
        · exact .inr (.inr ⟨rfl, le_refl _⟩)
      · refine ⟨h1, j, h2, old h3, fun k c hk => ?_⟩
        rcases new hk with h5 | ⟨rfl, rfl⟩
        · exact h4 k c h5
        · rw [BitVec.lt_def] at hlt ⊢
          rcases Nat.lt_trichotomy best.2.toNat c.toNat with h6 | h6 | h6
          · exact .inr (.inl h6)
          · exact .inr (.inr ⟨BitVec.eq_of_toNat_eq h6, hj.le⟩)
          · exact absurd h6 hlt

/-- What FLIST's search finds: the first least nonzero count (rule R146). -/
theorem lightest_best (l pre : List Word64) (m : Option (Byte × Word64)) (h : Best pre m) :
    Best (pre ++ l) (lightest l pre.length m) := by
  induction l generalizing pre m with
  | nil => simpa [lightest] using h
  | cons a l ih =>
    have h1 := ih (pre ++ [a]) _ (best_snoc h a)
    simpa only [lightest, List.append_assoc, List.singleton_append, List.length_append, List.length_cons,
      List.length_nil, Nat.zero_add] using h1

/-- The order FLIST emits symbols in: by count, ties by symbol (rule R147). -/
def Lighter (t : Table Word64) (x y : Byte) : Prop := t.get x < t.get y ∨ (t.get x = t.get y ∧ x < y)

theorem lightest_none {t : Table Word64} (h : lightest t.entries 0 none = none) (x : Byte) : t.get x = 0 := by
  have h1 := lightest_best t.entries [] none best_nil
  rw [List.length_nil, List.nil_append, h] at h1
  exact h1 _ _ (t.get_eq x)

theorem lightest_some {t : Table Word64} {m : Byte} {c : Word64} (h : lightest t.entries 0 none = some (m, c)) :
    t.get m = c ∧ c ≠ 0 ∧ ∀ y, t.get y ≠ 0 → y ≠ m → Lighter t m y := by
  have h1 := lightest_best t.entries [] none best_nil
  rw [List.length_nil, List.nil_append, h] at h1
  obtain ⟨h1, j, rfl, h3, h4⟩ := h1
  have hj : j < 256 := t.size ▸ (List.getElem?_eq_some_iff.1 h3).1
  have h5 : t.get (BitVec.ofNat 8 j) = c := by
    rw [Table.get_eq_iff, BitVec.toNat_ofNat, Nat.mod_eq_of_lt hj]; exact h3
  refine ⟨h5, h1, fun y hy hne => ?_⟩
  rw [Lighter, h5]
  rcases h4 _ _ (t.get_eq y) with h6 | h6 | ⟨h6, h7⟩
  · exact absurd h6 hy
  · exact .inl h6
  · refine .inr ⟨h6, ?_⟩
    have h8 : j ≠ y.toNat := fun h9 => hne (BitVec.eq_of_toNat_eq (by
      rw [BitVec.toNat_ofNat, Nat.mod_eq_of_lt hj, h9]))
    rw [BitVec.lt_def, BitVec.toNat_ofNat, Nat.mod_eq_of_lt hj]
    omega

/-- The symbols whose count is not zero. -/
def nonzero (t : Table Word64) : List Byte :=
  ((List.range 256).map (BitVec.ofNat 8)).filter fun x => decide (t.get x ≠ 0)

theorem mem_nonzero (t : Table Word64) (x : Byte) : x ∈ nonzero t ↔ t.get x ≠ 0 := by
  simp only [nonzero, List.mem_filter, List.mem_map, List.mem_range, decide_eq_true_eq, and_iff_right_iff_imp]
  exact fun _ => ⟨x.toNat, x.isLt, by simp⟩

theorem nodup_nonzero (t : Table Word64) : (nonzero t).Nodup := by
  refine List.Nodup.filter _ ((List.nodup_map_iff_inj_on List.nodup_range).2 ?_)
  intro a ha b hb hab
  have := congrArg BitVec.toNat hab
  have ha := List.mem_range.1 ha
  have hb := List.mem_range.1 hb
  simp at this; omega

theorem length_nonzero_set {t : Table Word64} {m : Byte} (h : t.get m ≠ 0) :
    (nonzero (t.set m 0)).length + 1 = (nonzero t).length := by
  have h1 : (m :: nonzero (t.set m 0)).Perm (nonzero t) := by
    refine (List.perm_ext_iff_of_nodup (List.nodup_cons.2 ⟨?_, nodup_nonzero _⟩) (nodup_nonzero _)).2 fun x => ?_
    · rw [mem_nonzero, Table.get_set, if_pos rfl]; simp
    · rw [List.mem_cons, mem_nonzero, mem_nonzero, Table.get_set]
      by_cases hx : x = m
      · rw [hx, if_pos rfl]
        exact iff_of_true (.inl rfl) h
      · rw [if_neg hx, or_iff_right hx]
  exact h1.length_eq

/-- FLIST's loop, with passes enough: it emits the symbols with a nonzero count in the order of rule R147,
after what the arena and the list held, and zeroes every count (rule R146). -/
theorem flistLoop_run (n : Nat) (s : State) (hn : (nonzero s.cnt).length ≤ n) :
    ∃ (syms : List Byte) (t : State), (∀ x, x ∈ syms ↔ s.cnt.get x ≠ 0) ∧ syms.Pairwise (Lighter s.cnt) ∧
      flistLoop n s = .done () t ∧ (∀ x, t.cnt.get x = 0) ∧
      t = { s with
            node := s.node ++ syms.map Node.leaf
            wl := s.wl ++ (syms.zipIdx s.node.length).map fun p => ⟨s.cnt.get p.1, BitVec.ofNat 9 p.2⟩
            cnt := t.cnt } := by
  induction n generalizing s with
  | zero =>
    have h0 : ∀ x, s.cnt.get x = 0 := fun x => by
      by_contra hx
      have := List.length_pos_of_mem ((mem_nonzero s.cnt x).2 hx)
      omega
    exact ⟨[], s, by simp [h0], List.Pairwise.nil, rfl, h0, by simp⟩
  | succ n ih =>
    simp only [flistLoop]
    cases hl : lightest s.cnt.entries 0 none with
    | none =>
      have h0 := lightest_none hl
      exact ⟨[], s, by simp [h0], List.Pairwise.nil, rfl, h0, by simp⟩
    | some mc =>
      obtain ⟨m, c⟩ := mc
      obtain ⟨h1, h2, h3⟩ := lightest_some hl
      have h4 : s.cnt.get m ≠ 0 := by rwa [h1]
      obtain ⟨syms, t, e1, e2, e3, e4, e5⟩ := ih (s.emitLeaf m c)
        (by have := length_nonzero_set h4; simp only [emitLeaf_cnt]; omega)
      simp only [emitLeaf_cnt, Table.get_set] at e1
      have hne : ∀ x ∈ syms, x ≠ m ∧ s.cnt.get x ≠ 0 := fun x hx => by
        have := (e1 x).1 hx
        split_ifs at this with h5
        · exact absurd rfl this
        · exact ⟨h5, this⟩
      refine ⟨m :: syms, t, fun x => ?_, List.pairwise_cons.2 ⟨fun x hx => ?_, ?_⟩, e3, e4, ?_⟩
      · rw [List.mem_cons, e1]
        by_cases hx : x = m
        · rw [hx, if_pos rfl]
          exact iff_of_true (.inl rfl) h4
        · rw [if_neg hx, or_iff_right hx]
      · exact h3 x (hne x hx).2 (hne x hx).1
      · refine e2.imp_of_mem fun hx hy h5 => ?_
        simpa only [Lighter, emitLeaf_cnt, Table.get_set, if_neg (hne _ hx).1, if_neg (hne _ hy).1] using h5
      · have e6 : (syms.zipIdx (s.node.length + 1)).map (fun p => (⟨(s.cnt.set m 0).get p.1, BitVec.ofNat 9 p.2⟩ : WorkItem))
            = (syms.zipIdx (s.node.length + 1)).map fun p => ⟨s.cnt.get p.1, BitVec.ofNat 9 p.2⟩ := by
          refine List.map_congr_left fun p hp => ?_
          rw [Table.get_set, if_neg (hne p.1 (List.fst_mem_of_mem_zipIdx hp)).1]
        rw [e5]
        simp only [State.emitLeaf, State.nodeCnt, List.append_assoc, List.length_append, List.length_cons,
          List.length_nil, Nat.zero_add, List.map_cons, List.zipIdx_cons, List.cons_append, List.nil_append, e6, h1]

theorem nonzero_le (t : Table Word64) : (nonzero t).length ≤ 256 := card_le_of_nodup (nodup_nonzero t)

/-- FLIST's body (rules R146 and R147). -/
theorem opFlist_run (s : State) :
    ∃ (syms : List Byte) (t : State), (∀ x, x ∈ syms ↔ s.cnt.get x ≠ 0) ∧ syms.Pairwise (Lighter s.cnt) ∧
      opFlist s = .done () t ∧ (∀ x, t.cnt.get x = 0) ∧
      t = { s with
            node := syms.map Node.leaf
            wl := syms.zipIdx.map fun p => ⟨s.cnt.get p.1, BitVec.ofNat 9 p.2⟩
            cnt := t.cnt, treeValid := false, root := 0 } := by
  obtain ⟨syms, t, h1, h2, h3, h4, h5⟩ := flistLoop_run 256 s.dropTree (nonzero_le _)
  exact ⟨syms, t, h1, h2, by rw [opFlist, modify_seq]; exact h3, h4, by
    rw [h5]; simp [State.dropTree, State.setTree]⟩

theorem Lighter.irrefl {t : Table Word64} {x y : Byte} (h : Lighter t x y) : x ≠ y := by
  rintro rfl
  rcases h with h | ⟨_, h⟩
  · exact BitVec.lt_irrefl _ h
  · exact BitVec.lt_irrefl _ h

theorem nodup_of_lighter {t : Table Word64} {syms : List Byte} (h : syms.Pairwise (Lighter t)) : syms.Nodup :=
  h.imp fun h => h.irrefl

/-- The weights of FLIST's list add up to the counts (rule R148). -/
theorem sum_weights {t : Table Word64} {syms : List Byte} (h1 : ∀ x, x ∈ syms ↔ t.get x ≠ 0)
    (h2 : syms.Nodup) : (syms.map fun x => (t.get x).toNat).sum = (t.entries.map BitVec.toNat).sum := by
  have h3 : t.entries = ((List.range 256).map (BitVec.ofNat 8)).map t.get := by
    refine List.ext_getElem (by simp [t.size]) fun i h4 h5 => ?_
    rw [t.get_of_lt h4]; simp
  have h4 : syms.Perm (nonzero t) := (List.perm_ext_iff_of_nodup h2 (nodup_nonzero t)).2 fun x => by
    rw [h1, mem_nonzero]
  rw [(h4.map fun x => (t.get x).toNat).sum_eq, nonzero]
  conv_rhs => rw [h3]
  generalize (List.range 256).map (BitVec.ofNat 8) = l
  induction l with
  | nil => rfl
  | cons a l ih =>
    rw [List.filter_cons]
    by_cases ha : t.get a = 0
    · simp only [ha, ne_eq, not_true_eq_false, decide_false, Bool.false_eq_true, if_false, ih, List.map_cons,
        List.sum_cons]; simp
    · rw [if_pos (decide_eq_true ha), List.map_cons, List.sum_cons, ih, List.map_cons, List.map_cons, List.sum_cons]

end Sys2Proof.Machine
end

