-- ==== Sys2Proof/Laws/Codec.lean ====
section
/-! SUPPORT. What the loops of the codec come to: ENCODE over the bytes still to be read, DECODE over the
paths of Leaves, and FLUSH (46_stream_codec.md rules R215 and R220, 41_bit_channel.md rule R121). -/

namespace Sys2Proof.Machine

/-! ## Writing, beside a read position that moves -/

theorem Wrote.stores {s t : State} {bits : List Bool} (h : Wrote s bits t) (hs : StoresWf s)
    (hr : s.Room ((s.bcCur.toNat + bits.length) / 8)) : StoresWf t := by
  have h1 := h.same
  refine ⟨?_, h.full, ?_, ?_, fun cap hc => ?_⟩
  · rw [h1]; exact hs.src
  · rw [h1]; exact hs.srcLen
  · rw [h1]; exact hs.srcPos
  · rw [h1] at hc
    rw [h.len]; exact hr cap hc

/-- Where SRC is read makes no difference to what is written. -/
theorem Wrote.atPos {s t : State} {bits : List Bool} (h : Wrote s bits t) (p : Word64) :
    Wrote { s with srcPos := p } bits { t with srcPos := p } where
  same := by
    rw [SameButOut]
    exact congrArg (fun u : State => { u with srcPos := p }) h.same
  full := h.full
  out := h.out
  cur := h.cur
  len := h.len
  buf := h.buf
  more := h.more

theorem encodeByte_ok {s : State} {b : Byte} (h : (s.code.get b).valid = true) :
    encodeByte b s = writeBits (s.code.get b).emitted s := by simp [encodeByte, h]

theorem encodeByte_bad {s : State} {b : Byte} (h : (s.code.get b).valid = false) :
    encodeByte b s = .raised .nocode s := by simp [encodeByte, h]

/-- The bits of a sequence of bytes under the code table. -/
def State.coded (s : State) (bs : List Byte) : List Bool := bs.flatMap fun b => (s.code.get b).emitted

theorem coded_cons (s : State) (b : Byte) (bs : List Byte) :
    s.coded (b :: bs) = (s.code.get b).emitted ++ s.coded bs := List.flatMap_cons

/-- ENCODE's scan over `pre`, the first of the bytes still to be read, all with codes: their codes are
written, and the scan goes on after them. -/
theorem forSrc_encode (pre : List Byte) {s : State} {post : List Byte} (h : StoresWf s) (hr : s.rest = pre ++ post)
    (hv : ∀ b ∈ pre, (s.code.get b).valid = true) (hroom : s.Room ((s.bcCur.toNat + (s.coded pre).length) / 8))
    (n : Nat) :
    ∃ t, forSrc encodeByte (pre.length + n) s = forSrc encodeByte n t ∧ StoresWf t ∧ t.rest = post ∧
      t.srcPos.toNat = s.srcPos.toNat + pre.length ∧ Wrote { s with srcPos := t.srcPos } (s.coded pre) t := by
  induction pre generalizing s with
  | nil => exact ⟨s, by simp, h, hr, rfl, Wrote.refl h.snk⟩
  | cons b pre ih =>
    have h1 : StoresWf { s with srcPos := s.srcPos + 1 } := h.next hr
    rw [coded_cons, List.length_append] at hroom
    have hroom1 : ({ s with srcPos := s.srcPos + 1 } : State).Room
        ((s.bcCur.toNat + (s.code.get b).emitted.length) / 8) :=
      State.Room.mono (s := s) hroom (by omega)
    obtain ⟨t, e1, w1⟩ := writeBits_wrote (s := { s with srcPos := s.srcPos + 1 }) (s.code.get b).emitted h1.snk hroom1
    have hc : t.code = s.code := by rw [w1.same]
    have hst : StoresWf t := w1.stores h1 hroom1
    have hrest : t.rest = pre ++ post := by
      have h2 := rest_next h hr
      rw [State.rest, w1.same]; exact h2
    have hcoded : t.coded pre = s.coded pre := by rw [State.coded, hc]; rfl
    have hroom' : t.Room ((t.bcCur.toNat + (t.coded pre).length) / 8) := by
      rw [hcoded]; exact w1.room (by rw [Nat.add_assoc]; exact hroom)
    obtain ⟨u, e2, s2, r2, p2, w2⟩ := ih hst hrest
      (fun x hx => by rw [hc]; exact hv x (List.mem_cons_of_mem _ hx)) hroom'
    refine ⟨u, ?_, s2, r2, ?_, ?_⟩
    · rw [show (b :: pre).length + n = (pre.length + n) + 1 by simp; omega, forSrc_cons h hr]
      rw [seq_done (show encodeByte b { s with srcPos := s.srcPos + 1 } = .done () t by
        exact (encodeByte_ok (s := { s with srcPos := s.srcPos + 1 }) (hv b (by simp))).trans e1), e2]
    · have h3 : t.srcPos.toNat = s.srcPos.toNat + 1 := by
        rw [w1.same]; exact pos_succ h (rest_cons h hr).1
      rw [p2, h3, List.length_cons]; omega
    · rw [coded_cons]
      rw [hcoded] at w2
      exact (w1.atPos u.srcPos).trans w2

/-! ## DECODE -/

theorem snkAppend_run {s : State} (v : Byte) {n : Nat} (h : s.Room (n + 1)) (hs : s.snk.full) :
    snkAppend v s = .done () { s with snk := Memory.ofBytes (s.snk.bytes ++ [v]) } := by
  rw [snkAppend, h.notFull]
  have h1 : s.snk.write s.snkLen v = Memory.ofBytes (s.snk.bytes ++ [v]) := by
    apply (hs.append v).ext (full_ofBytes _)
    rw [hs.bytes_append, bytes_ofBytes]
  rw [h1]; rfl

theorem StoresWf.append {s : State} (h : StoresWf s) (bs : List Byte) (hr : s.Room bs.length) :
    StoresWf { s with snk := Memory.ofBytes (s.snk.bytes ++ bs) } where
  src := h.src
  snk := full_ofBytes _
  srcLen := h.srcLen
  srcPos := h.srcPos
  snkLen := fun cap hc => by simpa using hr cap hc

/-- DECODE's loop over the paths of Leaves: their symbols are appended, and exactly the paths are consumed. -/
theorem times_decode {tr : Tree} (ls : List (List Bool × Byte)) {s : State} {rest : List Bool} (h : StoresWf s)
    (hl : ∀ p ∈ ls, p ∈ tr.leaves) (hb : s.inBits = ls.flatMap Prod.fst ++ rest) (hroom : s.Room ls.length)
    (n : Nat) :
    ∃ t, times (ls.length + n) ((walkDown tr).bind snkAppend) s = times n ((walkDown tr).bind snkAppend) t ∧
      StoresWf t ∧ t.inBits = rest ∧
      t = { s with snk := Memory.ofBytes (s.snk.bytes ++ ls.map Prod.snd)
                   bcCur := t.bcCur, bcBuf := t.bcBuf, srcPos := t.srcPos } := by
  induction ls generalizing s with
  | nil => exact ⟨s, by simp, h, hb, by simp [← h.snk.eq_ofBytes]⟩
  | cons p ls ih =>
    obtain ⟨t, e1, c1, w1, b1⟩ := walkDown_path h (hl p (by simp))
      (show s.inBits = p.1 ++ (ls.flatMap Prod.fst ++ rest) by rw [hb, List.flatMap_cons, List.append_assoc])
    have hsnk : t.snk = s.snk := by rw [c1]
    have hroom1 : t.Room (ls.length + 1) := fun cap hc => by
      rw [hsnk]; rw [c1] at hc; exact hroom cap hc
    have e2 := snkAppend_run p.2 hroom1 w1.snk
    have w2 := w1.append [p.2] (hroom1.mono (by simp))
    obtain ⟨u, e3, w3, b3, c3⟩ := ih (s := { t with snk := Memory.ofBytes (t.snk.bytes ++ [p.2]) }) w2
      (fun q hq => hl q (by simp [hq])) b1
      (fun cap hc => by have := hroom1 cap hc; simp at this ⊢; omega)
    refine ⟨u, ?_, w3, b3, ?_⟩
    · rw [show (p :: ls).length + n = (ls.length + n) + 1 by simp; omega, times]
      rw [seq_done (show ((walkDown tr).bind snkAppend) s = .done () { t with
        snk := Memory.ofBytes (t.snk.bytes ++ [p.2]) } by rw [bind_done e1, e2]), e3]
    · rw [c3]
      simp only [bytes_ofBytes, hsnk, List.map_cons, List.append_assoc, List.cons_append, List.nil_append]
      have h4 := congrArg (fun v : State => { v with
        snk := Memory.ofBytes (s.snk.bytes ++ p.2 :: ls.map Prod.snd), bcCur := u.bcCur, bcBuf := u.bcBuf,
        srcPos := u.srcPos }) c1
      exact h4

/-- The walk of DECODE where the bits end inside every path: `E_EOF`, every bit consumed (rule R220). -/
theorem walkDown_short {tr : Tree} {s : State} (h : StoresWf s) (hp : ∀ p ∈ tr.leaves, ¬ p.1 <+: s.inBits) :
    ∃ t, walkDown tr s = .raised .eof t ∧ SameButIn s t ∧ StoresWf t ∧ t.inBits = [] := by
  induction tr generalizing s with
  | leaf x => exact absurd (List.nil_prefix) (hp ([], x) (by simp [Tree.leaves]))
  | branch l r ihl ihr =>
    cases hb : s.inBits with
    | nil => exact ⟨s, by rw [walkDown, bind_raised (readBit_nil h hb)], SameButIn.refl s, h, hb⟩
    | cons d bits =>
      obtain ⟨t, h1, h2, h3, h4⟩ := readBit_cons h hb
      have key : ∀ c : Tree, (∀ p ∈ c.leaves, (d :: p.1, p.2) ∈ (Tree.branch l r).leaves) →
          ∀ p ∈ c.leaves, ¬ p.1 <+: t.inBits := by
        intro c hc p hpm hpre
        refine hp _ (hc p hpm) ?_
        rw [hb, h4] at *
        exact List.cons_prefix_cons.2 ⟨rfl, hpre⟩
      cases d with
      | false =>
        obtain ⟨u, h5, h6, h7, h8⟩ := ihl h3 (key l fun p hpm => by
          rw [Tree.leaves, List.mem_append]; exact .inl (List.mem_map.2 ⟨p, hpm, rfl⟩))
        exact ⟨u, by rw [walkDown, bind_done h1]; exact h5, h2.trans h6, h7, h8⟩
      | true =>
        obtain ⟨u, h5, h6, h7, h8⟩ := ihr h3 (key r fun p hpm => by
          rw [Tree.leaves, List.mem_append]; exact .inr (List.mem_map.2 ⟨p, hpm, rfl⟩))
        exact ⟨u, by rw [walkDown, bind_done h1]; exact h5, h2.trans h6, h7, h8⟩

/-! ## FLUSH -/

theorem cur_eq_zero {s : State} : s.bcCur = 0 ↔ s.bcCur.toNat = 0 :=
  ⟨fun h => by rw [h]; rfl, fun h => BitVec.eq_of_toNat_eq h⟩

/-- FLUSH's loop: zero bits up to the byte boundary. -/
theorem flushLoop_wrote (n : Nat) {s : State} (hs : s.snk.full) (hn : s.bcCur = 0 ∨ 8 ≤ s.bcCur.toNat + n)
    (hr : s.bcCur = 0 ∨ s.Room 1) :
    ∃ t, flushLoop n s = .done () t ∧ Wrote s (List.replicate ((8 - s.bcCur.toNat) % 8) false) t := by
  induction n generalizing s with
  | zero =>
    have h8 := cur_lt s
    rcases hn with hn | hn
    · exact ⟨s, rfl, by rw [hn]; exact Wrote.refl hs⟩
    · omega
  | succ n ih =>
    have h8 := cur_lt s
    by_cases hc : s.bcCur = 0
    · exact ⟨s, by simp only [flushLoop, if_pos hc], by rw [hc]; exact Wrote.refl hs⟩
    · have hc' : s.bcCur.toNat ≠ 0 := fun h => hc (cur_eq_zero.2 h)
      have hr := hr.resolve_left hc
      have hn := hn.resolve_left hc
      obtain ⟨f, t, e1, w1⟩ := writeBit_wrote false hs (hr.mono (by omega))
      have hcur := w1.cur
      simp only [List.length_cons, List.length_nil, Nat.zero_add] at hcur
      by_cases h7 : s.bcCur.toNat = 7
      · have ht : t.bcCur = 0 := cur_eq_zero.2 (by rw [hcur, h7])
        obtain ⟨u, e2, w2⟩ := ih w1.full (.inl ht) (.inl ht)
        refine ⟨u, by simp only [flushLoop, if_neg hc]; rw [seq_done e1, e2], ?_⟩
        rw [ht] at w2
        rw [h7]
        exact w1.trans w2
      · have ht : t.bcCur.toNat = s.bcCur.toNat + 1 := by rw [hcur]; omega
        have hlen := w1.len
        simp only [List.length_cons, List.length_nil, Nat.zero_add] at hlen
        have hroom : t.Room 1 := fun cap hcap => by
          rw [w1.same] at hcap
          rw [hlen, Nat.div_eq_of_lt (by omega)]
          exact hr cap hcap
        obtain ⟨u, e2, w2⟩ := ih w1.full (.inr (by omega)) (.inr hroom)
        refine ⟨u, by simp only [flushLoop, if_neg hc]; rw [seq_done e1, e2], ?_⟩
        rw [ht] at w2
        have hrep : (8 - s.bcCur.toNat) % 8 = (8 - (s.bcCur.toNat + 1)) % 8 + 1 := by omega
        rw [hrep, List.replicate_succ]
        exact w1.trans w2

/-- FLUSH's body (rule R121): with room for one byte, the pending bits and zeros are out. -/
theorem opFlush_wrote {s : State} (hs : s.snk.full) (hd : s.bcDir = .wr) (hr : s.bcCur = 0 ∨ s.Room 1) :
    ∃ t, opFlush s = .done () t ∧ Wrote s (List.replicate ((8 - s.bcCur.toNat) % 8) false) t := by
  rw [opFlush, seq_done (needDir_ok hd)]
  exact flushLoop_wrote 7 hs (by
    by_cases h : s.bcCur = 0
    · exact .inl h
    · exact .inr (by have : s.bcCur.toNat ≠ 0 := fun h' => h (cur_eq_zero.2 h'); omega)) hr

end Sys2Proof.Machine
end

