-- ==== Sys2Proof/Laws/Codes.lean ====
section
/-! SUPPORT. The Code Generator: the walk visits the Leaves in pre-order with their paths, and the table it
leaves is `Tree.codeEntry`; the codes as bits (44_code_generator.md rules R180 to R185). -/

namespace Sys2Proof.Machine

/-- A path put after the bits `v` (rule R180). -/
def pathFrom (v : BitVec 30) (p : List Bool) : BitVec 30 := p.foldl (fun v d => (v <<< 1) ||| (if d then 1 else 0)) v

theorem pathFrom_zero (p : List Bool) : pathFrom 0 p = pathBits p := rfl

/-- The Leaves visited one after the other, from a node at `depth` with `path`. -/
def State.visitAll (s : State) (path : BitVec 30) (depth : Nat) (ls : List (List Bool × Byte)) : State :=
  ls.foldl (fun s q => s.visitLeaf q.2 (pathFrom path q.1) (depth + q.1.length)) s

theorem visitAll_append (s : State) (p : BitVec 30) (d : Nat) (a b : List (List Bool × Byte)) :
    s.visitAll p d (a ++ b) = (s.visitAll p d a).visitAll p d b := List.foldl_append

theorem visitAll_map (s : State) (p : BitVec 30) (d : Nat) (dir : Bool) (ls : List (List Bool × Byte)) :
    s.visitAll p d (ls.map fun q => (dir :: q.1, q.2)) =
      s.visitAll ((p <<< 1) ||| (if dir then 1 else 0)) (d + 1) ls := by
  induction ls generalizing s with
  | nil => rfl
  | cons q ls ih =>
    simp only [State.visitAll, List.map_cons, List.foldl_cons, List.length_cons] at ih ⊢
    rw [ih, show d + (q.1.length + 1) = d + 1 + q.1.length by omega]
    rfl

/-- `walk` visits the Leaves in pre-order (rules R180 and R181). -/
theorem walk_run (t : Tree) (p : BitVec 30) (d : Nat) (s : State) :
    walk t p d s = .done () (s.visitAll p d t.leaves) := by
  induction t generalizing p d s with
  | leaf x => rfl
  | branch l r ihl ihr =>
    simp only [walk]
    rw [seq_done (ihl _ _ _), ihr, Tree.leaves, visitAll_append, visitAll_map, visitAll_map]
    simp

/-- The entry that Leaves of at most 30 steps leave for a symbol: that of the last one (rule R185). -/
def lastEntry (old : CodeEntry) (ls : List (List Bool × Byte)) (x : Byte) : CodeEntry :=
  match (ls.filter fun p => p.2 = x ∧ p.1.length ≤ Config.codeMax).getLast? with
  | none => old
  | some p => ⟨true, BitVec.ofNat 5 p.1.length, pathBits p.1⟩

/-- What the visits leave: the table, `DEPTH_OVF`, and nothing else. -/
theorem visitAll_spec (ls : List (List Bool × Byte)) (s : State) :
    (s.visitAll 0 0 ls) = { s with code := (s.visitAll 0 0 ls).code, depthOvf := (s.visitAll 0 0 ls).depthOvf } ∧
    (∀ x, (s.visitAll 0 0 ls).code.get x = lastEntry (s.code.get x) ls x) ∧
    ((s.visitAll 0 0 ls).depthOvf = true ↔ s.depthOvf = true ∨ ∃ p ∈ ls, Config.codeMax < p.1.length) := by
  induction ls generalizing s with
  | nil => exact ⟨rfl, fun _ => rfl, by simp [State.visitAll]⟩
  | cons q ls ih =>
    obtain ⟨h1, h2, h3⟩ := ih (s.visitLeaf q.2 (pathFrom 0 q.1) (0 + q.1.length))
    have e : s.visitAll 0 0 (q :: ls) = (s.visitLeaf q.2 (pathFrom 0 q.1) (0 + q.1.length)).visitAll 0 0 ls := rfl
    rw [e]
    by_cases hd : q.1.length ≤ Config.codeMax
    · have hv : s.visitLeaf q.2 (pathFrom 0 q.1) (0 + q.1.length) =
          { s with code := s.code.set q.2 ⟨true, BitVec.ofNat 5 q.1.length, pathBits q.1⟩ } := by
        rw [State.visitLeaf, Nat.zero_add, if_pos hd, pathFrom_zero]
      rw [hv] at h1 h2 h3 ⊢
      refine ⟨h1, fun x => ?_, ?_⟩
      · rw [h2, Table.get_set]
        by_cases hx : x = q.2
        · subst hx
          simp only [lastEntry, if_true, List.filter_cons, hd, and_self, decide_true]
          rw [List.getLast?_cons]
          cases hl : (ls.filter fun p => decide (p.2 = q.2 ∧ p.1.length ≤ Config.codeMax)).getLast? <;> simp
        · have : ¬ (q.2 = x ∧ q.1.length ≤ Config.codeMax) := fun h => hx h.1.symm
          simp only [lastEntry, if_neg hx, List.filter_cons, this, decide_false, Bool.false_eq_true, if_false]
      · rw [h3]
        simp only [List.mem_cons, exists_eq_or_imp, not_lt.2 hd, false_or]
    · have hv : s.visitLeaf q.2 (pathFrom 0 q.1) (0 + q.1.length) = s.setDepthOvf true := by
        rw [State.visitLeaf, Nat.zero_add, if_neg hd]
      rw [hv] at h1 h2 h3 ⊢
      refine ⟨h1, fun x => ?_, ?_⟩
      · rw [h2]
        have : ¬ (q.2 = x ∧ q.1.length ≤ Config.codeMax) := fun h => hd h.2
        simp only [lastEntry, List.filter_cons, this, decide_false, Bool.false_eq_true, if_false, setDepthOvf_code]
      · rw [h3]
        simp only [setDepthOvf_depthOvf, true_or, true_iff]
        exact .inr ⟨q, List.mem_cons_self, not_le.1 hd⟩

/-- GEN_CODES's body with a tree (rules R180, R182 and R185). -/
theorem opGenCodes_run {s : State} {tr : Tree} (hv : s.treeValid = true) (ht : s.tree = some tr) :
    ∃ t : State, opGenCodes s = .done () t ∧ t = { s with code := t.code, depthOvf := t.depthOvf } ∧
      (∀ x, t.code.get x = tr.codeEntry x) ∧
      (t.depthOvf = true ↔ ∃ p ∈ tr.leaves, Config.codeMax < p.1.length) := by
  obtain ⟨h1, h2, h3⟩ := visitAll_spec tr.leaves
    (({ s with code := Table.fill CodeEntry.none } : State).setDepthOvf false)
  refine ⟨_, ?_, h1, fun x => ?_, ?_⟩
  · rw [opGenCodes, bind_done (needTree_ok hv ht), modify_seq, walk_run]
  · rw [h2]
    simp only [setDepthOvf_code, Table.get_fill]
    rfl
  · simpa using h3

/-! ## Codes as bits -/

theorem pathFrom_getLsbD (p : List Bool) (v : BitVec 30) (i : Nat) (hi : i < 30) :
    (pathFrom v p).getLsbD i = if i < p.length then p.getD (p.length - 1 - i) false else v.getLsbD (i - p.length) := by
  induction p generalizing v with
  | nil => simp [pathFrom]
  | cons d p ih =>
    have h1 : pathFrom v (d :: p) = pathFrom ((v <<< 1) ||| (if d then 1 else 0)) p := rfl
    rw [h1, ih]
    simp only [List.length_cons]
    by_cases h2 : i < p.length
    · rw [if_pos h2, if_pos (by omega), show p.length + 1 - 1 - i = (p.length - 1 - i) + 1 by omega,
        List.getD_cons_succ]
    · rw [if_neg h2]
      by_cases h3 : i = p.length
      · subst h3
        rw [if_pos (Nat.lt_succ_self p.length)]
        cases d <;> simp
      · have h5 : ¬ i < p.length + 1 := by omega
        rw [if_neg h5]
        obtain ⟨k, hk⟩ : ∃ k, i - p.length = k + 1 := ⟨i - p.length - 1, by omega⟩
        rw [hk, show i - (p.length + 1) = k by omega]
        have h4 : k + 1 < 30 := by omega
        have h6 : k < 30 := by omega
        cases d <;> simp [h4, BitVec.getLsbD_eq_getElem h6]

/-- The bits ENCODE emits for a path of at most 30 steps are the path (rules R38 and R215). -/
theorem emitted_path {p : List Bool} (h : p.length ≤ Config.codeMax) :
    (⟨true, BitVec.ofNat 5 p.length, pathBits p⟩ : CodeEntry).emitted = p := by
  have h0 : p.length ≤ 30 := h
  have h1 : (BitVec.ofNat 5 p.length).toNat = p.length := by
    rw [BitVec.toNat_ofNat]; exact Nat.mod_eq_of_lt (by omega)
  simp only [CodeEntry.emitted, h1]
  refine List.ext_getElem (by simp) fun k hk hk' => ?_
  rw [List.getElem_map, List.getElem_range, ← pathFrom_zero, pathFrom_getLsbD _ _ _ (by omega), if_pos (by omega),
    show p.length - 1 - (p.length - 1 - k) = k by omega]
  simp [List.getD_eq_getElem?_getD, hk']

/-- No Leaf's path begins another's (rule R184): of two Leaves in pre-order, neither path is a prefix. -/
theorem paths_prefix_free (t : Tree) :
    t.leaves.Pairwise fun p q => ¬ p.1 <+: q.1 ∧ ¬ q.1 <+: p.1 := by
  induction t with
  | leaf x => exact List.pairwise_singleton _ _
  | branch l r ihl ihr =>
    refine List.pairwise_append.2 ⟨?_, ?_, ?_⟩
    · exact List.pairwise_map.2 (ihl.imp fun h => by simpa using h)
    · exact List.pairwise_map.2 (ihr.imp fun h => by simpa using h)
    · intro p hp q hq
      obtain ⟨a, _, rfl⟩ := List.mem_map.1 hp
      obtain ⟨b, _, rfl⟩ := List.mem_map.1 hq
      simp

/-- Where no symbol stands in two Leaves, the code of a Leaf's symbol is that Leaf's path (rule R184). -/
theorem codeEntry_of_leaf {t : Tree} (hn : t.symbols.Nodup) {p : List Bool × Byte} (hp : p ∈ t.leaves)
    (hd : p.1.length ≤ Config.codeMax) :
    t.codeEntry p.2 = ⟨true, BitVec.ofNat 5 p.1.length, pathBits p.1⟩ := by
  have h1 : (t.leaves.filter fun q => decide (q.2 = p.2 ∧ q.1.length ≤ Config.codeMax)) = [p] := by
    have h2 : t.leaves.Nodup := List.Nodup.of_map _ hn
    have h3 : ∀ q ∈ t.leaves, q.2 = p.2 → q = p := fun q hq h => List.inj_on_of_nodup_map hn hq hp h
    have h4 : (t.leaves.filter fun q => decide (q.2 = p.2 ∧ q.1.length ≤ Config.codeMax)).Perm [p] := by
      refine (List.perm_ext_iff_of_nodup (h2.filter _) (List.nodup_singleton p)).2 fun q => ?_
      simp only [List.mem_filter, List.mem_singleton, decide_eq_true_eq]
      constructor
      · rintro ⟨hq, h5, _⟩; exact h3 q hq h5
      · rintro rfl; exact ⟨hp, rfl, hd⟩
    exact List.perm_singleton.1 h4
  rw [Tree.codeEntry, h1]; rfl

/-- A symbol that no Leaf holds has no code (rule R184). -/
theorem codeEntry_of_absent {t : Tree} {x : Byte} (h : x ∉ t.symbols) : t.codeEntry x = CodeEntry.none := by
  have h1 : (t.leaves.filter fun q => decide (q.2 = x ∧ q.1.length ≤ Config.codeMax)) = [] := by
    refine List.filter_eq_nil_iff.2 fun q hq => ?_
    simp only [decide_eq_true_eq, not_and]
    exact fun h2 => absurd (h2 ▸ List.mem_map_of_mem (f := Prod.snd) hq) h
  rw [Tree.codeEntry, h1]; rfl

end Sys2Proof.Machine
end

