-- ==== Sys2Proof/Laws/Host.lean ====
section
/-! SUPPORT. The host's turn and the sequencer's (20_memory.md rules R74 and R76): an issued word is the next
one a step takes, the host has no move while it waits, and after its step it is the host's turn again. -/

namespace Sys2Proof.Machine

theorem idle_iff (s : State) : s.idle = true ↔ s.fault = true ∨ s.pc = s.prog.length := by simp [State.idle]

theorem HostMove.idle {s t : State} (h : HostMove s t) : s.idle = true := by cases h <;> assumption

/-- A word issued to a run that goes on is the word at `pc`. -/
theorem fetch_hIssue {s : State} (w : CmdWord) (hi : s.idle = true) (hf : s.fault = false) :
    fetch (s.hIssue w) = some w := by
  rcases (idle_iff s).1 hi with h | h
  · rw [hf] at h; cases h
  · simp [fetch, h]

/-- While it waits it is not the host's turn. -/
theorem idle_hIssue {s : State} (w : CmdWord) (hi : s.idle = true) (hf : s.fault = false) :
    (s.hIssue w).idle = false := by
  rcases (idle_iff s).1 hi with h | h
  · rw [hf] at h; cases h
  · simp [State.idle, hf, h]

/-- A step that takes the only waiting word gives the turn back. -/
theorem idle_of_last {s t : State} (hp : t.prog = s.prog) (hl : s.prog.length = s.pc + 1)
    (ht : t.fault = true ∨ t.pc = s.pc + 1) : t.idle = true :=
  (idle_iff t).2 (ht.imp_right fun h => by rw [h, hp, hl])

end Sys2Proof.Machine
end

