-- ==== Sys2Proof/Laws/PerInstr.lean ====
section
/-! SUPPORT. Per-command lemmas: the encoder's word of every command is legal by the opcode map of
30_encoding.md rule R82. -/

namespace Sys2Proof.Laws.EncodesLegally

/-- The word of the command selects a row of the opcode map. -/
def Statement (i : Instr) : Prop := wellFormedWord (Sys2Proof.encode i) = true

theorem nop : Statement .nop := rfl
theorem rewind : Statement .rewind := rfl
theorem ldSize : Statement .ldSize := rfl
theorem openRd : Statement .openRd := rfl
theorem openWr : Statement .openWr := rfl
theorem rdBit : Statement .rdBit := rfl
theorem rdByte : Statement .rdByte := rfl
theorem wrBit (b : Bool) : Statement (.wrBit b) := by cases b <;> rfl
theorem wrByte (v : Byte) : Statement (.wrByte v) := by
  have h : ∀ v : Byte, wellFormedWord (Sys2Proof.encode (.wrByte v)) = true := by decide +kernel
  exact h v
theorem flush : Statement .flush := rfl
theorem rdSize : Statement .rdSize := rfl
theorem wrSize : Statement .wrSize := rfl
theorem cntDistinct : Statement .cntDistinct := rfl
theorem hist : Statement .hist := rfl
theorem flist : Statement .flist := rfl
theorem buildTree : Statement .buildTree := rfl
theorem genCodes : Statement .genCodes := rfl
theorem wrTree : Statement .wrTree := rfl
theorem rdTree : Statement .rdTree := rfl
theorem encode : Statement .encode := rfl
theorem decode : Statement .decode := rfl
theorem compress : Statement .compress := rfl
theorem decompress : Statement .decompress := rfl

end Sys2Proof.Laws.EncodesLegally
end

