-- ==== Sys2Proof/Laws/TreeBuilder.lean ====
section
/-! SUPPORT. The Tree Builder: the stable insertion, and what the merging loop makes of a work list over a
forest in the arena (43_tree_builder.md rules R160 to R168). -/

namespace Sys2Proof.Machine

theorem countP_split {α : Type} (p : α → Bool) {l : List α} (h : l.Pairwise fun a b => p b = true → p a = true) :
    l.take (l.countP p) = l.filter p ∧ l.drop (l.countP p) = l.filter fun a => !p a := by
  induction l with
  | nil => exact ⟨rfl, rfl⟩
  | cons a l ih =>
    obtain ⟨h1, h2⟩ := List.pairwise_cons.1 h
    cases hp : p a with
    | true => simp [hp, ih h2]
    | false =>
      have h3 : ∀ b ∈ l, p b = false := fun b hb => by
        cases hb' : p b with
        | false => rfl
        | true => rw [h1 b hb hb'] at hp; cases hp
      have h4 : l.countP p = 0 := List.countP_eq_zero.2 fun b hb => by simp [h3 b hb]
      have h5 : l.filter p = [] := List.filter_eq_nil_iff.2 fun b hb => by simp [h3 b hb]
      have h6 : (l.filter fun a => !p a) = l := List.filter_eq_self.2 fun b hb => by simp [h3 b hb]
      simp [hp, h4, h5, h6]

/-- The insertion puts the item somewhere in the list. -/
theorem insertItem_eq (wl : List WorkItem) (x : WorkItem) :
    ∃ a b, wl = a ++ b ∧ insertItem wl x = a ++ x :: b :=
  ⟨wl.take (wl.countP fun k => decide (k.w ≤ x.w)), wl.drop (wl.countP fun k => decide (k.w ≤ x.w)),
    (List.take_append_drop _ _).symm, by simp [insertItem]⟩

@[simp] theorem length_insertItem (wl : List WorkItem) (x : WorkItem) :
    (insertItem wl x).length = wl.length + 1 := by
  obtain ⟨a, b, h1, h2⟩ := insertItem_eq wl x
  rw [h2, h1]; simp; omega

/-- A work item with the tree it owns and the nodes that tree reaches. -/
structure Owned where
  item  : WorkItem
  tree  : Tree
  nodes : List Nat

/-- The work list owns a forest in the arena: a tree for each item, no node reached twice. -/
structure Forest (nodes : List Node) (q : List Owned) : Prop where
  spans : ∀ o ∈ q, Spans nodes o.item.n.toNat o.tree o.nodes
  once  : (q.flatMap Owned.nodes).Nodup

theorem Forest.lt {nodes : List Node} {q : List Owned} (h : Forest nodes q) :
    ∀ j ∈ q.flatMap Owned.nodes, j < nodes.length := fun j hj => by
  obtain ⟨o, ho, hj⟩ := List.mem_flatMap.1 hj
  exact (h.spans o ho).lt j hj

theorem Forest.perm {nodes : List Node} {q q' : List Owned} (h : Forest nodes q) (hp : q.Perm q') :
    Forest nodes q' where
  spans o ho := h.spans o (hp.mem_iff.2 ho)
  once := (hp.flatMap_right _).nodup_iff.1 h.once

/-- The item of one merge, with its tree. -/
def Owned.merge (n : Nat) (x y : Owned) : Owned where
  item := ⟨x.item.w + y.item.w, BitVec.ofNat 9 n⟩
  tree := .branch x.tree y.tree
  nodes := n :: (x.nodes ++ y.nodes)

/-- One merge keeps the forest (rule R160). -/
theorem Forest.merge {nodes : List Node} {x y : Owned} {q : List Owned} (h : Forest nodes (x :: y :: q))
    (hn : nodes.length < 512) :
    Forest (nodes ++ [.branch x.item.n y.item.n]) (x.merge nodes.length y :: q) where
  spans o ho := by
    rcases List.mem_cons.1 ho with rfl | ho
    · have h1 : (BitVec.ofNat 9 nodes.length).toNat = nodes.length := by
        rw [BitVec.toNat_ofNat, Nat.mod_eq_of_lt hn]
      show Spans _ (BitVec.ofNat 9 nodes.length).toNat _ _
      rw [h1]
      exact .branch (by simp) ((h.spans x (by simp)).append _) ((h.spans y (by simp)).append _)
    · exact (h.spans o (by simp [ho])).append _
  once := by
    have h1 := h.once
    have h2 := h.lt
    simp only [List.flatMap_cons, ← List.append_assoc] at h1 h2
    simp only [List.flatMap_cons, Owned.merge, List.cons_append]
    exact List.nodup_cons.2 ⟨fun h3 => absurd (h2 _ h3) (lt_irrefl _), h1⟩

/-- The insertion of an owned item. -/
theorem insert_owned (q : List Owned) (o : Owned) :
    ∃ q' : List Owned, q'.map Owned.item = insertItem (q.map Owned.item) o.item ∧ q'.Perm (o :: q) := by
  obtain ⟨a, b, h1, h2⟩ := insertItem_eq (q.map Owned.item) o.item
  obtain ⟨a', b', rfl, ha, hb⟩ := List.map_eq_append_iff.1 h1
  exact ⟨a' ++ o :: b', by rw [h2]; simp [ha, hb], List.perm_middle⟩

/-- What the merging loop makes of a work list that owns a forest (rules R160 and R163 to R168). -/
theorem mergeLoop_run (n : Nat) (s : State) (q : List Owned) (hq : q.map Owned.item = s.wl)
    (hf : Forest s.node q) (h0 : q ≠ []) (hn : q.length ≤ n + 1) (hc : s.node.length + q.length ≤ 512) :
    ∃ (o : Owned) (more : List Node),
      mergeLoop n s = .done () { s with node := s.node ++ more, wl := [o.item] } ∧
      Forest (s.node ++ more) [o] ∧ more.length + 1 = q.length ∧
      (q.length ≠ 1 → o.item.n.toNat + 2 = s.node.length + q.length) ∧ (q.length = 1 → q = [o]) ∧
      o.tree.symbols.Perm (q.flatMap fun p => p.tree.symbols) ∧
      ((q.map fun p => p.item.w.toNat).sum < 2 ^ 64 → o.item.w.toNat = (q.map fun p => p.item.w.toNat).sum) := by
  induction n generalizing s q with
  | zero =>
    obtain ⟨o, rfl⟩ : ∃ o, q = [o] := List.length_eq_one_iff.1 (by
      have := List.length_pos_iff.2 h0; omega)
    refine ⟨o, [], ?_, by simpa using hf, rfl, by simp, fun _ => rfl, by simp, by simp⟩
    simp only [mergeLoop, skip_run, List.append_nil]
    rw [show [o.item] = s.wl from hq]
  | succ n ih =>
    match q, h0 with
    | [o], _ =>
      have hw : s.wl = [o.item] := by rw [← hq]; rfl
      refine ⟨o, [], ?_, by simpa using hf, rfl, by simp, fun _ => rfl, by simp, by simp⟩
      simp only [mergeLoop, hw, List.append_nil]
      rw [← hw]
    | x :: y :: q, _ =>
      have hw : s.wl = x.item :: y.item :: q.map Owned.item := by rw [← hq]; rfl
      have hlen : s.node.length < 512 := by simp at hc; omega
      obtain ⟨q', h1, h2⟩ := insert_owned q (x.merge s.node.length y)
      have h3 := (hf.merge hlen).perm h2.symm
      have hl := h2.length_eq
      simp only [List.length_cons] at hl hn hc
      obtain ⟨o, more, e1, e2, e3, e4, e5, e6, e7⟩ := ih (s.merge x.item y.item (q.map Owned.item)) q' h1 h3
        (by intro h; rw [h] at hl; simp at hl) (by omega)
        (by simp [State.merge]; omega)
      refine ⟨o, .branch x.item.n y.item.n :: more, ?_, ?_, ?_, ?_, ?_, ?_, ?_⟩
      · simp only [mergeLoop, hw, e1]
        simp [State.merge]
      · simpa [State.merge] using e2
      · simp; omega
      · intro _
        by_cases hq1 : q'.length = 1
        · have h4 := e5 hq1
          have h5 : o = x.merge s.node.length y := by
            have hq0 : q = [] := List.length_eq_zero_iff.1 (by omega)
            rw [h4, hq0] at h2
            exact List.singleton_perm_singleton.1 h2
          rw [h5]
          show (BitVec.ofNat 9 s.node.length).toNat + 2 = _
          rw [BitVec.toNat_ofNat, Nat.mod_eq_of_lt hlen]
          simp only [List.length_cons]; omega
        · have := e4 hq1
          simp [State.merge] at this ⊢; omega
      · intro h; simp at h
      · refine e6.trans (((h2.flatMap_right _)).trans ?_)
        simp [Owned.merge]
      · intro hs
        have hp : (q'.map fun p => p.item.w.toNat).sum =
            ((x.merge s.node.length y :: q).map fun p => p.item.w.toNat).sum := (h2.map _).sum_eq
        simp only [List.map_cons, List.sum_cons] at hs hp ⊢
        have hw2 : (x.merge s.node.length y).item.w.toNat = x.item.w.toNat + y.item.w.toNat := by
          show (x.item.w + y.item.w).toNat = _
          rw [BitVec.toNat_add, Nat.mod_eq_of_lt (by omega)]
        rw [hw2] at hp
        have h9 := e7 (by rw [hp]; omega)
        rw [h9, hp]; omega

theorem flatten_singletons {α : Type} (l : List α) : (l.map fun x => [x]).flatten = l := by
  induction l with
  | nil => rfl
  | cons a l ih => simp [ih]

/-- The forest of FLIST's Leaves: item `j` owns node `j` (rule R146 (b)). -/
theorem leaves_forest {wl : List WorkItem} {syms : List Byte} (hk : syms.length < 512)
    (hn : wl.map WorkItem.n = (List.range syms.length).map (BitVec.ofNat 9)) :
    ∃ q : List Owned, q.map Owned.item = wl ∧ Forest (syms.map Node.leaf) q ∧
      (q.flatMap fun o => o.tree.symbols) = syms := by
  have hl : wl.length = syms.length := by simpa using congrArg List.length hn
  refine ⟨List.ofFn (n := syms.length) fun j => ⟨wl[j.1], .leaf syms[j.1], [j.1]⟩, ?_, ⟨?_, ?_⟩, ?_⟩
  · refine List.ext_getElem (by simp [hl]) fun j h1 h2 => by simp
  · intro o ho
    obtain ⟨j, rfl⟩ := List.mem_ofFn.1 ho
    have h1 : wl[j.1].n = BitVec.ofNat 9 j.1 := by
      have h2 := congrArg (fun l => l[j.1]?) hn
      simpa [hl] using h2
    have h3 : wl[j.1].n.toNat = j.1 := by
      rw [h1, BitVec.toNat_ofNat]; exact Nat.mod_eq_of_lt (lt_trans j.2 hk)
    show Spans _ wl[j.1].n.toNat _ _
    rw [h3]
    exact .leaf (by simp)
  · have h1 : (List.ofFn (n := syms.length) fun j => (⟨wl[j.1], .leaf syms[j.1], [j.1]⟩ : Owned)).flatMap Owned.nodes =
        ((List.range syms.length).map fun j => [j]).flatten := by
      rw [List.flatMap_def]
      congr 1
      refine List.ext_getElem (by simp) fun j h1 h2 => by simp
    rw [h1, flatten_singletons]; exact List.nodup_range
  · have h1 : (List.ofFn (n := syms.length) fun j => (⟨wl[j.1], .leaf syms[j.1], [j.1]⟩ : Owned)).flatMap
        (fun o => o.tree.symbols) = (syms.map fun x => [x]).flatten := by
      rw [List.flatMap_def]
      congr 1
      refine List.ext_getElem (by simp) fun j h1 h2 => by simp
    rw [h1, flatten_singletons]

/-- BUILD_TREE over the Leaves of FLIST, `k` of them (rules R160, R163, R165 and R166). -/
theorem opBuildTree_run {s : State} {syms : List Byte} (hs : s.node = syms.map Node.leaf)
    (hn : s.wl.map WorkItem.n = (List.range syms.length).map (BitVec.ofNat 9)) (h0 : s.wl ≠ [])
    (hk : syms.length ≤ 256) :
    ∃ (t : State) (tr : Tree) (vs : List Nat) (more : List Node), opBuildTree s = .done () t ∧
      t = { s with node := t.node, wl := [], root := t.root, checksum := t.checksum, treeValid := true } ∧
      t.node = s.node ++ more ∧ more.length + 1 = syms.length ∧
      Spans t.node t.root.toNat tr vs ∧ vs.Nodup ∧ t.root.toNat + 2 = 2 * syms.length ∧ tr.symbols.Perm syms ∧
      ((s.wl.map fun x => x.w.toNat).sum < 2 ^ 64 →
        t.checksum.toNat = (s.wl.map fun x => x.w.toNat).sum) := by
  obtain ⟨q, h1, h2, h3⟩ := leaves_forest (by omega) hn
  have hl : q.length = syms.length := by
    have := congrArg List.length hn
    rw [← h1] at this; simpa using this
  rw [← hs] at h2
  have hq : q ≠ [] := by rintro rfl; exact h0 h1.symm
  have hlen : s.node.length = syms.length := by rw [hs]; simp
  obtain ⟨o, more, e1, e2, e3, e4, e5, e6, e7⟩ := mergeLoop_run s.wlLen s q h1 h2 hq
    (by rw [State.wlLen, ← h1]; simp) (by omega)
  have hwl : s.wlLen ≠ 0 := fun h => h0 (List.length_eq_zero_iff.1 h)
  refine ⟨({ s with node := s.node ++ more, wl := [], checksum := o.item.w } : State).setTree true o.item.n,
    o.tree, o.nodes, more, ?_, ?_, rfl, by omega, e2.spans o (by simp), ?_, ?_, ?_, ?_⟩
  · simp only [opBuildTree, if_neg hwl, seq_done e1, takeRoot]
  · rfl
  · simpa using e2.once
  · show o.item.n.toNat + 2 = _
    by_cases h6 : q.length = 1
    · have h7 := e5 h6
      have h8 : o.item = s.wl.head h0 := by simp [← h1, h7]
      have h9 := congrArg (fun l => l.head?) hn
      have h10 : syms.length = 1 := by omega
      rw [h10] at h9
      have h11 : s.wl = [o.item] := by rw [← h1, h7]; rfl
      rw [h11] at h9
      simp at h9
      rw [h9, h10]; rfl
    · have := e4 h6; omega
  · rw [h3] at e6; exact e6
  · intro h6
    have h7 : (q.map fun p => p.item.w.toNat) = s.wl.map fun x => x.w.toNat := by rw [← h1, List.map_map]; rfl
    rw [h7] at e7
    exact e7 h6

end Sys2Proof.Machine
end

