-- ==== Sys2Proof/Laws/Queue.lean ====
section
/-! SUPPORT. The work list and the priority queue take the same items in the same order (43_tree_builder.md
rules R162 and R164, 10_state.md rule R39). -/

namespace Sys2Proof.Machine

theorem before_iff (x y : PqItem) :
    x.before y = true ↔ x.w.toNat < y.w.toNat ∨ (x.w.toNat = y.w.toNat ∧ x.seq < y.seq) := by
  simp [PqItem.before, BitVec.lt_def, BitVec.toNat_inj]

/-- No item of the queue stands before the least one, which is an item of the queue. -/
theorem pqLeast_spec (x : PqItem) (rest : List PqItem) :
    pqLeast x rest ∈ x :: rest ∧ ∀ z ∈ x :: rest, ¬ z.before (pqLeast x rest) = true := by
  induction rest generalizing x with
  | nil => simp [pqLeast, before_iff]
  | cons y rest ih =>
    simp only [pqLeast]
    split_ifs with h
    · obtain ⟨h1, h2⟩ := ih y
      refine ⟨List.mem_cons_of_mem _ h1, fun z hz => ?_⟩
      rcases List.mem_cons.1 hz with rfl | hz
      · have := h2 y (by simp)
        rw [before_iff] at *
        omega
      · exact h2 z hz
    · obtain ⟨h1, h2⟩ := ih x
      refine ⟨?_, fun z hz => ?_⟩
      · rcases List.mem_cons.1 h1 with h1 | h1
        · rw [h1]; simp
        · exact List.mem_cons_of_mem _ (List.mem_cons_of_mem _ h1)
      · have hx := h2 x (by simp)
        rcases List.mem_cons.1 hz with rfl | hz
        · exact hx
        · rcases List.mem_cons.1 hz with rfl | hz
          · rw [before_iff] at *
            omega
          · exact h2 z (by simp [hz])

/-- The first of an ordered list is the least of every queue that holds its items. -/
theorem pqLeast_eq {x m : PqItem} {rest l : List PqItem} (hp : (x :: rest).Perm (m :: l))
    (hm : ∀ z ∈ l, m.before z = true) : pqLeast x rest = m := by
  obtain ⟨h1, h2⟩ := pqLeast_spec x rest
  rcases List.mem_cons.1 (hp.mem_iff.1 h1) with h | h
  · exact h
  · exact absurd (hm _ h) (h2 m (hp.mem_iff.2 (by simp)))

/-- The work item of a queue item. -/
def PqItem.item (x : PqItem) : WorkItem := ⟨x.w, x.n⟩

/-- Inserting a work item is inserting its queue item with the next sequence number. -/
theorem insert_ordered {l : List PqItem} (h : l.Pairwise fun a b => a.before b = true) (c : PqItem)
    (hc : ∀ z ∈ l, z.seq < c.seq) :
    ∃ l' : List PqItem, l'.map PqItem.item = insertItem (l.map PqItem.item) c.item ∧
      (l'.Pairwise fun a b => a.before b = true) ∧ l'.Perm (c :: l) := by
  have hsplit := countP_split (fun k : PqItem => decide (k.w ≤ c.w)) (l := l) (h.imp fun {a b} hab hb => by
    rw [before_iff] at hab
    simp only [decide_eq_true_eq, BitVec.le_def] at hb ⊢
    omega)
  have hcount : (l.map PqItem.item).countP (fun k => decide (k.w ≤ c.item.w)) =
      l.countP fun k => decide (k.w ≤ c.w) := List.countP_map
  refine ⟨l.take (l.countP fun k => decide (k.w ≤ c.w)) ++ c :: l.drop (l.countP fun k => decide (k.w ≤ c.w)),
    ?_, ?_, ?_⟩
  · simp only [insertItem, hcount, List.map_append, List.map_cons, List.map_take, List.map_drop, List.append_assoc,
      List.cons_append, List.nil_append]
  · rw [hsplit.1, hsplit.2]
    refine List.pairwise_append.2 ⟨h.filter _, List.pairwise_cons.2 ⟨fun z hz => ?_, h.filter _⟩, fun a ha b hb => ?_⟩
    · have hz := (List.mem_filter.1 hz).2
      simp only [Bool.not_eq_true', decide_eq_false_iff_not, BitVec.le_def] at hz
      rw [before_iff]; omega
    · have ha' := (List.mem_filter.1 ha).2
      simp only [decide_eq_true_eq, BitVec.le_def] at ha'
      have hac := hc a (List.mem_filter.1 ha).1
      rw [before_iff]
      rcases List.mem_cons.1 hb with rfl | hb
      · omega
      · have hb := (List.mem_filter.1 hb).2
        simp only [Bool.not_eq_true', decide_eq_false_iff_not, BitVec.le_def] at hb
        omega
  · exact List.perm_middle.trans (by rw [List.take_append_drop])

/-- The merging loop over an ordered work list gives what the queue gives, whatever order the queue holds its
items in. -/
theorem mergeLoop_queue (n : Nat) {s : State} {q l : List PqItem} {seq : Nat}
    (hwl : l.map PqItem.item = s.wl) (hl : l.Pairwise fun a b => a.before b = true) (hq : q.Perm l)
    (hseq : ∀ z ∈ l, z.seq < seq) (hn : l.length = n + 1) :
    ∃ r nodes, pqBuild (n + 1) q seq s.node = some (r, nodes) ∧
      mergeLoop (n + 1) s = .done () { s with node := nodes, wl := [r.item] } := by
  induction n generalizing s q l seq with
  | zero =>
    obtain ⟨m, rfl⟩ := List.length_eq_one_iff.1 hn
    obtain rfl := List.perm_singleton.1 hq
    have hw : s.wl = [m.item] := hwl.symm
    exact ⟨m, s.node, by simp [pqBuild], by simp only [mergeLoop, hw]; rw [← hw]⟩
  | succ n ih =>
    match l, hn with
    | m1 :: m2 :: l, hn =>
      obtain ⟨h1, h2⟩ := List.pairwise_cons.1 hl
      obtain ⟨h3, h4⟩ := List.pairwise_cons.1 h2
      have hw : s.wl = m1.item :: m2.item :: l.map PqItem.item := hwl.symm
      obtain ⟨x, rest, rfl⟩ : ∃ x rest, q = x :: rest := by
        cases q with
        | nil => exact absurd hq.length_eq (by simp)
        | cons x rest => exact ⟨x, rest, rfl⟩
      have hrest : rest ≠ [] := fun h => by
        have := hq.length_eq; rw [h] at this; simp at this
      have hp1 : ((x :: rest).erase m1).Perm (m2 :: l) := by
        have h5 := hq.erase m1
        rwa [List.erase_cons_head] at h5
      obtain ⟨y, rest', hy⟩ : ∃ y rest', (x :: rest).erase m1 = y :: rest' := by
        cases hE : (x :: rest).erase m1 with
        | nil => rw [hE] at hp1; exact absurd hp1.length_eq (by simp)
        | cons y rest' => exact ⟨y, rest', rfl⟩
      rw [hy] at hp1
      have hp2 : ((y :: rest').erase m2).Perm l := by
        have h5 := hp1.erase m2
        rwa [List.erase_cons_head] at h5
      obtain ⟨l', e1, e2, e3⟩ := insert_ordered h4 ⟨m1.w + m2.w, seq, BitVec.ofNat 9 s.node.length⟩
        (fun z hz => hseq z (by simp [hz]))
      obtain ⟨r, nodes, e4, e5⟩ := ih (s := s.merge m1.item m2.item (l.map PqItem.item))
        (q := ⟨m1.w + m2.w, seq, BitVec.ofNat 9 s.node.length⟩ :: (y :: rest').erase m2) (seq := seq + 1) e1 e2
        ((hp2.cons _).trans e3.symm)
        (fun z hz => by
          rcases List.mem_cons.1 (e3.mem_iff.1 hz) with rfl | hz
          · exact Nat.lt_succ_self _
          · exact Nat.lt_succ_of_lt (hseq z (by simp [hz])))
        (by have := e3.length_eq; simp at this hn ⊢; omega)
      refine ⟨r, nodes, ?_, ?_⟩
      · rw [pqBuild]
        simp only [hrest, if_false, pqLeast_eq hq h1, hy, pqLeast_eq hp1 h3]
        exact e4
      · rw [mergeLoop]
        simp only [hw]
        rw [e5]; rfl

end Sys2Proof.Machine
end

