-- ==== Sys2Proof/Laws/Serdes.lean ====
section
/-! SUPPORT. The Tree Deserializer: `get` reads exactly what `ser` writes and numbers the nodes in pre-order,
and completes on nothing else (45_tree_serdes.md rules R200 to R204). -/

namespace Sys2Proof.Machine

theorem length_preorder (t : Tree) (i : Nat) : (t.preorder i).length + 1 = 2 * t.leaves.length := by
  induction t generalizing i with
  | leaf x => rfl
  | branch l r ihl ihr =>
    have h1 := ihl (i + 1)
    have h2 := ihr (i + 1 + (l.preorder (i + 1)).length)
    simp [Tree.preorder, Tree.leaves]; omega

theorem depth_lt_leaves (t : Tree) : t.depth < t.leaves.length := by
  induction t with
  | leaf x => exact Nat.one_pos
  | branch l r ihl ihr =>
    have := leaves_pos l
    have := leaves_pos r
    simp [Tree.depth, Tree.leaves]; omega

/-- The pre-order arena of a tree spans it (rule R201). -/
theorem spans_preorder (t : Tree) (pre post : List Node) (h : pre.length + (t.preorder pre.length).length ≤ 512) :
    Spans (pre ++ (t.preorder pre.length ++ post)) pre.length t
      (List.range' pre.length (t.preorder pre.length).length) := by
  induction t generalizing pre post with
  | leaf x => exact .leaf (by simp [Tree.preorder])
  | branch l r ihl ihr =>
    have hl0 := length_preorder l (pre.length + 1)
    have hr0 := length_preorder r (pre.length + 1 + (l.preorder (pre.length + 1)).length)
    have hl1 := leaves_pos l
    have hr1 := leaves_pos r
    simp only [Tree.preorder, List.length_cons, List.length_append] at h ⊢
    set b : Node := .branch (BitVec.ofNat 9 (pre.length + 1))
      (BitVec.ofNat 9 (pre.length + 1 + (l.preorder (pre.length + 1)).length)) with hb
    have e1 : (BitVec.ofNat 9 (pre.length + 1)).toNat = pre.length + 1 := by
      rw [BitVec.toNat_ofNat, Nat.mod_eq_of_lt (by omega)]
    have e2 : (BitVec.ofNat 9 (pre.length + 1 + (l.preorder (pre.length + 1)).length)).toNat =
        pre.length + 1 + (l.preorder (pre.length + 1)).length := by
      rw [BitVec.toNat_ofNat, Nat.mod_eq_of_lt (by omega)]
    have hl := ihl (pre ++ [b]) (r.preorder (pre.length + 1 + (l.preorder (pre.length + 1)).length) ++ post)
      (by simp; omega)
    have e3 : (pre ++ [b] ++ l.preorder (pre.length + 1)).length =
        pre.length + 1 + (l.preorder (pre.length + 1)).length := by simp; omega
    have hr := ihr (pre ++ [b] ++ l.preorder (pre.length + 1)) post (by rw [e3]; omega)
    rw [e3] at hr
    rw [show (pre ++ [b]).length = pre.length + 1 by simp] at hl
    have h1 : Spans (pre ++ (b :: (l.preorder (pre.length + 1) ++
        r.preorder (pre.length + 1 + (l.preorder (pre.length + 1)).length)) ++ post)) pre.length (.branch l r)
        (pre.length :: (List.range' (pre.length + 1) (l.preorder (pre.length + 1)).length ++
          List.range' (pre.length + 1 + (l.preorder (pre.length + 1)).length)
            (r.preorder (pre.length + 1 + (l.preorder (pre.length + 1)).length)).length)) := by
      refine .branch (l := BitVec.ofNat 9 (pre.length + 1))
        (r := BitVec.ofNat 9 (pre.length + 1 + (l.preorder (pre.length + 1)).length)) (by simp [hb]) ?_ ?_
      · rw [e1]; simpa using hl
      · rw [e2]; simpa [Nat.add_assoc] using hr
    convert h1 using 1
    rw [List.range'_append_1, List.range'_succ]

/-! ## Eight bits are a byte -/

/-- The byte of eight bits. -/
theorem exists_byteBits {bits : List Bool} (h : bits.length = 8) : ∃ v, byteBits v = bits := by
  match bits, h with
  | [a, b, c, d, e, f, g, i], _ =>
    have key : ∀ a b c d e f g i : Bool, byteBits
        (BitVec.ofNat 8 (a.toNat * 128 + b.toNat * 64 + c.toNat * 32 + d.toNat * 16 + e.toNat * 8 + f.toNat * 4 +
          g.toNat * 2 + i.toNat)) = [a, b, c, d, e, f, g, i] := by decide
    exact ⟨_, key a b c d e f g i⟩

theorem byteBits_inj {v w : Byte} (h : byteBits v = byteBits w) : v = w := by
  rw [← setBits_byteBits v, ← setBits_byteBits w]
  simp only [byteBits, List.cons.injEq] at h
  obtain ⟨h7, h6, h5, h4, h3, h2, h1, h0, _⟩ := h
  rw [h7, h6, h5, h4, h3, h2, h1, h0]

/-- `read_byte()` with fewer than eight bits to come raises (rule R111). -/
theorem readByteLoop_short (n : Nat) (v : Byte) {s : State} (h : StoresWf s) (hb : s.inBits.length < n) :
    ∃ t, readByteLoop n v s = .raised .eof t ∧ SameButIn s t ∧ StoresWf t ∧ t.inBits = [] := by
  induction n generalizing v s with
  | zero => omega
  | succ n ih =>
    cases hbits : s.inBits with
    | nil => exact ⟨s, by rw [readByteLoop, bind_raised (readBit_nil h hbits)], SameButIn.refl s, h, hbits⟩
    | cons b bits =>
      obtain ⟨t, h1, h2, h3, h4⟩ := readByteLoop_cons (n := n) (v := v) h hbits
      obtain ⟨u, h5, h6, h7, h8⟩ := ih (setBit v n b) h3 (by rw [h4]; rw [hbits] at hb; simpa using hb)
      exact ⟨u, by rw [h1, h5], h2.trans h6, h7, h8⟩

theorem readBit_done {s t : State} {b : Bool} (h : StoresWf s) (hd : readBit s = .done b t) :
    s.inBits = b :: t.inBits ∧ StoresWf t ∧ SameButIn s t := by
  cases hb : s.inBits with
  | nil => rw [readBit_nil h hb] at hd; cases hd
  | cons c bits =>
    obtain ⟨u, h1, h2, h3, h4⟩ := readBit_cons h hb
    rw [hd] at h1
    injection h1 with h5 h6
    subst h5 h6
    exact ⟨by rw [h4], h3, h2⟩

theorem readByte_done {s t : State} {v : Byte} (h : StoresWf s) (hd : readByte s = .done v t) :
    s.inBits = byteBits v ++ t.inBits ∧ StoresWf t ∧ SameButIn s t := by
  by_cases hl : s.inBits.length < 8
  · obtain ⟨u, h1, _⟩ := readByteLoop_short 8 0 h hl
    rw [readByte, h1] at hd; cases hd
  · obtain ⟨w, hw⟩ := exists_byteBits (bits := s.inBits.take 8) (by simp; omega)
    have hb : s.inBits = byteBits w ++ s.inBits.drop 8 := by rw [hw, List.take_append_drop]
    obtain ⟨u, h1, h2, h3, h4⟩ := readByte_cons h hb
    rw [hd] at h1
    injection h1 with h5 h6
    subst h5 h6
    exact ⟨by rw [h4]; exact hb, h3, h2⟩

/-! ## `get` -/

/-- Only the arena, the read position and the channel differ, the arena being extended by `more`. -/
def Grew (s t : State) (more : List Node) : Prop :=
  t = { s with node := s.node ++ more, srcPos := t.srcPos, bcCur := t.bcCur, bcBuf := t.bcBuf }

theorem needRoom_ok {s : State} (h : s.node.length < 511) : needRoom s = .done () s :=
  if_neg (by show ¬ s.node.length = 511; omega)

theorem Grew.leaf {s a c : State} {x : Byte} (c1 : SameButIn s a) (c2 : SameButIn a c) :
    Grew s { c with node := c.node ++ [Node.leaf x] } [Node.leaf x] := by
  have h : SameButIn s c := c1.trans c2
  have hn : c.node = s.node := by rw [h]
  rw [Grew, hn]
  exact congrArg (fun u : State => { u with node := s.node ++ [Node.leaf x] }) h

theorem Grew.branch {s a l r : State} {ls rs : List Node} {i x y : NodeIx} (c1 : SameButIn s a)
    (h1 : Grew { a with node := a.node ++ [Node.branch 0 0] } l ls) (h2 : Grew l r rs)
    (hi : i.toNat = s.node.length) :
    Grew s { r with node := r.node.set i.toNat (Node.branch x y) } (Node.branch x y :: (ls ++ rs)) := by
  have hn : a.node = s.node := by rw [c1]
  have e1 : l.node = s.node ++ .branch 0 0 :: ls := by rw [h1]; simp [hn]
  have e2 : r.node = s.node ++ .branch 0 0 :: (ls ++ rs) := by rw [h2]; simp [e1]
  have e3 : r.node.set i.toNat (.branch x y) = s.node ++ .branch x y :: (ls ++ rs) := by
    rw [e2, hi, List.set_append_right _ _ (le_refl _)]; simp
  rw [Grew, e3]
  have h3 : r = { s with node := r.node, srcPos := r.srcPos, bcCur := r.bcCur, bcBuf := r.bcBuf } := by
    have h4 := congrArg (fun u : State => { u with node := r.node, srcPos := r.srcPos, bcCur := r.bcCur, bcBuf := r.bcBuf }) h1
    have h5 := congrArg (fun u : State => { u with node := r.node, srcPos := r.srcPos, bcCur := r.bcCur, bcBuf := r.bcBuf }) c1
    have h6 := congrArg (fun u : State => { u with node := r.node, srcPos := r.srcPos, bcCur := r.bcCur, bcBuf := r.bcBuf }) h2
    exact h6.trans (h4.trans h5)
  exact congrArg (fun u : State => { u with node := s.node ++ Node.branch x y :: (ls ++ rs) }) h3

/-- `get` reads a serialized tree: exactly its bits, its nodes in pre-order (rules R200 to R202). -/
theorem getTree_ser (tr : Tree) (n : Nat) {s : State} {rest : List Bool} (h : StoresWf s)
    (hb : s.inBits = tr.ser ++ rest) (hn : tr.depth < n)
    (hc : s.node.length + (tr.preorder s.node.length).length ≤ 511) :
    ∃ t, getTree n s = .done (BitVec.ofNat 9 s.node.length) t ∧ StoresWf t ∧ t.inBits = rest ∧
      Grew s t (tr.preorder s.node.length) := by
  induction tr generalizing n s rest with
  | leaf x =>
    obtain ⟨m, rfl⟩ : ∃ m, n = m + 1 := ⟨n - 1, by omega⟩
    obtain ⟨a, e1, c1, w1, b1⟩ := readBit_cons h hb
    obtain ⟨c, e2, c2, w2, b2⟩ := readByte_cons w1 b1
    have hn1 : a.node = s.node := by rw [c1]
    have hn2 : c.node = s.node := by rw [c2, ← hn1]
    refine ⟨{ c with node := c.node ++ [.leaf x] }, ?_, w2.congr rfl rfl rfl rfl, b2, Grew.leaf c1 c2⟩
    simp [Tree.preorder] at hc
    simp only [getTree]
    rw [bind_done e1, seq_done (needRoom_ok (by rw [hn1]; omega)), if_neg (by simp), bind_done e2]
    simp [newNode, State.nodeCnt, hn2]
  | branch l r ihl ihr =>
    obtain ⟨m, rfl⟩ : ∃ m, n = m + 1 := ⟨n - 1, by omega⟩
    simp only [Tree.depth] at hn
    obtain ⟨a, e1, c1, w1, b1⟩ := readBit_cons h hb
    have hn1 : a.node = s.node := by rw [c1]
    simp only [Tree.preorder, List.length_cons, List.length_append] at hc ⊢
    obtain ⟨u, e2, w2, b2, g2⟩ := ihl m (s := { a with node := a.node ++ [Node.branch 0 0] })
      (rest := r.ser ++ rest) (w1.congr rfl rfl rfl rfl)
      (by show a.inBits = l.ser ++ (r.ser ++ rest); rw [b1]; exact List.append_assoc ..) (by omega) (by simp [hn1]; omega)
    simp only [hn1, List.length_append, List.length_cons, List.length_nil, Nat.zero_add] at e2 g2
    have hu : u.node.length = s.node.length + 1 + (l.preorder (s.node.length + 1)).length := by
      rw [g2]; simp only [List.length_append, List.length_cons, List.length_nil]
    obtain ⟨v, e3, w3, b3, g3⟩ := ihr m (s := u) (rest := rest) w2 b2 (by omega) (by rw [hu]; omega)
    rw [hu] at e3 g3
    have hi : (BitVec.ofNat 9 s.node.length).toNat = s.node.length := by
      rw [BitVec.toNat_ofNat, Nat.mod_eq_of_lt (by omega)]
    refine ⟨_, ?_, ?_, ?_, Grew.branch c1 (by rw [hn1]; exact g2) g3 hi⟩
    · simp only [getTree]
      rw [bind_done e1, seq_done (needRoom_ok (by rw [hn1]; omega)), if_pos rfl]
      rw [bind_done (show newNode (.branch 0 0) a = .done (BitVec.ofNat 9 s.node.length)
        { a with node := s.node ++ [.branch 0 0] } by simp [newNode, State.nodeCnt, hn1])]
      rw [bind_done e2, bind_done e3]
      rfl
    · exact w3.congr rfl rfl rfl rfl
    · exact b3

theorem needRoom_done {s t : State} {u : Unit} (h : needRoom s = .done u t) (hs : s.node.length ≤ 511) :
    t = s ∧ s.node.length < 511 := by
  simp only [needRoom] at h
  split at h
  · cases h
  · rename_i hne
    injection h with _ h
    have : s.node.length ≠ 511 := hne
    exact ⟨h.symm, by omega⟩

theorem getTree_succ (n : Nat) (s : State) : getTree (n + 1) s = (readBit.bind fun m => needRoom.seq <|
    if m then
      (newNode (.branch 0 0)).bind fun i =>
        (getTree n).bind fun l => (getTree n).bind fun r => (fillNode i l r).seq (Op.pure i)
    else readByte.bind fun sym => newNode (.leaf sym)) s := rfl

theorem newNode_run (x : Node) (s : State) :
    newNode x s = .done (BitVec.ofNat 9 s.node.length) { s with node := s.node ++ [x] } := rfl

/-- Where `get` completes, the bits to come began with a serialized tree that fits the arena; `getTree_ser`
then says what it has done (rules R200 and R203). -/
theorem getTree_done (n : Nat) {s t : State} {i : NodeIx} (h : StoresWf s) (hs : s.node.length ≤ 511)
    (hd : getTree n s = .done i t) :
    ∃ (tr : Tree) (rest : List Bool), s.inBits = tr.ser ++ rest ∧ tr.depth < n ∧
      s.node.length + (tr.preorder s.node.length).length ≤ 511 := by
  induction n generalizing s t i with
  | zero =>
    obtain ⟨_, _, _, h2⟩ := seq_eq_done hd
    cases h2
  | succ n ih =>
    rw [getTree_succ] at hd
    obtain ⟨m, a, h1, h2⟩ := bind_eq_done hd
    obtain ⟨b1, w1, c1⟩ := readBit_done h h1
    have hn : a.node = s.node := by rw [c1]
    obtain ⟨_, a', h3, h4⟩ := seq_eq_done h2
    obtain ⟨rfl, hroom⟩ := needRoom_done h3 (by rw [hn]; exact hs)
    rw [hn] at hroom
    cases m with
    | false =>
      obtain ⟨v, c, h5, _⟩ := bind_eq_done h4
      obtain ⟨b2, _, _⟩ := readByte_done w1 h5
      exact ⟨.leaf v, c.inBits, by rw [b1, b2]; rfl, Nat.zero_lt_succ n, by simp [Tree.preorder]; omega⟩
    | true =>
      rw [if_pos rfl, bind_done (newNode_run _ _)] at h4
      obtain ⟨il, u, h7, h8⟩ := bind_eq_done h4
      have wa : StoresWf { a' with node := a'.node ++ [Node.branch 0 0] } := w1.congr rfl rfl rfl rfl
      have hla : ({ a' with node := a'.node ++ [Node.branch 0 0] } : State).node.length = s.node.length + 1 := by
        simp [hn]
      obtain ⟨l, rest, hb, hdl, hcl⟩ := ih wa (by rw [hla]; omega) h7
      obtain ⟨u', e1, w2, b2, g2⟩ := getTree_ser l n wa hb hdl hcl
      rw [h7] at e1
      injection e1 with _ e1
      subst e1
      rw [hla] at hcl g2
      have hlu : u.node.length = s.node.length + 1 + (l.preorder (s.node.length + 1)).length := by
        rw [g2]; simp [hn]; omega
      obtain ⟨ir, v, h9, _⟩ := bind_eq_done h8
      obtain ⟨r, rest', hb', hdr, hcr⟩ := ih w2 (by rw [hlu]; omega) h9
      rw [hlu] at hcr
      refine ⟨.branch l r, rest', ?_, by simp only [Tree.depth]; omega, ?_⟩
      · rw [b1, Tree.ser]
        have h10 : a'.inBits = l.ser ++ rest := hb
        rw [h10, ← b2, hb']; simp
      · simp only [Tree.preorder, List.length_cons, List.length_append]; omega

end Sys2Proof.Machine
end

