-- ==== Sys2Proof/Laws/Stores.lean ====
section
/-! SUPPORT. What a command may do to the stores: properties of SRC, `SRC_POS` and SNK that the five moves of
the store primitives keep are kept by every command (20_memory.md rules R51, R53, R54, R57 and R58). -/

namespace Sys2Proof.Machine

/-- A property of the stores alone that every move of the stores keeps: the next byte, the eight bytes of a
header, the rewind, and an append with room. -/
structure StoreStable (P : State → Prop) : Prop where
  next   : ∀ s b, P s → s.src.read s.srcPos.toNat = some b → P { s with srcPos := s.srcPos + 1 }
  header : ∀ s, P s → ¬ s.srcLen - s.srcPos < 8 → P { s with srcPos := s.srcPos + 8 }
  rewind : ∀ s, P s → P { s with srcPos := 0 }
  append : ∀ s v, P s → s.sinkFull = false → P { s with snk := s.snk.write s.snkLen v }
  local' : ∀ s t, P s → t.src = s.src → t.srcPos = s.srcPos → t.snk = s.snk → t.snkCap = s.snkCap → P t

namespace StoreStable

variable {P : State → Prop} (h : StoreStable P)
include h

theorem srcNext : Machine.srcNext.Keeps P P P := by
  intro s hs
  simp only [Machine.srcNext]
  cases hr : s.src.read s.srcPos.toNat with
  | some b => exact h.next s b hs hr
  | none => trivial

theorem snkAppend (v : Byte) : (Machine.snkAppend v).Keeps P P P := by
  intro s hs
  simp only [Machine.snkAppend]
  cases hf : s.sinkFull with
  | false => exact h.append s v hs hf
  | true => exact hs

theorem other {f : State → State} (hf : ∀ s, (f s).src = s.src ∧ (f s).srcPos = s.srcPos ∧
    (f s).snk = s.snk ∧ (f s).snkCap = s.snkCap) : (Op.modify f).Keeps P P P :=
  keeps_modify fun s hs => h.local' s (f s) hs (hf s).1 (hf s).2.1 (hf s).2.2.1 (hf s).2.2.2

theorem toStart {f : State → State} (hf : ∀ s, (f s).src = s.src ∧ (f s).srcPos = 0 ∧
    (f s).snk = s.snk ∧ (f s).snkCap = s.snkCap) : (Op.modify f).Keeps P P P :=
  keeps_modify fun s hs => h.local' { s with srcPos := 0 } (f s) (h.rewind s hs) (hf s).1 (hf s).2.1 (hf s).2.2.1
    (hf s).2.2.2

theorem readBit : Machine.readBit.Keeps P P P := by
  refine keeps_seq (Q := P) (fun s hs => ?_) fun s hs => h.local' s _ hs rfl rfl rfl rfl
  simp only [refill]
  by_cases hc : s.bcCur = 0
  · rw [if_pos hc]
    by_cases hp : s.srcPos = s.srcLen
    · rw [if_pos hp]; exact hs
    · rw [if_neg hp]
      exact keeps_bind h.srcNext (fun b => h.other (f := fun t => { t with bcBuf := b })
        fun s => ⟨rfl, rfl, rfl, rfl⟩) s hs
  · rw [if_neg hc]; exact hs

theorem writeBit (b : Bool) : (Machine.writeBit b).Keeps P P P := by
  refine keeps_seq (h.other (f := fun s => s.shiftIn b) fun s => ⟨rfl, rfl, rfl, rfl⟩) fun s hs => ?_
  simp only [emitByte]
  by_cases hc : s.bcCur = 0
  · rw [if_pos hc]
    exact keeps_seq (h.snkAppend _) (keeps_seq (h.other (f := fun t => { t with bcBuf := 0 })
      fun s => ⟨rfl, rfl, rfl, rfl⟩) (keeps_pure true)) s hs
  · rw [if_neg hc]; exact hs

omit h in
theorem dir {d : Dir} {y : Op Unit} (hy : y.Keeps P P P) : ((needDir d).seq y).Keeps P P P :=
  keeps_seq (keeps_needDir_same d fun _ hs => hs) hy

theorem takeHeader : Machine.takeHeader.Keeps P P P := by
  intro s hs
  simp only [Machine.takeHeader]
  by_cases hl : s.srcLen - s.srcPos < 8
  · rw [if_pos hl]; exact hs
  · rw [if_neg hl]
    cases memRead s.src s.srcPos.toNat Config.sizeBytes with
    | none => trivial
    | some bs => exact h.local' { s with srcPos := s.srcPos + 8 } _ (h.header s hs hl) rfl rfl rfl rfl

theorem wholly {x : Op Unit} {e : State → State} (hx : x.Writes e)
    (he : ∀ s, (e s).src = s.src ∧ (e s).srcPos = s.srcPos ∧ (e s).snk = s.snk ∧ (e s).snkCap = s.snkCap) :
    x.Keeps P P P := by
  intro s hs
  have key : ∀ t, e t = e s → P t := fun t ht => h.local' s t hs
    (by rw [← (he t).1, ht, (he s).1]) (by rw [← (he t).2.1, ht, (he s).2.1])
    (by rw [← (he t).2.2.1, ht, (he s).2.2.1]) (by rw [← (he t).2.2.2, ht, (he s).2.2.2])
  have h1 := hx s s rfl
  cases hxs : x s with
  | done u t => rw [hxs] at h1; exact key t h1
  | raised c t => rw [hxs] at h1; exact key t h1
  | stuck r => trivial

theorem opHist : Machine.opHist.Keeps P P P :=
  keeps_seq (h.other fun _ => ⟨rfl, rfl, rfl, rfl⟩) <|
    keeps_bind (keeps_get _) fun n =>
      keeps_seq (keeps_forSrc h.srcNext (fun b => h.other (f := fun s => { s with cnt := s.cnt.set b (s.cnt.get b + 1) })
        fun _ => ⟨rfl, rfl, rfl, rfl⟩) n) (h.toStart fun _ => ⟨rfl, rfl, rfl, rfl⟩)

theorem opRdTree : Machine.opRdTree.Keeps P P P := by
  have room : needRoom.Keeps P P P := fun s hs => by
    simp only [needRoom]
    by_cases hn : s.nodeCnt = Config.nodeMax
    · rw [if_pos hn]; exact hs
    · rw [if_neg hn]; exact hs
  have new : ∀ x, (newNode x).Keeps P P P := fun x s hs => h.local' s _ hs rfl rfl rfl rfl
  have get : ∀ n, (getTree n).Keeps P P P := fun n => by
    induction n with
    | zero => exact keeps_seq h.readBit (keeps_raise fun _ hs => hs)
    | succ n ih =>
      refine keeps_bind h.readBit fun m => keeps_seq room ?_
      cases m
      · exact keeps_bind (keeps_readByte h.readBit) fun x => new _
      · exact keeps_bind (new (.branch 0 0)) fun i => keeps_bind ih fun l => keeps_bind ih fun r =>
          keeps_seq (x := fillNode i l r) (fun s hs => h.local' s _ hs rfl rfl rfl rfl) (keeps_pure i)
  exact StoreStable.dir (keeps_seq (h.other fun _ => ⟨rfl, rfl, rfl, rfl⟩)
    (keeps_seq (get _) (h.other fun _ => ⟨rfl, rfl, rfl, rfl⟩)))

theorem opEncode : Machine.opEncode.Keeps P P P :=
  StoreStable.dir (keeps_bind (keeps_get _) fun n => keeps_forSrc h.srcNext (fun b => keeps_encodeByte h.writeBit b) n)

theorem opDecode : Machine.opDecode.Keeps P P P :=
  StoreStable.dir (keeps_bind (keeps_needTree_same fun _ hs => hs) fun tr => keeps_bind (keeps_get _) fun n =>
    keeps_times (keeps_bind (keeps_walkDown h.readBit tr) fun x => h.snkAppend x) n.toNat)

theorem opWrSize : Machine.opWrSize.Keeps P P P :=
  StoreStable.dir (keeps_bind (keeps_get _) fun _ => keeps_writeBytes h.writeBit _)

theorem opWrTree : Machine.opWrTree.Keeps P P P :=
  StoreStable.dir (keeps_bind (keeps_needTree_same fun _ hs => hs) fun tr => keeps_putTree h.writeBit tr)

theorem opFlush : Machine.opFlush.Keeps P P P := StoreStable.dir (keeps_flushLoop h.writeBit 7)

theorem opRdSize : Machine.opRdSize.Keeps P P P := StoreStable.dir h.takeHeader

theorem opRewind : Machine.opRewind.Keeps P P P := h.toStart fun _ => ⟨rfl, rfl, rfl, rfl⟩

theorem opCompress : Machine.opCompress.Keeps P P P := by
  refine keeps_seq (keeps_seq h.opRewind ?_) (keeps_seq keeps_needChecksum ?_)
  · exact keeps_seq (h.wholly opOpenWr_writes fun _ => ⟨rfl, rfl, rfl, rfl⟩) <| keeps_seq h.opHist <|
      keeps_seq (h.wholly opFlist_writes fun _ => ⟨rfl, rfl, rfl, rfl⟩)
        (h.wholly opBuildTree_writes fun _ => ⟨rfl, rfl, rfl, rfl⟩)
  · exact keeps_seq (h.wholly opGenCodes_writes fun _ => ⟨rfl, rfl, rfl, rfl⟩) <|
      keeps_seq (h.wholly opLdSize_writes fun _ => ⟨rfl, rfl, rfl, rfl⟩) <|
        keeps_seq h.opWrSize <| keeps_seq h.opWrTree <| keeps_seq h.opEncode h.opFlush

theorem opDecompress : Machine.opDecompress.Keeps P P P :=
  keeps_seq h.opRewind <| keeps_seq (h.wholly opOpenRd_writes fun _ => ⟨rfl, rfl, rfl, rfl⟩) <|
    keeps_seq h.opRdSize <| keeps_seq h.opRdTree h.opDecode

/-- Every command's body keeps it. -/
theorem bodyOf (i : Instr) : (Machine.bodyOf i).Keeps P P P := by
  cases i with
  | nop => exact keeps_skip
  | rewind => exact h.opRewind
  | ldSize => exact h.wholly opLdSize_writes fun _ => ⟨rfl, rfl, rfl, rfl⟩
  | openRd => exact h.wholly opOpenRd_writes fun _ => ⟨rfl, rfl, rfl, rfl⟩
  | openWr => exact h.wholly opOpenWr_writes fun _ => ⟨rfl, rfl, rfl, rfl⟩
  | rdBit => exact StoreStable.dir (keeps_bind h.readBit fun _ => h.other fun _ => ⟨rfl, rfl, rfl, rfl⟩)
  | rdByte => exact StoreStable.dir (keeps_bind (keeps_readByte h.readBit) fun _ => h.other fun _ => ⟨rfl, rfl, rfl, rfl⟩)
  | wrBit b => exact StoreStable.dir (keeps_bind (h.writeBit b) fun _ => h.other fun _ => ⟨rfl, rfl, rfl, rfl⟩)
  | wrByte v => exact StoreStable.dir (keeps_writeBits h.writeBit _)
  | flush => exact h.opFlush
  | rdSize => exact h.opRdSize
  | wrSize => exact h.opWrSize
  | cntDistinct =>
    show Machine.opCntDistinct.Keeps P P P
    exact keeps_bind (keeps_get _) fun n => keeps_bind (keeps_distinctLoop h.srcNext n [] 0) fun _ =>
      h.toStart fun _ => ⟨rfl, rfl, rfl, rfl⟩
  | hist => exact h.opHist
  | flist => exact h.wholly opFlist_writes fun _ => ⟨rfl, rfl, rfl, rfl⟩
  | buildTree => exact h.wholly opBuildTree_writes fun _ => ⟨rfl, rfl, rfl, rfl⟩
  | genCodes => exact h.wholly opGenCodes_writes fun _ => ⟨rfl, rfl, rfl, rfl⟩
  | wrTree => exact h.opWrTree
  | rdTree => exact h.opRdTree
  | encode => exact h.opEncode
  | decode => exact h.opDecode
  | compress => exact h.opCompress
  | decompress => exact h.opDecompress

/-- Every command keeps it. -/
theorem exec {i : Instr} {s t : State} (hs : P s) (he : Machine.exec i s = .next t) : P t := by
  rw [exec_eq] at he
  rcases complete_next he with ⟨u, v, h1, rfl⟩ | ⟨c, v, h1, rfl⟩
  · exact h.local' v _ ((h.bodyOf i).done hs h1) rfl rfl rfl rfl
  · exact h.local' v _ ((h.bodyOf i).raised hs h1) rfl rfl rfl rfl

end StoreStable

theorem sinkFull_false {s : State} (h : s.sinkFull = false) (cap : Word64) (hc : s.snkCap = some cap) :
    s.snk.length ≠ cap.toNat := by
  simp only [State.sinkFull, hc, State.snkLen] at h
  simpa using h

/-- `StoresWf` is such a property. -/
theorem storesWf_stable : StoreStable StoresWf where
  next s b h hr := by
    obtain ⟨bs, hb⟩ := rest_of_read h hr
    exact h.next hb
  header s h hl := by
    refine ⟨h.src, h.snk, h.srcLen, ?_, h.snkLen⟩
    have h1 := srcLen_toNat h.srcLen
    have h2 := h.srcPos
    have h3 : s.srcPos.toNat + 8 ≤ s.src.length := by
      rw [BitVec.not_lt, BitVec.le_def] at hl
      rw [BitVec.toNat_sub_of_le (by rw [BitVec.le_def, h1]; exact h2), h1] at hl
      have : (8 : Word64).toNat = 8 := rfl
      omega
    show (s.srcPos + 8).toNat ≤ s.src.length
    have h4 := h.srcLen
    rw [BitVec.toNat_add, show (8 : Word64).toNat = 8 from rfl, Nat.mod_eq_of_lt (by omega)]
    exact h3
  rewind s h := ⟨h.src, h.snk, h.srcLen, Nat.zero_le _, h.snkLen⟩
  append s v h hf := by
    refine ⟨h.src, h.snk.append v, h.srcLen, h.srcPos, fun cap hc => ?_⟩
    have h1 := h.snkLen cap hc
    have h2 := sinkFull_false hf cap hc
    show (s.snk.write s.snkLen v).length ≤ cap.toNat
    rw [State.snkLen, h.snk.length_append]
    omega
  local' s t h h1 h2 h3 h4 := h.congr h1 h3 h2 h4

/-- So is that SNK is full and begins with given bytes. -/
theorem sinkExtends_stable (bs : List Byte) :
    StoreStable fun s => s.snk.full ∧ ∃ cs, s.snk.bytes = bs ++ cs where
  next s b h _ := h
  header s h _ := h
  rewind s h := h
  append s v h _ := by
    obtain ⟨h1, cs, h2⟩ := h
    refine ⟨h1.append v, cs ++ [v], ?_⟩
    show (s.snk.write s.snk.length v).bytes = _
    rw [h1.bytes_append, h2, List.append_assoc]
  local' s t h _ _ h3 _ := by rw [h3]; exact h

end Sys2Proof.Machine
end

