-- ==== Sys2Proof/Laws/Stream.lean ====
section
/-! SUPPORT. Bytes as bits and back: `packBits` is the zero-padded bytes of a bit string, the only bytes whose
bits those are (20_memory.md rules R60 and R65 (d)); and the size header both ways (rule R61). -/

namespace Sys2Proof.Machine

theorem packByte_snoc (bits : List Bool) : packByte (bits ++ [false]) = packByte bits := by
  simp [packByte, List.zipIdx_append, zext8]

theorem packByte_pad (bits : List Bool) (k : Nat) :
    packByte (bits ++ List.replicate k false) = packByte bits := by
  induction k with
  | zero => simp
  | succ k ih => rw [List.replicate_succ', ← List.append_assoc, packByte_snoc, ih]

theorem packByte_byteBits (v : Byte) : packByte (byteBits v) = v := by revert v; decide +kernel

/-- The byte of at most eight bits: those bits and zeros after them. -/
theorem byteBits_packByte {bits : List Bool} (h : bits.length ≤ 8) :
    byteBits (packByte bits) = bits ++ List.replicate (8 - bits.length) false := by
  obtain ⟨v, hv⟩ := exists_byteBits (bits := bits ++ List.replicate (8 - bits.length) false) (by simp; omega)
  rw [← packByte_pad bits (8 - bits.length), ← hv, packByte_byteBits]

/-- The padding of a bit string to a byte boundary. -/
def padding (n : Nat) : List Bool := List.replicate ((8 - n % 8) % 8) false

theorem flatMap_packBits (n : Nat) (bits : List Bool) (h : bits.length ≤ n) :
    (packBits n bits).flatMap byteBits = bits ++ padding bits.length := by
  induction n generalizing bits with
  | zero =>
    rw [List.eq_nil_of_length_eq_zero (Nat.le_zero.1 h)]; rfl
  | succ n ih =>
    rw [packBits]
    split_ifs with hb
    · subst hb; rfl
    · have hpos : 0 < bits.length := List.length_pos_iff.2 hb
      rw [List.flatMap_cons, ih (bits.drop 8) (by simp; omega), byteBits_packByte (by simp)]
      by_cases h8 : 8 ≤ bits.length
      · have h1 : (bits.take 8).length = 8 := by simp [h8]
        have h2 : padding (bits.drop 8).length = padding bits.length := by
          rw [List.length_drop, padding, padding]; congr 2; omega
        rw [h1, h2, Nat.sub_self, List.replicate_zero, List.append_nil, ← List.append_assoc, List.take_append_drop]
      · have h1 : bits.take 8 = bits := List.take_of_length_le (by omega)
        have h2 : bits.drop 8 = [] := List.drop_eq_nil_of_le (by omega)
        rw [h1, h2, padding, padding]
        simp only [List.length_nil, Nat.zero_mod, Nat.sub_zero, Nat.mod_self, List.replicate_zero,
          List.append_nil]
        congr 2; omega

theorem length_packBits (n : Nat) (bits : List Bool) (h : bits.length ≤ n) :
    (packBits n bits).length = (bits.length + 7) / 8 := by
  have h1 := congrArg List.length (flatMap_packBits n bits h)
  have h2 : ∀ l : List Byte, (l.flatMap byteBits).length = 8 * l.length := fun l => by
    induction l with
    | nil => rfl
    | cons b l ih => rw [List.flatMap_cons, List.length_append, ih, length_byteBits, List.length_cons]; omega
  rw [h2, List.length_append, padding, List.length_replicate] at h1
  omega

/-- Bytes with the same bits are the same bytes. -/
theorem flatMap_byteBits_inj {a b : List Byte} (h : a.flatMap byteBits = b.flatMap byteBits) : a = b := by
  induction a generalizing b with
  | nil =>
    cases b with
    | nil => rfl
    | cons y b => simp [byteBits] at h
  | cons x a ih =>
    cases b with
    | nil => simp [byteBits] at h
    | cons y b =>
      rw [List.flatMap_cons, List.flatMap_cons] at h
      obtain ⟨h1, h2⟩ := List.append_inj h rfl
      rw [byteBits_inj h1, ih h2]

/-- The bytes of a padded bit string are its packing. -/
theorem eq_packBits {bs : List Byte} {bits : List Bool} (h : bs.flatMap byteBits = bits ++ padding bits.length) :
    bs = packBits bits.length bits :=
  flatMap_byteBits_inj (h.trans (flatMap_packBits _ _ (le_refl _)).symm)

/-- The size header read back. -/
theorem sizeOfHeader_sizeHeader (v : Word64) : sizeOfHeader (sizeHeader v) = v := by
  apply BitVec.eq_of_getLsbD_eq
  intro i hi
  simp only [sizeHeader, sizeOfHeader, BitVec.getLsbD_or, BitVec.getLsbD_shiftLeft, BitVec.getLsbD_setWidth,
    BitVec.getLsbD_extractLsb']
  interval_cases i <;> simp

/-- Eight bytes read as a header are the header of the number read. -/
theorem sizeHeader_sizeOfHeader (a b c d e f g h : Byte) :
    sizeHeader (sizeOfHeader [a, b, c, d, e, f, g, h]) = [a, b, c, d, e, f, g, h] := by
  simp only [sizeHeader, List.cons.injEq, and_true]
  refine ⟨?_, ?_, ?_, ?_, ?_, ?_, ?_, ?_⟩
  all_goals
    apply BitVec.eq_of_getLsbD_eq
    intro i hi
    simp only [sizeOfHeader, BitVec.getLsbD_or, BitVec.getLsbD_shiftLeft, BitVec.getLsbD_setWidth,
      BitVec.getLsbD_extractLsb']
    interval_cases i <;> simp

end Sys2Proof.Machine
end

