-- ==== Sys2Proof/Tests/Slice0.lean ====
section
/-! SUPPORT. Tests of the model on fixed values, each from a table or a vector of spec/ named beside it
(V<n> is a vector of 95_test_vectors.md), and the witnesses that the statements' hypotheses can be met. -/

namespace Sys2Proof.Tests

set_option Elab.async false

open Sys2Proof Sys2Proof.Machine Host

/-! ## WellFormed: each check refuses an ill-formed word (30_encoding.md rules R81, R82 and R84) -/

theorem test_wf_unused_opcode : wellFormedWord 0x0300 = false := by decide
theorem test_wf_imm_not_zero : wellFormedWord 0x0001 = false := by decide
theorem test_wf_bit_operand : wellFormedWord 0x1402 = false := by decide
theorem test_wf_format_n : Format.n.immOk 0x01 = false := by decide
theorem test_wf_format_b : Format.b.immOk 0x02 = false := by decide
theorem test_wf_format_y : Format.y.immOk 0xFF = true := by decide
theorem test_wf_program : wellFormedProg [0x1100, 0x1402] = false := by decide
theorem test_wf_legal_program : wellFormedProg [0x1100, 0x1401, 0x15A5, 0x1600] = true := by decide

/-! ## Decoding: one written-out word for each constructor, `OPC` and then `IMM` (rules R80 and R82) -/

theorem test_decode_nop : Sys2Proof.decode 0b00000000_00000000 = .ok .nop := by rfl
theorem test_decode_rewind : Sys2Proof.decode 0b00000001_00000000 = .ok .rewind := by rfl
theorem test_decode_ld_size : Sys2Proof.decode 0b00000010_00000000 = .ok .ldSize := by rfl
theorem test_decode_open_rd : Sys2Proof.decode 0b00010000_00000000 = .ok .openRd := by rfl
theorem test_decode_open_wr : Sys2Proof.decode 0b00010001_00000000 = .ok .openWr := by rfl
theorem test_decode_rd_bit : Sys2Proof.decode 0b00010010_00000000 = .ok .rdBit := by rfl
theorem test_decode_rd_byte : Sys2Proof.decode 0b00010011_00000000 = .ok .rdByte := by rfl
theorem test_decode_wr_bit : Sys2Proof.decode 0b00010100_00000001 = .ok (.wrBit true) := by rfl
theorem test_decode_wr_byte : Sys2Proof.decode 0b00010101_10100101 = .ok (.wrByte 0xA5) := by rfl
theorem test_decode_flush : Sys2Proof.decode 0b00010110_00000000 = .ok .flush := by rfl
theorem test_decode_rd_size : Sys2Proof.decode 0b00010111_00000000 = .ok .rdSize := by rfl
theorem test_decode_wr_size : Sys2Proof.decode 0b00011000_00000000 = .ok .wrSize := by rfl
theorem test_decode_cnt_distinct : Sys2Proof.decode 0b00100000_00000000 = .ok .cntDistinct := by rfl
theorem test_decode_hist : Sys2Proof.decode 0b00100001_00000000 = .ok .hist := by rfl
theorem test_decode_flist : Sys2Proof.decode 0b00100010_00000000 = .ok .flist := by rfl
theorem test_decode_build_tree : Sys2Proof.decode 0b00110000_00000000 = .ok .buildTree := by rfl
theorem test_decode_gen_codes : Sys2Proof.decode 0b00110001_00000000 = .ok .genCodes := by rfl
theorem test_decode_wr_tree : Sys2Proof.decode 0b00110010_00000000 = .ok .wrTree := by rfl
theorem test_decode_rd_tree : Sys2Proof.decode 0b00110011_00000000 = .ok .rdTree := by rfl
theorem test_decode_encode : Sys2Proof.decode 0b01000000_00000000 = .ok .encode := by rfl
theorem test_decode_decode : Sys2Proof.decode 0b01000001_00000000 = .ok .decode := by rfl
theorem test_decode_compress : Sys2Proof.decode 0b01010000_00000000 = .ok .compress := by rfl
theorem test_decode_decompress : Sys2Proof.decode 0b01010001_00000000 = .ok .decompress := by rfl

/-- The illegal words of V11. -/
theorem test_decode_illegal : ∀ w ∈ [0x0001, 0x0300, 0x1402, 0x1601, 0x1900, 0x2300, 0x5200, 0xFFFF],
    decodeTableWord 16 w = none := by decide

/-- The operands' ends: WR_BIT 0 and WR_BYTE 0xFF (V11). -/
theorem test_decode_operands : decodeTableWord 16 0x1400 = some (.wrBit false) ∧
    decodeTableWord 16 0x15FF = some (.wrByte 0xFF) := by decide

/-- The examples of rules R86 and R89. -/
theorem test_assemble : assemble (["WR_BIT 1", "WR_BYTE 0x61  # a comment", "WR_BYTE 'a'", "", "FLUSH", "COMPRESS",
    "WR_BYTES 0x04, 0x00", "WR_BYTE 255"].map String.toList) =
    some [0x1401, 0x1561, 0x1561, 0x1600, 0x5000, 0x1504, 0x1500, 0x15FF] := by decide +kernel

/-- Lines that are no command: an operand too large, one missing, one too many, lower case; a quoted `#` and a
quoted comma (the model's choice, log entry 13). -/
theorem test_assemble_refuses : ∀ l ∈ ["WR_BYTE '#'", "WR_BYTES ',', 0x00", "WR_BYTE 256", "WR_BIT", "FLUSH 1", "flush", "WR_BIT 2", "WR_BYTES 1,,2"],
    assembleLine l.toList = none := by decide +kernel

/-- Rule R90: printing a word of each format and an illegal one; the lines assemble to the same words. -/
theorem test_disassemble : disassemble 0x15A5 = "WR_BYTE 0xA5" ∧ disassemble 0x1401 = "WR_BIT 1" ∧
    disassemble 0x1600 = "FLUSH" ∧ disassemble 0xFFFF = ".word 0xFFFF" ∧
    assemble (["WR_BYTE 0xA5", "WR_BIT 1", "FLUSH"].map String.toList) = some [0x15A5, 0x1401, 0x1600] := by
  decide +kernel

/-! ## Small states -/

/-- Bytes from their values. -/
def bytes (l : List Nat) : List Byte := l.map (BitVec.ofNat 8)

/-- After reset and `H_LOAD_SRC`. -/
def loaded (l : List Nat) : State := { State.reset with src := Memory.ofBytes (bytes l) }

/-- A channel open for reading: cursor, buffer and read position as given. -/
def reading (l : List Nat) (pos : Word64) (cur : BitVec 3) (buf : Byte) : State :=
  { loaded l with srcPos := pos, bcDir := .rd, bcCur := cur, bcBuf := buf }

/-- A channel open for writing over a sink that holds some bytes. -/
def writing (out : List Nat) (cur : BitVec 3) (buf : Byte) : State :=
  { State.reset with snk := Memory.ofBytes (bytes out), bcDir := .wr, bcCur := cur, bcBuf := buf }

/-- "aaab" after HIST, FLIST, BUILD_TREE and GEN_CODES: the arena and the codes of V1. -/
def coded (s : State) : State :=
  { s with
    node := [.leaf 0x62, .leaf 0x61, .branch 0 1], root := 2, treeValid := true
    code := ((Table.fill CodeEntry.none).set 0x61 ⟨true, 1, 1⟩).set 0x62 ⟨true, 1, 0⟩ }

/-- The tree of V1. -/
def tree1 : Tree := .branch (.leaf 0x62) (.leaf 0x61)

/-- "aaab" after HIST and FLIST (V23 (d)). -/
def listed : State :=
  { loaded [0x61, 0x61, 0x61, 0x62] with node := [.leaf 0x62, .leaf 0x61], wl := [⟨1, 0⟩, ⟨3, 1⟩] }

/-- The command answers a next state with this property. -/
def gives (o : Outcome State Fault Refusal) (p : State → Bool) : Bool :=
  match o with
  | .next t => p t
  | .fault _ => false
  | .refused _ => false

theorem next_of_gives {o : Outcome State Fault Refusal} {t : State} (h : gives o (· == t) = true) :
    o = .next t := by
  cases o with
  | next u => rw [eq_of_beq h]
  | fault r => cases h
  | refused r => cases h

/-! ## One step each -/

/-- V10. -/
theorem test_nop : gives (exec .nop (reading [1, 2] 1 3 0x65)) (fun t => t.pc == 1 && t.bcWord == 0xB65) = true := by
  decide +kernel

/-- V10: the buffer stays. -/
theorem test_rewind : gives (exec .rewind (reading [1, 2] 2 0 0x65))
    (fun t => t.srcPos == 0 && t.bcWord == 0x865) = true := by decide +kernel

/-- V10. -/
theorem test_ld_size : gives (exec .ldSize (loaded [0x68, 0x65, 0x6C, 0x6C, 0x6F])) (fun t => t.size == 5) = true := by
  decide +kernel

/-- V16. -/
theorem test_open_rd : gives (exec .openRd (writing [] 3 5)) (fun t => t.bcWord == 0x800) = true := by decide +kernel

/-- V13; SNK is not emptied (rule R115). -/
theorem test_open_wr : gives (exec .openWr (writing [7] 3 5)) (fun t => t.bcWord == 0x1000 && t.snkLen == 1) = true := by
  decide +kernel

/-- V16, the first RD_BIT. -/
theorem test_rd_bit : gives (exec .rdBit (reading [0xB4, 1] 0 0 0))
    (fun t => t.res == 1 && t.bcWord == 0x9B4 && t.srcPos == 1) = true := by decide +kernel

/-- V16, the last RD_BIT: the end of SRC, `RES` kept. -/
theorem test_rd_bit_eof : gives (exec .rdBit { reading [0xB4, 1] 2 0 1 with res := 1 })
    (fun t => t.fault && t.cause == 1 && t.res == 1 && t.bcWord == 0x801) = true := by decide +kernel

/-- V16, RD_BYTE across a byte boundary. -/
theorem test_rd_byte : gives (exec .rdByte (reading [0xB4, 1] 1 3 0xB4))
    (fun t => t.res == 0xA0 && t.bcWord == 0xB01 && t.srcPos == 2) = true := by decide +kernel

/-- V14, the eighth bit. -/
theorem test_wr_bit : gives (exec (.wrBit false) (writing [] 7 0x65))
    (fun t => t.snk.bytes == [0xCA] && t.res == 1 && t.bcWord == 0x1000) = true := by decide +kernel

/-- V19 (a). -/
theorem test_wr_bit_closed : gives (exec (.wrBit true) State.reset) (fun t => t.cause == 8 && t.pc == 0) = true := by
  decide +kernel

/-- V15, WR_BYTE across a byte boundary. -/
theorem test_wr_byte : gives (exec (.wrByte 0xA5) (writing [] 1 1))
    (fun t => t.snk.bytes == [0xD2] && t.bcWord == 0x1101) = true := by decide +kernel

/-- V13. -/
theorem test_flush : gives (exec .flush (writing [] 3 5)) (fun t => t.snk.bytes == [0xA0] && t.bcWord == 0x1000) = true := by
  decide +kernel

/-- V17 (a). -/
theorem test_rd_size : gives (exec .rdSize (reading [8, 7, 6, 5, 4, 3, 2, 1] 0 0 0))
    (fun t => t.size == 0x0102030405060708 && t.srcPos == 8) = true := by decide +kernel

/-- V18 (a). -/
theorem test_rd_size_short : gives (exec .rdSize (reading [8, 7, 6, 5, 4, 3, 2] 0 0 0))
    (fun t => t.cause == 3 && t.srcPos == 0) = true := by decide +kernel

/-- V20 (a): an unaligned header. -/
theorem test_wr_size : gives (exec .wrSize { writing [] 1 1 with size := 4 })
    (fun t => t.snk.bytes == bytes [0x82, 0, 0, 0, 0, 0, 0, 0] && t.bcWord == 0x1100) = true := by decide +kernel

/-- V21, the last row. -/
theorem test_cnt_distinct : gives (exec .cntDistinct (reading [0x61, 0x61, 0x61, 0x62] 3 0 0x61))
    (fun t => t.distinct == 1 && t.srcPos == 0) = true := by decide +kernel

/-- V22 (c). -/
theorem test_hist : gives (exec .hist (reading [0x61, 0x61, 0x61, 0x62] 1 0 0x61))
    (fun t => t.cnt.get 0x61 == 2 && t.cnt.get 0x62 == 1 && t.cnt.get 0 == 0 && t.srcPos == 0) = true := by
  decide +kernel

/-- V23 (d). -/
theorem test_flist : gives (exec .flist { loaded [] with cnt := ((Table.fill 0).set 0x61 3).set 0x62 1 })
    (fun t => t.wl == [⟨1, 0⟩, ⟨3, 1⟩] && t.node == [.leaf 0x62, .leaf 0x61] && t.cnt == Table.fill 0) = true := by
  decide +kernel

/-- V25 (a): the merged item goes after its equal. -/
theorem test_build_tree : gives (exec .buildTree
      { State.reset with node := [.leaf 0x61, .leaf 0x62, .leaf 0x63], wl := [⟨1, 0⟩, ⟨1, 1⟩, ⟨2, 2⟩] })
    (fun t => t.node == [.leaf 0x61, .leaf 0x62, .leaf 0x63, .branch 0 1, .branch 2 3] && t.root == 4 &&
      t.checksum == 4 && t.treeValid) = true := by decide +kernel

/-- V26 (b). -/
theorem test_build_tree_empty : gives (exec .buildTree State.reset) (fun t => t.cause == 4 && t.pc == 0) = true := by
  decide +kernel

/-- V1's codes. -/
theorem test_gen_codes : gives (exec .genCodes { coded State.reset with code := Table.fill ⟨true, 9, 9⟩ })
    (fun t => t.code.get 0x61 == ⟨true, 1, 1⟩ && t.code.get 0x62 == ⟨true, 1, 0⟩ && t.code.get 0x63 == ⟨false, 0, 0⟩) =
      true := by decide +kernel

/-- V27 (c). -/
theorem test_gen_codes_no_tree : gives (exec .genCodes State.reset) (fun t => t.cause == 10) = true := by decide +kernel

/-- V31, the row of "aaab". -/
theorem test_wr_tree : gives (exec .wrTree (coded (writing [] 0 0)))
    (fun t => t.snk.bytes == bytes [0x98, 0x8C] && t.bcWord == 0x1301) = true := by decide +kernel

/-- V32 (a). -/
theorem test_rd_tree : gives (exec .rdTree (reading [0x98, 0x8C, 0x20] 0 0 0))
    (fun t => t.node == [.branch 1 2, .leaf 0x62, .leaf 0x61] && t.root == 0 && t.treeValid && t.srcPos == 3 &&
      t.bcWord == 0xB20) = true := by decide +kernel

/-- V33 (a). -/
theorem test_rd_tree_eof : gives (exec .rdTree (reading [0xFF, 0xFF] 0 0 0))
    (fun t => t.cause == 1 && t.nodeCnt == 16 && t.treeValid == false && t.bcWord == 0x8FF) = true := by decide +kernel

/-- V35. -/
theorem test_encode : gives (exec .encode { coded (loaded [0x61, 0x62, 0x62, 0x61, 0x61, 0x62, 0x61, 0x62, 0x61]) with
      bcDir := .wr })
    (fun t => t.snk.bytes == [0x9A] && t.bcWord == 0x1101 && t.srcPos == 9) = true := by decide +kernel

/-- V36. -/
theorem test_encode_no_code : gives (exec .encode { coded (loaded [0x61, 0x61, 0x63]) with bcDir := .wr })
    (fun t => t.cause == 6 && t.srcPos == 3 && t.snkLen == 0 && t.bcWord == 0x1203) = true := by decide +kernel

/-- V38 (c). -/
theorem test_decode : gives (exec .decode { coded (reading [0xE0] 0 0 0) with size := 4 })
    (fun t => t.snk.bytes == bytes [0x61, 0x61, 0x61, 0x62] && t.bcWord == 0xCE0) = true := by decide +kernel

/-- V19 (f). -/
theorem test_decode_closed : gives (exec .decode State.reset) (fun t => t.cause == 8) = true := by decide +kernel

/-- V1. -/
theorem test_compress : gives (exec .compress (loaded [0x61, 0x61, 0x61, 0x62]))
    (fun t => t.snk.bytes == bytes [4, 0, 0, 0, 0, 0, 0, 0, 0x98, 0x8C, 0x3C] && t.checksum == 4 && t.srcPos == 4 &&
      t.statusWord == 2) = true := by decide +kernel

/-- V7. -/
theorem test_compress_empty : gives (exec .compress State.reset)
    (fun t => t.cause == 4 && t.statusWord == 1 && t.bcWord == 0x1000 && t.snkLen == 0) = true := by decide +kernel

/-- V2. -/
theorem test_decompress : gives (exec .decompress (loaded [4, 0, 0, 0, 0, 0, 0, 0, 0x98, 0x8C, 0x3C]))
    (fun t => t.snk.bytes == bytes [0x61, 0x61, 0x61, 0x62] && t.bcWord == 0xF3C && t.srcPos == 11 &&
      t.checksum == 0) = true := by decide +kernel

/-- V8, row 5. -/
theorem test_decompress_eof : gives (exec .decompress (loaded [9, 0, 0, 0, 0, 0, 0, 0, 0x98, 0x8C, 0x3C]))
    (fun t => t.cause == 1 && t.statusWord == 3 && t.snk.bytes == bytes [0x61, 0x61, 0x61, 0x62, 0x62]) = true := by
  decide +kernel

/-- V39: the registers after V1, those of the tree and the codes. -/
theorem test_registers :
    (coded State.reset).hReadReg 0x000 = 2 ∧ (coded State.reset).hReadReg 0x00C = 2 ∧
    (coded State.reset).hReadReg 0x00B = 3 ∧ (coded State.reset).hReadReg 0x402 = 0x4000001 ∧
    (coded State.reset).hReadReg 0x403 = 0 ∧ (coded State.reset).hReadReg 0x661 = 0x840000001 := by decide +kernel

/-- A fetched word runs as the first step after reset, and an illegal one faults (V11). -/
theorem test_fetch_word :
    gives (step (State.reset.withFetchWord 16 0x1100)) (fun t => t.bcWord == 0x1000 && t.pc == 1) = true ∧
    gives (step (State.reset.withFetchWord 16 0x0001)) (fun t => t.cause == 7 && t.pc == 0) = true := by
  decide +kernel

/-! ## Witnesses: for each statement with hypotheses, a state and operands that meet them together -/

theorem full_of {m : Memory} (h : m.map Prod.fst = List.range m.length) : m.full := h

theorem stores_of {s : State} (h1 : s.src.map Prod.fst = List.range s.src.length)
    (h2 : s.snk.map Prod.fst = List.range s.snk.length) (h3 : s.src.length < 2 ^ 64)
    (h4 : s.srcPos.toNat ≤ s.src.length) (h5 : s.snkCap.all (fun c => s.snk.length ≤ c.toNat) = true) : StoresWf s where
  src := h1
  snk := h2
  srcLen := h3
  srcPos := h4
  snkLen := fun cap hc => by rw [hc] at h5; simpa using h5

theorem room_of {s : State} {n : Nat} (h : s.snkCap.all (fun c => s.snk.length + n ≤ c.toNat) = true) : s.Room n :=
  fun cap hc => by rw [hc] at h; simpa using h

theorem no_room_of {s : State} {n : Nat} (cap : Word64) (hc : s.snkCap = some cap) (h : cap.toNat < s.snk.length + n) :
    ¬ s.Room n := fun hr => absurd (hr cap hc) (not_le.2 h)

/-- The next state, where there is one. -/
def nextOr (o : Outcome State Fault Refusal) (s : State) : State :=
  match o with
  | .next t => t
  | .fault _ => s
  | .refused _ => s

/-- The state with one command to run. -/
def running (s : State) (w : CmdWord) : State := { s with prog := [w], pc := 0 }

theorem witness_EncodeInvertsDecode : Sys2Proof.decode 0x1401 = .ok (.wrBit true) := by rfl

theorem witness_StepRunsDecodedCommand : ∃ s : State, s.fault = false ∧ s.prog[s.pc]? = some 0x1401 ∧
    Sys2Proof.decode 0x1401 = .ok (.wrBit true) := ⟨running (writing [] 0 0) 0x1401, rfl, rfl, rfl⟩

theorem witness_StepRunsDecodedCommand_issue : ∃ s : State, s.fault = false ∧ s.idle = true ∧
    Sys2Proof.decode 0x1401 = .ok (.wrBit true) := ⟨writing [] 0 0, rfl, rfl, rfl⟩

/-- While an issued word waits it is not the host's turn; after its step it is (rule R74). -/
theorem test_issue_waits : ((writing [] 0 0).hIssue 0x1401).idle = false ∧
    gives (step ((writing [] 0 0).hIssue 0x1401)) (fun t => t.idle && t.bcWord == 0x1101) = true := by decide +kernel

theorem witness_IllegalWordFaults : ∃ s : State, s.fault = false ∧ s.prog[s.pc]? = some 0x1402 ∧
    wellFormedWord 0x1402 = false := ⟨running State.reset 0x1402, rfl, rfl, by decide⟩

theorem witness_NoStepAfterTheRun : (∃ s : State, s.fault = true ∧ s.pc < s.prog.length) ∧
    (∃ s : State, s.fault = false ∧ s.pc = s.prog.length) :=
  ⟨⟨{ running State.reset 0 with fault := true }, rfl, by decide⟩, State.reset, rfl, rfl⟩

/-- The states of the whole-machine frames: a step that completes and one that faults. -/
theorem witness_PcAdvancesUnlessFaulted : (∃ s t : State, step s = .next t ∧ t.fault = false) ∧
    (∃ s t : State, step s = .next t ∧ t.fault = true) :=
  ⟨⟨running (writing [] 0 0) 0x1401, _, rfl, rfl⟩, running State.reset 0x1402, _, rfl, rfl⟩

theorem witness_StepKeepsSourceAndProgram : ∃ s t : State, step s = .next t ∧ s.src ≠ [] :=
  ⟨running (reading [0xB4] 0 0 0) 0x1200, _, rfl, by decide⟩

theorem witness_SinkIsAppendOnly : ∃ s t : State, s.snk.full ∧ exec (.wrByte 5) s = .next t ∧ 0 < s.snk.length :=
  ⟨writing [7] 0 0, nextOr (exec (.wrByte 5) (writing [7] 0 0)) State.reset, full_of (by decide),
    next_of_gives (by decide +kernel), by decide⟩

theorem witness_SinkIsAppendOnly_reader : ∃ s t : State, s.snk.full ∧ exec .openRd s = .next t :=
  ⟨writing [7] 3 5, _, full_of (by decide), rfl⟩

theorem witness_DataRegisterFrame : ∃ t, exec .cntDistinct (loaded [1]) = .next t :=
  ⟨nextOr (exec .cntDistinct (loaded [1])) State.reset, next_of_gives (by decide +kernel)⟩

theorem witness_TreeAndTableFrame : ∃ t, exec .wrTree (coded (writing [] 0 0)) = .next t :=
  ⟨nextOr (exec .wrTree (coded (writing [] 0 0))) State.reset, next_of_gives (by decide +kernel)⟩

theorem witness_ChannelAndPositionFrame : ∃ t, exec .genCodes (coded (writing [] 3 5)) = .next t :=
  ⟨nextOr (exec .genCodes (coded (writing [] 3 5))) State.reset, next_of_gives (by decide +kernel)⟩

/-- One command that completes and one that raises. -/
theorem witness_FaultEntryWritesCause : (∃ t, exec .nop State.reset = .next t) ∧
    (∃ t, exec .rdBit State.reset = .next t ∧ t.fault = true) := ⟨⟨_, rfl⟩, _, rfl, rfl⟩

/-- A state with a tree, codes, a source half read and bits pending. -/
def busy : State := { running (coded (reading [0x61, 0x62] 1 0 0)) 0x1401 with bcDir := .wr, bcCur := 3, bcBuf := 5 }

theorem stores_busy : StoresWf busy :=
  stores_of (by decide) (by decide) (by decide) (by decide) (by decide)

theorem channel_busy : ChannelWf busy := .inr (by decide)

theorem tree_busy : TreeWf busy where
  nodes := by decide
  items := by decide
  tree := fun _ => ⟨tree1, by decide⟩
  once := fun _ => by decide
  root := fun h => by cases h
  waiting := fun h => absurd rfl h

theorem counts_busy : CountsWf busy where
  counts := by decide +kernel
  weights := by decide
  sorted := List.Pairwise.nil
  positive := fun x hx => by cases hx
  distinct := by decide

theorem witness_StepKeepsStores : ∃ s t, StoresWf s ∧ step s = .next t :=
  ⟨busy, nextOr (step busy) busy, stores_busy, next_of_gives (by decide +kernel)⟩

theorem witness_StepKeepsChannel : ∃ s t, ChannelWf s ∧ s.bcDir = .wr ∧ step s = .next t :=
  ⟨busy, nextOr (step busy) busy, channel_busy, rfl, next_of_gives (by decide +kernel)⟩

theorem witness_StepKeepsTree : ∃ s t, TreeWf s ∧ s.treeValid = true ∧ step s = .next t :=
  ⟨busy, nextOr (step busy) busy, tree_busy, rfl, next_of_gives (by decide +kernel)⟩

theorem tree_listed (w : CmdWord) : TreeWf (running listed w) where
  nodes := (by decide : 2 ≤ 511)
  items := (by decide : 2 ≤ 256)
  tree := fun h => by cases h
  once := fun h => by cases h
  root := fun _ => rfl
  waiting := fun _ => ⟨rfl, [0x62, 0x61], by decide, rfl, rfl⟩

theorem counts_listed (w : CmdWord) : CountsWf (running listed w) where
  counts := by show ((Table.fill (0 : Word64)).entries.map BitVec.toNat).sum < 2 ^ 64; decide +kernel
  weights := by show (([⟨1, 0⟩, ⟨3, 1⟩] : List WorkItem).map fun x => x.w.toNat).sum < 2 ^ 64; decide
  sorted := by show ([⟨1, 0⟩, ⟨3, 1⟩] : List WorkItem).Pairwise fun x y => x.w ≤ y.w; decide
  positive := by show ∀ x ∈ ([⟨1, 0⟩, ⟨3, 1⟩] : List WorkItem), x.w ≠ 0; decide
  distinct := by show (0 : Nat) ≤ 256; decide

theorem stores_listed (w : CmdWord) : StoresWf (running listed w) :=
  stores_of (show listed.src.map Prod.fst = List.range 4 by decide) (by show ([] : List Nat) = List.range 0; decide)
    (by show 4 < 2 ^ 64; decide) (by show 0 ≤ 4; decide) (by show Option.all _ none = true; rfl)

/-- A work list waiting for BUILD_TREE. -/
theorem witness_StepKeepsTree_waiting : ∃ s t, TreeWf s ∧ s.wl ≠ [] ∧ step s = .next t :=
  ⟨running listed 0x3000, nextOr (step (running listed 0x3000)) listed, tree_listed _, by decide,
    next_of_gives (by decide +kernel)⟩

theorem witness_StepKeepsCounts : ∃ s t, StoresWf s ∧ CountsWf s ∧ s.wl ≠ [] ∧ step s = .next t :=
  ⟨running listed 0x3000, nextOr (step (running listed 0x3000)) listed, stores_listed _, counts_listed _, by decide,
    next_of_gives (by decide +kernel)⟩

/-- A run: reset, H_LOAD_SRC, H_ISSUE of OPEN_RD, one step. -/
theorem witness_ReachableStatesAreLegal : ∃ s : State, Reachable s ∧ s.pc = 1 ∧ s.src ≠ [] ∧ s.bcDir = .rd := by
  have h1 := Reachable.host _ _ (.reset none) (.loadSrc _ _ [0x61] rfl rfl)
  have h2 := Reachable.host _ _ h1 (.issue _ 0x1000 rfl)
  exact ⟨_, Reachable.step _ _ h2 rfl, rfl, by decide, rfl⟩

/-- A word that waits. -/
theorem witness_ReachableStatesAreLegal_waiting : ∃ s : State, Reachable s ∧ s.fault = false ∧ s.pc < s.prog.length :=
  ⟨_, Reachable.host _ _ (.reset none) (.issue _ 0x1000 rfl), rfl, by decide⟩

theorem witness_CommandsNeverGetStuck : ∃ s, StoresWf s ∧ TreeWf s ∧ s.treeValid = true :=
  ⟨busy, stores_busy, tree_busy, rfl⟩

/-! ### The Bit Channel: one state for each clause -/

theorem stores_reading (l : List Nat) (pos : Word64) (cur : BitVec 3) (buf : Byte) (h : l.length < 2 ^ 64)
    (hp : pos.toNat ≤ l.length) : StoresWf (reading l pos cur buf) where
  src := full_ofBytes _
  snk := full_nil
  srcLen := by show (Memory.ofBytes _).length < _; simpa [bytes] using h
  srcPos := by show pos.toNat ≤ (Memory.ofBytes _).length; simpa [bytes] using hp
  snkLen := fun cap hc => by cases hc

theorem full_writing (out : List Nat) (cur : BitVec 3) (buf : Byte) : (writing out cur buf).snk.full := full_ofBytes _

theorem witness_RdBitResult :
    (∃ s, StoresWf s ∧ s.bcDir = .rd ∧ s.bcCur = 7) ∧
    (∃ s, StoresWf s ∧ s.bcDir = .rd ∧ s.bcCur = 0 ∧ s.src.read s.srcPos.toNat = some 0xB4) ∧
    (∃ s, StoresWf s ∧ s.bcDir = .rd ∧ s.bcCur = 0 ∧ s.srcPos = s.srcLen) :=
  ⟨⟨_, stores_reading [0xB4] 1 7 0xB4 (by decide) (by decide), rfl, rfl⟩,
   ⟨_, stores_reading [0xB4] 0 0 0 (by decide) (by decide), rfl, rfl, by decide⟩,
   ⟨_, stores_reading [] 0 0 0 (by decide) (by decide), rfl, rfl, by decide⟩⟩

theorem witness_RdByteResult :
    (∃ s, StoresWf s ∧ s.bcDir = .rd ∧ s.bcCur = 0 ∧ s.src.read s.srcPos.toNat = some 0xB4) ∧
    (∃ s, StoresWf s ∧ s.bcDir = .rd ∧ s.bcCur = 7 ∧ s.src.read s.srcPos.toNat = some 0xB4) ∧
    (∃ s, StoresWf s ∧ s.bcDir = .rd ∧ s.bcCur = 7 ∧ s.srcPos = s.srcLen) :=
  ⟨⟨_, stores_reading [0xB4] 0 0 0 (by decide) (by decide), rfl, rfl, by decide⟩,
   ⟨_, stores_reading [1, 0xB4] 1 7 1 (by decide) (by decide), rfl, rfl, by decide⟩,
   ⟨_, stores_reading [1] 1 7 1 (by decide) (by decide), rfl, rfl, by decide⟩⟩

/-- A sink of capacity 1 that is full. -/
def fullSink (cur : BitVec 3) (buf : Byte) : State := { writing [9] cur buf with snkCap := some 1 }

theorem full_fullSink (cur : BitVec 3) (buf : Byte) : (fullSink cur buf).snk.full := full_ofBytes _

theorem witness_WrBitResult :
    (∃ s : State, s.snk.full ∧ s.bcDir = .wr ∧ s.bcCur = 6) ∧
    (∃ s : State, s.snk.full ∧ s.bcDir = .wr ∧ s.bcCur = 7 ∧ s.sinkFull = false) ∧
    (∃ s : State, s.snk.full ∧ s.bcDir = .wr ∧ s.bcCur = 7 ∧ s.sinkFull = true) :=
  ⟨⟨_, full_writing [] 6 5, rfl, rfl⟩, ⟨_, full_writing [] 7 5, rfl, rfl, rfl⟩, ⟨_, full_fullSink 7 5, rfl, rfl, rfl⟩⟩

theorem witness_WrByteResult :
    (∃ s : State, s.snk.full ∧ s.bcDir = .wr ∧ s.bcCur = 7 ∧ s.sinkFull = false) ∧
    (∃ s : State, s.snk.full ∧ s.bcDir = .wr ∧ s.bcCur = 0 ∧ s.sinkFull = true) :=
  ⟨⟨_, full_writing [] 7 5, rfl, rfl, rfl⟩, ⟨_, full_fullSink 0 0, rfl, rfl, rfl⟩⟩

theorem witness_FlushResult :
    (∃ s : State, s.snk.full ∧ s.bcDir = .wr ∧ s.bcCur = 0) ∧
    (∃ s : State, s.snk.full ∧ s.bcDir = .wr ∧ s.bcCur = 1 ∧ s.sinkFull = false) ∧
    (∃ s : State, s.snk.full ∧ s.bcDir = .wr ∧ s.bcCur = 7 ∧ s.sinkFull = true) :=
  ⟨⟨_, full_writing [] 0 0, rfl, rfl⟩, ⟨_, full_writing [] 1 1, rfl, rfl, rfl⟩, ⟨_, full_fullSink 7 5, rfl, rfl, rfl⟩⟩

/-- Exactly eight bytes left, and seven. -/
theorem witness_RdSizeResult :
    (∃ s, StoresWf s ∧ s.bcDir = .rd ∧ s.srcPos.toNat + 8 = s.src.length) ∧
    (∃ s, StoresWf s ∧ s.bcDir = .rd ∧ s.srcPos.toNat + 7 = s.src.length) :=
  ⟨⟨_, stores_reading [0, 8, 7, 6, 5, 4, 3, 2, 1] 1 3 0 (by decide) (by decide), rfl, by decide⟩,
   ⟨_, stores_reading [0, 7, 6, 5, 4, 3, 2, 1] 1 3 0 (by decide) (by decide), rfl, by decide⟩⟩

/-- Room for exactly eight bytes; and the aligned clause. -/
theorem witness_WrSizeResult :
    (∃ s : State, s.snk.full ∧ s.bcDir = .wr ∧ s.Room 8 ∧ s.bcCur = 7 ∧ s.snkCap = some 9) ∧
    (∃ s : State, s.snk.full ∧ s.bcDir = .wr ∧ s.Room 8 ∧ s.bcCur = 0) :=
  ⟨⟨{ writing [1] 7 5 with snkCap := some 9 }, full_ofBytes _, rfl, room_of (by decide), rfl, rfl⟩,
   ⟨writing [] 0 0, full_ofBytes _, rfl, room_of rfl, rfl⟩⟩

theorem witness_WrittenBitsReadBack : ∃ (s u : State) (bits : List Bool) (t : State),
    s.snk = [] ∧ s.bcDir = .wr ∧ s.bcCur = 0 ∧ s.bcBuf = 0 ∧ s.snkCap = none ∧ bits.length < 2 ^ 64 ∧
    ((writeBits bits).seq opFlush) s = .done () t ∧ u.src = t.snk ∧ u.srcPos = 0 ∧ u.bcCur = 0 :=
  ⟨writing [] 0 0, reading [0xA0] 0 0 0, [true, false, true], writing [0xA0] 0 0, rfl, rfl, rfl, rfl, rfl, by decide,
    by decide +kernel, rfl, rfl, rfl⟩

theorem witness_ReadBitDeliversInOrder :
    (∃ s rest, StoresWf s ∧ s.inBits = true :: rest ∧ s.bcCur = 7) ∧ (∃ s, StoresWf s ∧ s.inBits = []) :=
  ⟨⟨_, _, stores_reading [1] 1 7 1 (by decide) (by decide), rfl, rfl⟩,
   ⟨_, stores_reading [1] 1 0 1 (by decide) (by decide), by decide⟩⟩

/-- A closed channel, and one open the other way. -/
theorem witness_WrongDirectionFaults :
    (∃ s : State, Instr.rdTree ∈ [Instr.rdBit, .rdByte, .rdSize, .rdTree, .decode] ∧ s.bcDir ≠ .rd ∧ s.bcDir ≠ .closed) ∧
    (∃ s : State, Instr.encode ∈ [Instr.flush, .wrSize, .wrTree, .encode] ∧ s.bcDir ≠ .wr ∧ s.bcDir = .closed) :=
  ⟨⟨writing [] 0 0, by decide, by decide, by decide⟩, ⟨State.reset, by decide, by decide, rfl⟩⟩

theorem witness_NoTreeFaults : (∃ s : State, s.treeValid = false ∧ s.bcDir = .wr) ∧
    (∃ s : State, s.treeValid = false ∧ s.bcDir = .rd) ∧ (∃ s : State, s.treeValid = false ∧ s.bcDir = .closed) :=
  ⟨⟨writing [] 0 0, rfl, rfl⟩, ⟨reading [0x78] 0 0 0, rfl, rfl⟩, ⟨State.reset, rfl, rfl⟩⟩

/-! ### Frequencies and trees -/

theorem witness_CntDistinctResult : ∃ s, StoresWf s ∧ s.rest = bytes [0x61, 0x62, 0x61] :=
  ⟨_, stores_reading [1, 0x61, 0x62, 0x61] 1 0 1 (by decide) (by decide), by decide⟩

theorem witness_HistResult : ∃ s, StoresWf s ∧ s.rest = bytes [0x61, 0x62, 0x61] :=
  ⟨_, stores_reading [1, 0x61, 0x62, 0x61] 1 0 1 (by decide) (by decide), by decide⟩

theorem witness_InsertionIsStable : ([⟨1, 0⟩, ⟨2, 1⟩, ⟨2, 2⟩, ⟨5, 3⟩] : List WorkItem).Pairwise (fun a b => a.w ≤ b.w) := by
  decide

theorem witness_BuildTreeIsPriorityQueue : (∃ s : State, s.wl = []) ∧
    (∃ s : State, s.wl ≠ [] ∧ s.wl.Pairwise fun a b => a.w ≤ b.w) :=
  ⟨⟨State.reset, rfl⟩, ⟨listed, by decide, (counts_listed 0).sorted⟩⟩

theorem witness_BuildTreeNumbersAndSums : ∃ s t, s.wl ≠ [] ∧ TreeWf s ∧ CountsWf s ∧ exec .buildTree s = .next t :=
  ⟨running listed 0, nextOr (exec .buildTree (running listed 0)) listed, by decide, tree_listed 0, counts_listed 0,
    next_of_gives (by decide +kernel)⟩

theorem witness_GenCodesResult : ∃ s : State, s.treeValid = true ∧ s.tree = some tree1 :=
  ⟨coded State.reset, rfl, by decide⟩

theorem witness_CodesArePrefixFree : tree1.symbols.Nodup ∧ (∀ p ∈ tree1.leaves, p.1.length ≤ 30) ∧
    0x61 ∈ tree1.symbols ∧ 0x62 ∈ tree1.symbols ∧ 0x63 ∉ tree1.symbols := by decide

theorem witness_WrTreeResult : ∃ s : State, s.snk.full ∧ s.bcDir = .wr ∧ s.treeValid = true ∧ s.tree = some tree1 ∧
    s.Room ((s.bcCur.toNat + tree1.ser.length) / 8) ∧ s.snkCap = some 4 :=
  ⟨coded { writing [1] 5 5 with snkCap := some 4 }, full_ofBytes _, rfl, rfl, by decide, room_of (by decide), rfl⟩

theorem witness_RdTreeInvertsWrTree : ∃ s rest, StoresWf s ∧ s.bcDir = .rd ∧ s.inBits = tree1.ser ++ rest ∧
    tree1.leaves.length ≤ 256 :=
  ⟨_, [false, false, false, false, false], stores_reading [0x98, 0x8C, 0x20] 0 0 0 (by decide) (by decide), rfl,
    by decide, by decide⟩

/-- A stream that ends inside a tree (V33 (a)), and one that is a tree. -/
theorem witness_RdTreeFaultsOffGrammar :
    (∃ s t, StoresWf s ∧ s.bcDir = .rd ∧ s.fault = false ∧ exec .rdTree s = .next t ∧ t.fault = true) ∧
    (∃ s t, StoresWf s ∧ s.bcDir = .rd ∧ s.fault = false ∧ exec .rdTree s = .next t ∧ t.fault = false) :=
  ⟨⟨_, nextOr (exec .rdTree (reading [0xFF] 0 0 0)) listed, stores_reading [0xFF] 0 0 0 (by decide) (by decide), rfl, rfl,
    next_of_gives (by decide +kernel), by decide +kernel⟩,
   ⟨_, nextOr (exec .rdTree (reading [0x3D, 0] 0 0 0)) listed, stores_reading [0x3D, 0] 0 0 0 (by decide) (by decide),
    rfl, rfl, next_of_gives (by decide +kernel), by decide +kernel⟩⟩

/-! ### The codec -/

/-- The codes of V1 over a source, the channel open for writing at cursor 3. -/
def coding (l : List Nat) (pos : Word64) : State :=
  { coded (loaded l) with srcPos := pos, bcDir := .wr, bcCur := 3, bcBuf := 5 }

theorem stores_coding (l : List Nat) (pos : Word64) (cap : Option Word64) (h : l.length < 2 ^ 64)
    (hp : pos.toNat ≤ l.length) : StoresWf { coding l pos with snkCap := cap } where
  src := full_ofBytes _
  snk := full_nil
  srcLen := by show (Memory.ofBytes _).length < _; simpa [bytes] using h
  srcPos := by show pos.toNat ≤ (Memory.ofBytes _).length; simpa [bytes] using hp
  snkLen := fun cap hc => Nat.zero_le _

/-- Five bytes with codes, at a capacity their bits just fill. -/
theorem witness_EncodeResult : ∃ s : State, StoresWf s ∧ s.bcDir = .wr ∧
    (∀ b ∈ s.rest, (s.code.get b).valid = true) ∧
    s.Room ((s.bcCur.toNat + (s.rest.flatMap fun b => (s.code.get b).emitted).length) / 8) ∧ s.rest.length = 5 :=
  ⟨_, stores_coding [1, 0x61, 0x62, 0x62, 0x61, 0x61] 1 (some 1) (by decide) (by decide), rfl, by decide +kernel,
    room_of (by decide +kernel), by decide⟩

theorem witness_EncodeSizeLaw : ∃ s t : State, StoresWf s ∧ s.bcDir = .wr ∧ exec .encode s = .next t ∧ t.pc = s.pc + 1 :=
  ⟨_, nextOr (exec .encode { coding [0x61, 0x62] 0 with snkCap := none }) listed,
    stores_coding [0x61, 0x62] 0 none (by decide) (by decide), rfl, next_of_gives (by decide +kernel), by decide +kernel⟩

/-- V36: two bytes with codes, then one without. -/
theorem witness_EncodeRejectsUncodedByte : ∃ (s : State) (pre post : List Byte) (b : Byte), StoresWf s ∧
    s.bcDir = .wr ∧ s.rest = pre ++ b :: post ∧ (∀ x ∈ pre, (s.code.get x).valid = true) ∧ (s.code.get b).valid = false ∧
    s.Room ((s.bcCur.toNat + (pre.flatMap fun x => (s.code.get x).emitted).length) / 8) :=
  ⟨_, bytes [0x61, 0x61], [], 0x63, stores_coding [0x61, 0x61, 0x63] 0 none (by decide) (by decide), rfl, by decide,
    by decide +kernel, by decide +kernel, room_of rfl⟩

/-- One state for each clause: no room for a header, a tree, five coded bits from cursor 3, two symbols. -/
theorem witness_FullSinkFaults :
    (∃ s : State, StoresWf s ∧ s.snkCap = some 7 ∧ s.bcDir = .wr ∧ ¬ s.Room 8) ∧
    (∃ s : State, StoresWf s ∧ s.snkCap = some 1 ∧ s.bcDir = .wr ∧ s.treeValid = true ∧ s.tree = some tree1 ∧
      ¬ s.Room ((s.bcCur.toNat + tree1.ser.length) / 8)) ∧
    (∃ s : State, StoresWf s ∧ s.snkCap = some 0 ∧ s.bcDir = .wr ∧ (∀ b ∈ s.rest, (s.code.get b).valid = true) ∧
      ¬ s.Room ((s.bcCur.toNat + (s.rest.flatMap fun b => (s.code.get b).emitted).length) / 8)) ∧
    (∃ (s : State) (ls : List (List Bool × Byte)) (rest : List Bool), StoresWf s ∧ s.snkCap = some 1 ∧ s.bcDir = .rd ∧
      s.treeValid = true ∧ s.tree = some tree1 ∧ (∀ p ∈ ls, p ∈ tree1.leaves) ∧
      s.inBits = ls.flatMap Prod.fst ++ rest ∧ ls.length = s.size.toNat ∧ ¬ s.Room ls.length) := by
  refine ⟨⟨_, stores_coding [] 0 (some 7) (by decide) (by decide), rfl, rfl, no_room_of 7 rfl (by decide)⟩,
    ⟨_, stores_coding [] 0 (some 1) (by decide) (by decide), rfl, rfl, rfl, by decide, no_room_of 1 rfl (by decide)⟩,
    ⟨_, stores_coding [0x61, 0x61, 0x61, 0x61, 0x62] 0 (some 0) (by decide) (by decide), rfl, rfl, by decide +kernel,
      no_room_of 0 rfl (by decide +kernel)⟩,
    { coded (reading [0xE0] 0 0 0) with size := 2, snkCap := some 1 }, [([true], 0x61), ([true], 0x61)],
    [true, false, false, false, false, false], stores_of (by decide) (by decide) (by decide) (by decide) (by decide), rfl,
    rfl, rfl, by decide, by decide, by decide, rfl, no_room_of 1 rfl (by decide)⟩

/-- `SIZE` symbols, and a stream that ends one symbol short. -/
theorem witness_DecodeResult :
    (∃ (s : State) (ls : List (List Bool × Byte)) (rest : List Bool), StoresWf s ∧ s.bcDir = .rd ∧ s.treeValid = true ∧
      s.tree = some tree1 ∧ (∀ p ∈ ls, p ∈ tree1.leaves) ∧ s.inBits = ls.flatMap Prod.fst ++ rest ∧ s.Room ls.length ∧
      ls.length = s.size.toNat) ∧
    (∃ (s : State) (ls : List (List Bool × Byte)) (rest : List Bool), StoresWf s ∧ s.bcDir = .rd ∧ s.treeValid = true ∧
      s.tree = some tree1 ∧ (∀ p ∈ ls, p ∈ tree1.leaves) ∧ s.inBits = ls.flatMap Prod.fst ++ rest ∧ s.Room ls.length ∧
      ls.length < s.size.toNat ∧ ∀ p ∈ tree1.leaves, ¬ p.1 <+: rest) := by
  refine ⟨⟨{ coded (reading [0xE0] 0 0 0) with size := 2 }, [([true], 0x61), ([true], 0x61)],
      [true, false, false, false, false, false], stores_of (by decide) (by decide) (by decide) (by decide) (by decide),
      rfl, rfl, by decide, by decide, by decide, room_of rfl, rfl⟩,
    { coded (reading [2] 1 6 2) with size := 3 }, [([true], 0x61), ([false], 0x62)],
      [], stores_of (by decide) (by decide) (by decide) (by decide) (by decide), rfl, rfl, by decide, by decide, by decide,
      room_of rfl, by decide, by decide⟩

theorem witness_DecodeOfNothing : ∃ s : State, s.bcDir = .rd ∧ s.treeValid = true ∧ s.tree = some tree1 ∧ s.size = 0 :=
  ⟨coded (reading [0xE0] 0 0 0), rfl, rfl, by decide, rfl⟩

/-! ### The whole-file commands -/

theorem witness_MacrosEqualTheirPrograms : ∃ s : State, StoresWf s ∧ s.fault = false ∧ s.src ≠ [] :=
  ⟨_, stores_reading [0x61] 0 0 0 (by decide) (by decide), rfl, by decide⟩

/-- "aaab", as in V1. -/
def source : State := loaded [0x61, 0x61, 0x61, 0x62]

theorem stores_source : StoresWf source := stores_of (by decide) (by decide) (by decide) (by decide) (by decide)

theorem witness_CompressBuildsTheTree : StoresWf source ∧ source.src ≠ [] ∧ source.src.bytes.dedup.length ≤ 31 ∧
    source.snkCap = none := ⟨stores_source, by decide, by decide, rfl⟩

/-- After the first five commands of COMPRESS. -/
def front : State :=
  match compressFront source with
  | .done _ b => b
  | .raised _ b => b
  | .stuck _ => source

theorem witness_CompressWritesTheStream : StoresWf source ∧ source.src ≠ [] ∧ compressFront source = .done () front ∧
    front.tree = some tree1 ∧ (∀ p ∈ tree1.leaves, p.1.length ≤ 30) ∧
    source.Room (stream tree1 source.src.bytes).length :=
  ⟨stores_source, by decide, by decide +kernel, by decide +kernel, by decide, room_of rfl⟩

theorem witness_CompressRejectsEmptySource : State.reset.src = [] := rfl

/-- The stream of V1 and one byte more. -/
theorem witness_DecompressResult : ∃ (s : State) (n : Word64) (ls : List (List Bool × Byte)) (body : List Byte)
    (rest : List Bool), StoresWf s ∧ s.src.bytes = sizeHeader n ++ body ∧
    body.flatMap byteBits = tree1.ser ++ (ls.flatMap Prod.fst ++ rest) ∧ tree1.leaves.length ≤ 256 ∧
    (∀ p ∈ ls, p ∈ tree1.leaves) ∧ ls.length = n.toNat ∧ s.Room ls.length :=
  ⟨_, 4, [([true], 0x61), ([true], 0x61), ([true], 0x61), ([false], 0x62)], bytes [0x98, 0x8C, 0x3C, 0xFF],
    false :: List.replicate 8 true,
    stores_reading [4, 0, 0, 0, 0, 0, 0, 0, 0x98, 0x8C, 0x3C, 0xFF] 0 0 0 (by decide) (by decide), by decide, by decide,
    by decide, by decide, rfl, room_of rfl⟩

theorem witness_RoundTrip : ∃ s t u : State, StoresWf s ∧ s.src ≠ [] ∧ s.snk = [] ∧ s.fault = false ∧
    exec .compress s = .next t ∧ t.fault = false ∧ StoresWf u ∧ u.src = t.snk ∧ u.snk = [] ∧ u.fault = false ∧
    u.Room s.src.length :=
  ⟨source, nextOr (exec .compress source) source, loaded [4, 0, 0, 0, 0, 0, 0, 0, 0x98, 0x8C, 0x3C], stores_source,
    by decide, rfl, rfl, next_of_gives (by decide +kernel), by decide +kernel,
    stores_of (by decide) (by decide) (by decide) (by decide) (by decide), by decide +kernel, rfl, rfl, room_of rfl⟩

/-! ### The registers: each range of rule R41 at its ends -/

theorem witness_UnassignedRegistersReadZero : ∀ n ∈ [0x00D, 0x0FF, 0x200, 0x3FF, 0x5FF, 0x700, 0x10000],
    ((0x00D ≤ n ∧ n < 0x100) ∨ (0x200 ≤ n ∧ n < 0x400) ∨ n = 0x5FF ∨ 0x700 ≤ n) ∧ (coded State.reset).hReadReg n = 0 := by
  decide +kernel

theorem witness_UnassignedRegistersReadZero_nodes : (coded State.reset).nodeCnt ≤ 3 ∧
    (coded State.reset).hReadReg 0x403 = 0 ∧ (coded State.reset).hReadReg 0x5FE = 0 := by decide +kernel

/-- The ends of the register ranges. -/
theorem witness_RegistersReadTheirFields : ∃ s : State, s.src.length < 2 ^ 64 ∧ s.snk.length < 2 ^ 64 ∧
    s.wl.length ≤ 256 ∧ s.node.length ≤ 511 ∧ s.node[0]? = some (.leaf 0x62) ∧ s.node[2]? = some (.branch 0 1) ∧
    (0x100 : Nat) + (0xFF : Byte).toNat = 0x1FF ∧ (0x600 : Nat) + (0xFF : Byte).toNat = 0x6FF :=
  ⟨coded State.reset, by decide, by decide, by decide, by decide, rfl, rfl, by decide, by decide⟩

end Sys2Proof.Tests
end

/-! ## The state after reset (10_state.md rule R42) -/

namespace Sys2Proof.Machine

/-- Register `STATUS` is 0 while none of its three flags is set (rule R23). -/
theorem statusWord_of_flags_clear {s : State} (hf : s.fault = false) (ht : s.treeValid = false)
    (hd : s.depthOvf = false) : s.statusWord = 0 := by
  rw [State.statusWord, hf, ht, hd]; rfl

@[simp] theorem reset_statusWord : State.reset.statusWord = 0 := statusWord_of_flags_clear rfl rfl rfl

@[simp] theorem reset_cnt_get (x : Byte) : State.reset.cnt.get x = 0 := Table.get_fill 0 x

@[simp] theorem reset_code_get (x : Byte) : State.reset.code.get x = CodeEntry.none := Table.get_fill CodeEntry.none x

/-- Settles O15: the fields and the four lengths of `State.reset` are its literals; `STATUS` is packed from
flags that are clear, and each table is filled with one entry. -/
theorem resetValues : Obligations.ResetValues := by
  unfold Obligations.ResetValues
  exact ⟨rfl, rfl, rfl, reset_statusWord, rfl, rfl, rfl, rfl, rfl, rfl, rfl, rfl, rfl, rfl, rfl, rfl, rfl,
    reset_cnt_get, rfl, rfl, rfl, rfl, rfl, reset_code_get, rfl⟩

end Sys2Proof.Machine

/-! ## The decoder and the encoder are inverse (30_encoding.md rules R82, R83 and R90) -/

namespace Sys2Proof

@[simp] theorem wordOpc_append (o m : Byte) : wordOpc (o ++ m) = o := BitVec.extractLsb'_append_eq_left

@[simp] theorem wordImm_append (o m : Byte) : wordImm (o ++ m) = m := BitVec.extractLsb'_append_eq_right

/-- A word is its opcode byte and its operand byte (rule R80). -/
theorem wordOpc_append_wordImm (w : CmdWord) : wordOpc w ++ wordImm w = w := by
  have h := BitVec.extractLsb'_append_extractLsb'_eq_extractLsb' (x := w) (start₁ := 0) (len₁ := 8)
    (start₂ := 8) (len₂ := 8) rfl
  simpa [wordOpc, wordImm] using h

/-- A command of format N is the one its opcode names, and its operand byte is 0 (rule R81). -/
theorem formatN_eq_some {o : Byte} {i : Instr} (h : formatN o = some i) : i.opc = o ∧ i.imm = 0 := by
  unfold formatN at h
  split at h
  case h_22 => cases h
  all_goals
    cases h
    exact ⟨BitVec.eq_of_toNat_eq (by simpa using Eq.symm ‹_›), rfl⟩

/-- The operand byte of format B is its bit 0 once bits 7:1 are clear (rule R81). -/
theorem bitOperand_eq {m : Byte} (h : m.extractLsb' 1 7 = 0) : (if m.getLsbD 0 then 1 else 0) = m := by
  revert m; decide

/-- The decoder answers each command's own word with that command. -/
theorem decode_of_encode (i : Instr) : decode (encode i) = .ok i := by
  cases i with
  | wrBit b => cases b <;> rfl
  | wrByte v => simp [decode, encode, Instr.opc, Instr.imm]
  | _ => rfl

/-- A word that decodes is the word of its command: a case per branch of the decoder. -/
theorem encode_of_decode {w : CmdWord} {i : Instr} (h : decode w = .ok i) : encode i = w := by
  suffices hb : i.opc = wordOpc w ∧ i.imm = wordImm w by
    rw [encode, hb.1, hb.2, wordOpc_append_wordImm]
  simp only [decode] at h
  split at h
  case isTrue hopc =>
    split at h
    case isTrue hbits => cases h; exact ⟨hopc.symm, bitOperand_eq hbits⟩
    case isFalse => cases h
  case isFalse =>
    split at h
    case isTrue hopc => cases h; exact ⟨hopc.symm, rfl⟩
    case isFalse =>
      split at h
      case h_1 j hj =>
        split at h
        case isTrue himm =>
          cases h
          obtain ⟨ho, hi⟩ := formatN_eq_some hj
          exact ⟨ho, hi.trans himm.symm⟩
        case isFalse => cases h
      case h_2 => cases h

/-- A word decodes to a command exactly if it is that command's word. -/
theorem decode_eq_ok_iff (w : CmdWord) (i : Instr) : decode w = .ok i ↔ w = encode i :=
  ⟨fun h => (encode_of_decode h).symm, fun h => h ▸ decode_of_encode i⟩

end Sys2Proof

/-! ## Control commands and the precondition helpers (40_control.md) -/

namespace Sys2Proof.Machine

/-- A command whose body runs to its end in `t`. -/
theorem exec_of_done {i : Instr} {s t : State} {u : Unit} (h : bodyOf i s = .done u t) :
    exec i s = .next t.advancePc := (exec_eq i s).trans (complete_done h)

/-- A command whose body raises `c` in `t`. -/
theorem exec_of_raised {i : Instr} {s t : State} {c : Cause} (h : bodyOf i s = .raised c t) :
    exec i s = .next (t.takeFault c) := (exec_eq i s).trans (complete_raised h)

@[simp] theorem opNop_run (s : State) : opNop s = .done () s := skip_run s

@[simp] theorem opRewind_run (s : State) : opRewind s = .done () { s with srcPos := 0 } := modify_run _ s

@[simp] theorem opLdSize_run (s : State) : opLdSize s = .done () { s with size := s.srcLen } := modify_run _ s

/-- Settles O23: the words by `decode_eq_ok_iff`; each body is one update of the state, or none. -/
theorem controlCommandResults : Obligations.ControlCommandResults := by
  unfold Obligations.ControlCommandResults
  refine ⟨fun w => decode_eq_ok_iff w .nop, fun w => decode_eq_ok_iff w .rewind,
    fun w => decode_eq_ok_iff w .ldSize, fun s => ⟨?_, ?_, ?_⟩⟩
  · exact exec_of_done (i := .nop) (opNop_run s)
  · exact exec_of_done (i := .rewind) (opRewind_run s)
  · exact exec_of_done (i := .ldSize) (opLdSize_run s)

/-- The commands that read through the Bit Channel begin with `need_dir(RD)` (rule R106). -/
theorem bodyOf_reader {i : Instr} (h : i ∈ [Instr.rdBit, .rdByte, .rdSize, .rdTree, .decode]) :
    ∃ rest, bodyOf i = (needDir .rd).seq rest := by
  simp only [List.mem_cons, List.not_mem_nil, or_false] at h
  obtain rfl | rfl | rfl | rfl | rfl := h <;> exact ⟨_, rfl⟩

/-- The commands that write through the Bit Channel begin with `need_dir(WR)` (rule R106). -/
theorem bodyOf_writer {i : Instr}
    (h : (∃ b, i = .wrBit b) ∨ (∃ v, i = .wrByte v) ∨ i ∈ [Instr.flush, .wrSize, .wrTree, .encode]) :
    ∃ rest, bodyOf i = (needDir .wr).seq rest := by
  simp only [List.mem_cons, List.not_mem_nil, or_false] at h
  obtain ⟨b, rfl⟩ | ⟨v, rfl⟩ | rfl | rfl | rfl | rfl := h <;> exact ⟨_, rfl⟩

/-- A command that begins with `need_dir(d)` faults with `E_DIR`, from the state it found, while the
direction is not `d`. -/
theorem exec_of_wrongDir {i : Instr} {d : Dir} {s : State} (hb : ∃ rest, bodyOf i = (needDir d).seq rest)
    (hd : s.bcDir ≠ d) : exec i s = .next (s.takeFault .dir) := by
  obtain ⟨rest, hb⟩ := hb
  exact exec_of_raised (hb ▸ seq_raised (needDir_bad hd))

/-- A command that begins with `need_dir(d)` and then `need_tree()` faults with `E_NOTREE`, from the state
it found, where the direction is `d` and there is no tree. -/
theorem exec_of_noTree {i : Instr} {d : Dir} {s : State} {rest : Tree → Op Unit}
    (hb : bodyOf i = (needDir d).seq (needTree.bind rest)) (hd : s.bcDir = d) (hv : s.treeValid = false) :
    exec i s = .next (s.takeFault .notree) :=
  exec_of_raised (hb ▸ (seq_done (needDir_ok hd)).trans (bind_raised (needTree_bad hv)))

/-- Settles O34: `need_dir` is the first thing in the body of every command that uses the channel. -/
theorem wrongDirectionFaults : Obligations.WrongDirectionFaults := by
  unfold Obligations.WrongDirectionFaults
  exact fun i s => ⟨fun hi hd => exec_of_wrongDir (bodyOf_reader hi) hd,
    fun hi hd => exec_of_wrongDir (bodyOf_writer hi) hd⟩

/-- Settles O35: GEN_CODES begins with `need_tree`; WR_TREE and DECODE have `need_dir` before it, so the
wrong direction is O34's fault. -/
theorem noTreeFaults : Obligations.NoTreeFaults := by
  unfold Obligations.NoTreeFaults
  intro s hv
  refine ⟨?genCodes, fun hd => ?wrTree, fun hd => ?decode, fun hd => ?wrTreeDir, fun hd => ?decodeDir⟩
  case genCodes => exact exec_of_raised (i := .genCodes) (bind_raised (needTree_bad hv))
  case wrTree => exact exec_of_noTree (i := .wrTree) rfl hd hv
  case decode => exact exec_of_noTree (i := .decode) rfl hd hv
  case wrTreeDir => exact (wrongDirectionFaults .wrTree s).2 (by simp) hd
  case decodeDir => exact (wrongDirectionFaults .decode s).1 (by simp) hd

end Sys2Proof.Machine

/-! ## Opening the Bit Channel (41_bit_channel.md rules R114 and R115) -/

namespace Sys2Proof.Machine

@[simp] theorem openChannel_run (d : Dir) (s : State) :
    openChannel d s = .done () { s with bcDir := d, bcCur := 0, bcBuf := 0 } := modify_run _ s

/-- A command whose body opens the channel in direction `d` completes from every state, and writes the
channel's three fields and `pc`. -/
theorem exec_of_openChannel {i : Instr} {d : Dir} (hb : bodyOf i = openChannel d) (s : State) :
    exec i s = .next { s with bcDir := d, bcCur := 0, bcBuf := 0, pc := s.pc + 1 } :=
  exec_of_done (hb ▸ openChannel_run d s)

/-- Settles O24: the words by `decode_eq_ok_iff`; both bodies are `openChannel`, in direction RD and WR. -/
theorem openResult : Obligations.OpenResult := by
  unfold Obligations.OpenResult
  exact ⟨fun w => decode_eq_ok_iff w .openRd, fun w => decode_eq_ok_iff w .openWr,
    fun s => ⟨exec_of_openChannel (i := .openRd) rfl s, exec_of_openChannel (i := .openWr) rfl s⟩⟩

end Sys2Proof.Machine

/-! ## What a completed ENCODE has written (46_stream_codec.md rules R215 and R216)

The converses of the lemmas of Laws/ that take room in SNK and valid codes as premises: that a body ran to its
end is all they ask. -/

namespace Sys2Proof.Machine

/-- The fields a command's body reaches do not include `pc` (rule R22). -/
@[simp] theorem eraseOf_pc (i : Instr) (s : State) : (eraseOf i s).pc = s.pc := by cases i <;> rfl

/-- A command after which `pc` has advanced is one whose body ran to its end. -/
theorem bodyOf_done_of_pc {i : Instr} {s t : State} (h : exec i s = .next t) (hp : t.pc = s.pc + 1) :
    ∃ u v, bodyOf i s = .done u v ∧ t = v.advancePc := by
  obtain ⟨v, hv, ⟨u, hb, rfl⟩ | ⟨c, -, rfl⟩⟩ := exec_next h
  · exact ⟨u, v, hb, rfl⟩
  · have hpc : v.pc = s.pc := by simpa using congrArg State.pc hv
    rw [takeFault_pc] at hp
    omega

/-- A `write_bit` that ran to its end found room for the byte it completes, if any: at cursor 7 a full sink
would have raised. -/
theorem room_of_writeBit_done {s t : State} {b f : Bool} (h : StoresWf s) (e : writeBit b s = .done f t) :
    s.Room ((s.bcCur.toNat + 1) / 8) := by
  intro cap hc
  have hlen := h.snkLen cap hc
  by_cases h7 : s.bcCur = 7
  · cases hf : s.sinkFull with
    | true => rw [writeBit_full b h7 hf] at e; cases e
    | false =>
      have hne := sinkFull_false hf cap hc
      have h7' : s.bcCur.toNat = 7 := congrArg BitVec.toNat h7
      omega
  · have h7' : s.bcCur.toNat ≠ 7 := fun h2 => h7 (BitVec.eq_of_toNat_eq h2)
    have hlt := cur_lt s
    omega

theorem writeBit_done {s t : State} {b f : Bool} (h : StoresWf s) (e : writeBit b s = .done f t) :
    Wrote s [b] t := by
  obtain ⟨f', t', e', hw⟩ := writeBit_wrote b h.snk (room_of_writeBit_done h e)
  cases e.symm.trans e'
  exact hw

theorem writeBits_done {s t : State} {u : Unit} (bits : List Bool) (h : StoresWf s)
    (e : writeBits bits s = .done u t) : Wrote s bits t := by
  induction bits generalizing s with
  | nil => cases e; exact Wrote.refl h.snk
  | cons b bits ih =>
    obtain ⟨f, v, e1, e2⟩ := seq_eq_done e
    exact (writeBit_done h e1).trans (ih ((storesWf_stable.writeBit b).done h e1) e2)

/-- A byte of ENCODE that ran to its end had a code, and its bits were written. -/
theorem encodeByte_done {s t : State} {u : Unit} {b : Byte} (h : StoresWf s) (e : encodeByte b s = .done u t) :
    Wrote s (s.code.get b).emitted t := by
  cases hv : (s.code.get b).valid with
  | false => rw [encodeByte_bad hv] at e; cases e
  | true => rw [encodeByte_ok hv] at e; exact writeBits_done _ h e

/-- A scan of ENCODE over all the bytes still to be read that ran to its end has written their codes. -/
theorem forSrc_encode_done (bs : List Byte) {s t : State} {u : Unit} (h : StoresWf s) (hr : s.rest = bs)
    (e : forSrc encodeByte bs.length s = .done u t) : Wrote { s with srcPos := t.srcPos } (s.coded bs) t := by
  induction bs generalizing s with
  | nil => cases e; exact Wrote.refl h.snk
  | cons b bs ih =>
    rw [List.length_cons, forSrc_cons h hr] at e
    obtain ⟨_, v, e1, e2⟩ := seq_eq_done e
    have hw := encodeByte_done (h.next hr) e1
    have hv : StoresWf v := (keeps_encodeByte storesWf_stable.writeBit b).done (h.next hr) e1
    have hcode : v.code = s.code := by rw [hw.same]
    have hrest : v.rest = bs := by rw [State.rest, hw.same]; exact rest_next h hr
    have hcoded : v.coded bs = s.coded bs := by rw [State.coded, hcode, State.coded]
    rw [coded_cons, ← hcoded]
    exact (hw.atPos t.srcPos).trans (ih hv hrest e2)

/-- ENCODE in direction WR is its scan over all the bytes still to be read. -/
theorem opEncode_eq {s : State} (h : StoresWf s) (hd : s.bcDir = .wr) :
    opEncode s = forSrc encodeByte s.rest.length s := by
  rw [opEncode, seq_done (needDir_ok hd), get_bind, remaining_eq h]

@[simp] theorem length_emitted (e : CodeEntry) : e.emitted.length = e.len.toNat := by simp [CodeEntry.emitted]

/-- The number of bits is the sum of the codes' lengths (rule R216). -/
theorem length_coded (s : State) (bs : List Byte) :
    (s.coded bs).length = (bs.map fun b => (s.code.get b).len.toNat).sum := by
  simp [State.coded, List.length_flatMap]

/-- Settles O49: an ENCODE that completed has written the codes of the bytes from `SRC_POS` on, and `Wrote`
counts the bytes completed and the cursor. -/
theorem encodeSizeLaw : Obligations.EncodeSizeLaw := by
  unfold Obligations.EncodeSizeLaw
  intro s t h hd he hp
  obtain ⟨u, v, hb, rfl⟩ := bodyOf_done_of_pc he hp
  have hw := forSrc_encode_done s.rest h rfl ((opEncode_eq h hd).symm.trans hb)
  rw [← length_coded]
  exact ⟨hw.len, hw.cur⟩

end Sys2Proof.Machine

/-! ## No command reads `pc` (10_state.md rule R22)

A body answers the same whatever `pc` is, and hands `pc` on as it found it. So it does not matter whether `pc`
advances between two bodies, as in a program, or only after the last, as in a whole-file command. -/

namespace Sys2Proof.Machine

variable {α β : Type}

/-- The state with `pc` at `p`. -/
def State.withPc (s : State) (p : Nat) : State := { s with pc := p }

/-- The answer with `pc` at `p`. -/
def Res.withPc (p : Nat) : Res α → Res α
  | .done a s => .done a (s.withPc p)
  | .raised c s => .raised c (s.withPc p)
  | .stuck r => .stuck r

/-- What the piece of pseudocode does has nothing to do with `pc`. -/
def Op.PcFree (x : Op α) : Prop := ∀ s p, x (s.withPc p) = (x s).withPc p

theorem pcFree_pure (a : α) : (Op.pure a).PcFree := fun _ _ => rfl
theorem pcFree_skip : Op.skip.PcFree := fun _ _ => rfl
theorem pcFree_raise (c : Cause) : (raise c : Op α).PcFree := fun _ _ => rfl
theorem pcFree_stuck (r : Fault) : Op.PcFree (α := α) fun _ => .stuck r := fun _ _ => rfl

theorem pcFree_get {f : State → α} (h : ∀ s p, f (s.withPc p) = f s) : (Op.get f).PcFree := fun s p => by
  rw [get_run, get_run, h]; rfl

theorem pcFree_modify {f : State → State} (h : ∀ s p, f (s.withPc p) = (f s).withPc p) : (Op.modify f).PcFree :=
  fun s p => by rw [modify_run, modify_run, h]; rfl

theorem Op.PcFree.bind {x : Op α} {f : α → Op β} (hx : x.PcFree) (hf : ∀ a, (f a).PcFree) : (x.bind f).PcFree := by
  intro s p
  simp only [Op.bind, hx s p]
  cases x s with
  | done a t => exact hf a t p
  | raised c t => rfl
  | stuck r => rfl

theorem Op.PcFree.seq {x : Op α} {y : Op β} (hx : x.PcFree) (hy : y.PcFree) : (x.seq y).PcFree := hx.bind fun _ => hy

/-- A case distinction that does not look at `pc`: in each state one such piece says what it does there. -/
theorem pcFree_of_cases {x : Op α} (h : ∀ s : State, ∃ y : Op α, y.PcFree ∧ ∀ p, x (s.withPc p) = y (s.withPc p)) :
    x.PcFree := by
  intro s p
  obtain ⟨y, hy, hxy⟩ := h s
  rw [hxy p, hy s p]
  exact congrArg (Res.withPc p) (hxy s.pc).symm

theorem pcFree_ite {c : State → Prop} [DecidablePred c] {x y : Op α} (hc : ∀ s p, c (s.withPc p) ↔ c s)
    (hx : x.PcFree) (hy : y.PcFree) : Op.PcFree fun s => if c s then x s else y s := by
  refine pcFree_of_cases fun s => ?_
  by_cases h : c s
  · exact ⟨x, hx, fun p => if_pos ((hc s p).2 h)⟩
  · exact ⟨y, hy, fun p => if_neg (mt (hc s p).1 h)⟩

/-! ### The shared operations -/

theorem pcFree_needDir (d : Dir) : (needDir d).PcFree :=
  pcFree_ite (c := fun s => s.bcDir = d) (fun _ _ => Iff.rfl) pcFree_skip (pcFree_raise .dir)

theorem pcFree_needTree : needTree.PcFree := by
  refine pcFree_of_cases fun s => ?_
  cases hv : s.treeValid with
  | false => exact ⟨_, pcFree_raise .notree, fun p => needTree_bad hv⟩
  | true =>
    cases ht : s.tree with
    | some t => exact ⟨_, pcFree_pure t, fun p => needTree_ok hv ht⟩
    | none =>
      refine ⟨_, pcFree_stuck .noTree, fun p => ?_⟩
      have hvp : (s.withPc p).treeValid = true := hv
      have htp : (s.withPc p).tree = none := ht
      simp [needTree, hvp, htp]

theorem pcFree_srcNext : srcNext.PcFree := by
  refine pcFree_of_cases fun s => ?_
  cases h : s.src.read s.srcPos.toNat with
  | some b =>
    exact ⟨(Op.modify fun t => { t with srcPos := t.srcPos + 1 }).seq (Op.pure b),
      (pcFree_modify fun _ _ => rfl).seq (pcFree_pure b), fun p => by simp [srcNext, State.withPc, h]⟩
  | none => exact ⟨_, pcFree_stuck .noByte, fun p => by simp [srcNext, State.withPc, h]⟩

theorem pcFree_snkAppend (v : Byte) : (snkAppend v).PcFree :=
  pcFree_ite (c := fun s => s.sinkFull = true) (fun _ _ => Iff.rfl) (pcFree_raise .io)
    (pcFree_modify (f := fun s => { s with snk := s.snk.write s.snkLen v }) fun _ _ => rfl)

theorem pcFree_forSrc {body : Byte → Op Unit} (h : ∀ b, (body b).PcFree) (n : Nat) : (forSrc body n).PcFree := by
  induction n with
  | zero => exact pcFree_skip
  | succ n ih => exact (pcFree_srcNext.bind h).seq ih

theorem pcFree_times {body : Op Unit} (h : body.PcFree) (n : Nat) : (times n body).PcFree := by
  induction n with
  | zero => exact pcFree_skip
  | succ n ih => exact h.seq ih

theorem pcFree_remaining : (Op.get State.remaining).PcFree := pcFree_get fun _ _ => rfl

/-! ### The Bit Channel -/

theorem pcFree_openChannel (d : Dir) : (openChannel d).PcFree := pcFree_modify fun _ _ => rfl

theorem pcFree_setRes (v : Byte) : (setRes v).PcFree := pcFree_modify fun _ _ => rfl

theorem pcFree_refill : refill.PcFree :=
  pcFree_ite (c := fun s => s.bcCur = 0) (fun _ _ => Iff.rfl)
    (pcFree_ite (c := fun s => s.srcPos = s.srcLen) (fun _ _ => Iff.rfl) (pcFree_raise .eof)
      (pcFree_srcNext.bind fun _ => pcFree_modify fun _ _ => rfl))
    pcFree_skip

theorem pcFree_readBit : readBit.PcFree := pcFree_refill.seq fun _ _ => rfl

theorem pcFree_readByteLoop (n : Nat) (v : Byte) : (readByteLoop n v).PcFree := by
  induction n generalizing v with
  | zero => exact pcFree_pure v
  | succ n ih => exact pcFree_readBit.bind fun _ => ih _

theorem pcFree_readByte : readByte.PcFree := pcFree_readByteLoop 8 0

theorem pcFree_emitByte : emitByte.PcFree :=
  pcFree_ite (c := fun s => s.bcCur = 0) (fun _ _ => Iff.rfl)
    (x := fun s => ((snkAppend s.bcBuf).seq ((Op.modify fun t => { t with bcBuf := 0 }).seq (Op.pure true))) s)
    (fun s => (pcFree_snkAppend s.bcBuf).seq ((pcFree_modify fun _ _ => rfl).seq (pcFree_pure true)) s)
    (pcFree_pure false)

theorem pcFree_writeBit (b : Bool) : (writeBit b).PcFree := (pcFree_modify fun _ _ => rfl).seq pcFree_emitByte

theorem pcFree_writeBits (bits : List Bool) : (writeBits bits).PcFree := by
  induction bits with
  | nil => exact pcFree_skip
  | cons b bits ih => exact (pcFree_writeBit b).seq ih

theorem pcFree_writeByte (v : Byte) : (writeByte v).PcFree := pcFree_writeBits (byteBits v)

theorem pcFree_writeBytes (vs : List Byte) : (writeBytes vs).PcFree := by
  induction vs with
  | nil => exact pcFree_skip
  | cons v vs ih => exact (pcFree_writeByte v).seq ih

theorem pcFree_flushLoop (n : Nat) : (flushLoop n).PcFree := by
  induction n with
  | zero => exact pcFree_skip
  | succ n ih =>
    exact pcFree_ite (c := fun s => s.bcCur = 0) (fun _ _ => Iff.rfl) pcFree_skip ((pcFree_writeBit false).seq ih)

theorem pcFree_takeHeader : takeHeader.PcFree := by
  refine pcFree_ite (c := fun s => s.srcLen - s.srcPos < 8) (fun _ _ => Iff.rfl) (pcFree_raise .header) ?_
  refine pcFree_of_cases fun s => ?_
  cases h : memRead s.src s.srcPos.toNat Config.sizeBytes with
  | some bs =>
    exact ⟨Op.modify fun t => { t with size := sizeOfHeader bs, srcPos := t.srcPos + 8 },
      pcFree_modify fun _ _ => rfl, fun p => by simp [State.withPc, h]⟩
  | none => exact ⟨_, pcFree_stuck .noByte, fun p => by simp [State.withPc, h]⟩

/-! ### Frequencies and trees -/

theorem pcFree_distinctLoop (n : Nat) (seen : List Byte) (d : BitVec 9) : (distinctLoop n seen d).PcFree := by
  induction n generalizing seen d with
  | zero => exact pcFree_pure d
  | succ n ih =>
    rw [distinctLoop]
    split_ifs with hd
    · exact pcFree_pure d
    · refine pcFree_srcNext.bind fun b => ?_
      split_ifs
      · exact ih _ _
      · exact ih _ _

theorem pcFree_bump (b : Byte) : (bump b).PcFree := pcFree_modify fun _ _ => rfl

theorem pcFree_flistLoop (n : Nat) : (flistLoop n).PcFree := by
  induction n with
  | zero => exact pcFree_skip
  | succ n ih =>
    refine pcFree_of_cases fun s => ?_
    cases h : lightest s.cnt.entries 0 none with
    | none => exact ⟨_, pcFree_skip, fun p => by simp [flistLoop, State.withPc, h]⟩
    | some mc =>
      exact ⟨(Op.modify fun t => t.emitLeaf mc.1 mc.2).seq (flistLoop n), (pcFree_modify fun _ _ => rfl).seq ih,
        fun p => by simp [flistLoop, State.withPc, h]⟩

theorem pcFree_mergeLoop (n : Nat) : (mergeLoop n).PcFree := by
  induction n with
  | zero => exact pcFree_skip
  | succ n ih =>
    refine pcFree_of_cases fun s => ?_
    rcases h : s.wl with _ | ⟨x, _ | ⟨y, rest⟩⟩
    · exact ⟨_, pcFree_skip, fun p => by simp [mergeLoop, State.withPc, h]⟩
    · exact ⟨_, pcFree_skip, fun p => by simp [mergeLoop, State.withPc, h]⟩
    · exact ⟨(Op.modify fun t => t.merge x y rest).seq (mergeLoop n), (pcFree_modify fun _ _ => rfl).seq ih,
        fun p => by simp [mergeLoop, State.withPc, h]⟩

theorem pcFree_takeRoot : takeRoot.PcFree := by
  refine pcFree_of_cases fun s => ?_
  cases h : s.wl with
  | nil => exact ⟨_, pcFree_raise .empty, fun p => by simp [takeRoot, State.withPc, h]⟩
  | cons x rest =>
    exact ⟨Op.modify fun t => ({ t with wl := [], checksum := x.w } : State).setTree true x.n,
      pcFree_modify fun _ _ => rfl, fun p => by simp [takeRoot, State.withPc, h]⟩

theorem pcFree_opBuildTree : opBuildTree.PcFree :=
  pcFree_ite (c := fun s => s.wlLen = 0) (fun _ _ => Iff.rfl) (pcFree_raise .empty)
    (y := fun s => ((mergeLoop s.wlLen).seq takeRoot) s) fun s => (pcFree_mergeLoop s.wlLen).seq pcFree_takeRoot s

theorem pcFree_walk (t : Tree) (path : BitVec 30) (depth : Nat) : (walk t path depth).PcFree := by
  induction t generalizing path depth with
  | leaf x =>
    refine pcFree_modify fun s p => ?_
    rw [State.visitLeaf, State.visitLeaf]
    split_ifs
    · rfl
    · rfl
  | branch l r ihl ihr => exact (ihl _ _).seq (ihr _ _)

theorem pcFree_putTree (t : Tree) : (putTree t).PcFree := by
  induction t with
  | leaf x => exact (pcFree_writeBit false).seq (pcFree_writeByte x)
  | branch l r ihl ihr => exact (pcFree_writeBit true).seq (ihl.seq ihr)

theorem pcFree_needRoom : needRoom.PcFree :=
  pcFree_ite (c := fun s => s.nodeCnt = Config.nodeMax) (fun _ _ => Iff.rfl) (pcFree_raise .treeOvf) pcFree_skip

theorem pcFree_newNode (x : Node) : (newNode x).PcFree := fun _ _ => rfl

theorem pcFree_fillNode (i l r : NodeIx) : (fillNode i l r).PcFree := pcFree_modify fun _ _ => rfl

theorem pcFree_getTree (n : Nat) : (getTree n).PcFree := by
  induction n with
  | zero => exact pcFree_readBit.seq (pcFree_raise .treeOvf)
  | succ n ih =>
    refine pcFree_readBit.bind fun m => pcFree_needRoom.seq ?_
    cases m with
    | false => exact pcFree_readByte.bind fun x => pcFree_newNode (.leaf x)
    | true =>
      exact (pcFree_newNode (.branch 0 0)).bind fun i => ih.bind fun l => ih.bind fun r =>
        (pcFree_fillNode i l r).seq (pcFree_pure i)

/-! ### The codec -/

theorem pcFree_encodeByte (b : Byte) : (encodeByte b).PcFree :=
  pcFree_ite (c := fun s => (s.code.get b).valid = false) (fun _ _ => Iff.rfl) (pcFree_raise .nocode)
    (y := fun s => writeBits (s.code.get b).emitted s) fun s => pcFree_writeBits (s.code.get b).emitted s

theorem pcFree_walkDown (t : Tree) : (walkDown t).PcFree := by
  induction t with
  | leaf x => exact pcFree_pure x
  | branch l r ihl ihr =>
    refine pcFree_readBit.bind fun d => ?_
    cases d with
    | false => exact ihl
    | true => exact ihr

/-! ### Every command -/

theorem pcFree_needChecksum : needChecksum.PcFree :=
  pcFree_ite (c := fun s => s.checksum = s.srcLen) (fun _ _ => Iff.rfl) pcFree_skip (pcFree_raise .checksum)

theorem pcFree_opNop : opNop.PcFree := pcFree_skip

theorem pcFree_opRewind : opRewind.PcFree := pcFree_modify fun _ _ => rfl

theorem pcFree_opLdSize : opLdSize.PcFree := pcFree_modify fun _ _ => rfl

theorem pcFree_opRdBit : opRdBit.PcFree := (pcFree_needDir .rd).seq (pcFree_readBit.bind fun _ => pcFree_setRes _)

theorem pcFree_opRdByte : opRdByte.PcFree := (pcFree_needDir .rd).seq (pcFree_readByte.bind pcFree_setRes)

theorem pcFree_opWrBit (b : Bool) : (opWrBit b).PcFree :=
  (pcFree_needDir .wr).seq ((pcFree_writeBit b).bind fun _ => pcFree_setRes _)

theorem pcFree_opWrByte (v : Byte) : (opWrByte v).PcFree := (pcFree_needDir .wr).seq (pcFree_writeByte v)

theorem pcFree_opFlush : opFlush.PcFree := (pcFree_needDir .wr).seq (pcFree_flushLoop 7)

theorem pcFree_opRdSize : opRdSize.PcFree := (pcFree_needDir .rd).seq pcFree_takeHeader

theorem pcFree_opWrSize : opWrSize.PcFree :=
  (pcFree_needDir .wr).seq ((pcFree_get fun _ _ => rfl).bind fun _ => pcFree_writeBytes _)

theorem pcFree_opCntDistinct : opCntDistinct.PcFree :=
  pcFree_remaining.bind fun n => (pcFree_distinctLoop n [] 0).bind fun _ => pcFree_modify fun _ _ => rfl

theorem pcFree_opHist : opHist.PcFree :=
  (pcFree_modify fun _ _ => rfl).seq <| pcFree_remaining.bind fun n =>
    (pcFree_forSrc pcFree_bump n).seq (pcFree_modify fun _ _ => rfl)

theorem pcFree_opFlist : opFlist.PcFree := (pcFree_modify fun _ _ => rfl).seq (pcFree_flistLoop Config.nsym)

theorem pcFree_opGenCodes : opGenCodes.PcFree :=
  pcFree_needTree.bind fun t => (pcFree_modify fun _ _ => rfl).seq (pcFree_walk t 0 0)

theorem pcFree_opWrTree : opWrTree.PcFree := (pcFree_needDir .wr).seq (pcFree_needTree.bind pcFree_putTree)

theorem pcFree_opRdTree : opRdTree.PcFree :=
  (pcFree_needDir .rd).seq <| (pcFree_modify fun _ _ => rfl).seq <|
    (pcFree_getTree Config.nodeMax).seq (pcFree_modify fun _ _ => rfl)

theorem pcFree_opEncode : opEncode.PcFree :=
  (pcFree_needDir .wr).seq (pcFree_remaining.bind (pcFree_forSrc pcFree_encodeByte))

theorem pcFree_opDecode : opDecode.PcFree :=
  (pcFree_needDir .rd).seq <| pcFree_needTree.bind fun t => (pcFree_get fun _ _ => rfl).bind fun n =>
    pcFree_times ((pcFree_walkDown t).bind pcFree_snkAppend) n.toNat

theorem pcFree_opCompress : opCompress.PcFree :=
  Op.PcFree.seq
    (pcFree_opRewind.seq <| (pcFree_openChannel .wr).seq <| pcFree_opHist.seq <| pcFree_opFlist.seq pcFree_opBuildTree)
    (pcFree_needChecksum.seq <| pcFree_opGenCodes.seq <| pcFree_opLdSize.seq <| pcFree_opWrSize.seq <|
      pcFree_opWrTree.seq <| pcFree_opEncode.seq pcFree_opFlush)

theorem pcFree_opDecompress : opDecompress.PcFree :=
  pcFree_opRewind.seq <| (pcFree_openChannel .rd).seq <| pcFree_opRdSize.seq <| pcFree_opRdTree.seq pcFree_opDecode

/-- No command's body reads `pc` or writes it (rules R22 and R103). -/
theorem pcFree_bodyOf (i : Instr) : (bodyOf i).PcFree := by
  cases i with
  | nop => exact pcFree_opNop
  | rewind => exact pcFree_opRewind
  | ldSize => exact pcFree_opLdSize
  | openRd => exact pcFree_openChannel .rd
  | openWr => exact pcFree_openChannel .wr
  | rdBit => exact pcFree_opRdBit
  | rdByte => exact pcFree_opRdByte
  | wrBit b => exact pcFree_opWrBit b
  | wrByte v => exact pcFree_opWrByte v
  | flush => exact pcFree_opFlush
  | rdSize => exact pcFree_opRdSize
  | wrSize => exact pcFree_opWrSize
  | cntDistinct => exact pcFree_opCntDistinct
  | hist => exact pcFree_opHist
  | flist => exact pcFree_opFlist
  | buildTree => exact pcFree_opBuildTree
  | genCodes => exact pcFree_opGenCodes
  | wrTree => exact pcFree_opWrTree
  | rdTree => exact pcFree_opRdTree
  | encode => exact pcFree_opEncode
  | decode => exact pcFree_opDecode
  | compress => exact pcFree_opCompress
  | decompress => exact pcFree_opDecompress

end Sys2Proof.Machine

/-! ## A program is its commands' bodies, one after the other (rules R68, R237 and R238) -/

namespace Sys2Proof.Machine

variable {α β : Type}

/-- The bodies of a program's commands run in place, as a whole-file command runs them (rule R235). -/
def inPlace : List Instr → Op Unit
  | [] => Op.skip
  | i :: rest => (bodyOf i).seq (inPlace rest)

/-- The fields a command's body reaches do not include `FAULT` (rule R23): fault entry alone sets it. -/
@[simp] theorem eraseOf_fault (i : Instr) (s : State) : (eraseOf i s).fault = s.fault := by cases i <;> rfl

theorem bodyOf_done_fault {i : Instr} {s t : State} {u : Unit} (h : bodyOf i s = .done u t) : t.fault = s.fault := by
  simpa using congrArg State.fault ((bodyOf_writes i).done h)

theorem seq_stuck {x : Op α} {y : Op β} {s : State} {r : Fault} (h : x s = .stuck r) : x.seq y s = .stuck r := by
  simp only [Op.seq, Op.bind, h]

theorem complete_stuck {x : Op Unit} {s : State} {r : Fault} (h : x s = .stuck r) : complete x s = .fault r := by
  simp only [complete, h]

theorem seq_skip (x : Op Unit) : x.seq Op.skip = x := by
  funext s; simp only [Op.seq, Op.bind]; cases x s <;> rfl

/-- A program ends as its bodies run in place do, but for `pc`: it completes in the same state, or the same
command faults with the same cause. -/
theorem sameButPc_runInstrs (is : List Instr) {s : State} (hf : s.fault = false) (p : Nat) :
    SameButPc (complete (inPlace is) s) (runInstrs is (s.withPc p)) := by
  induction is generalizing s p with
  | nil => rfl
  | cons i rest ih =>
    have hb := pcFree_bodyOf i s p
    cases h : bodyOf i s with
    | done u t =>
      rw [h] at hb
      have ht : t.fault = false := (bodyOf_done_fault h).trans hf
      have hnext : complete (inPlace (i :: rest)) s = complete (inPlace rest) t := by
        simp only [complete, inPlace, seq_done h]
      have hrun : runInstrs (i :: rest) (s.withPc p) = runInstrs rest (t.withPc (p + 1)) := by
        simp only [runInstrs, exec_of_done hb]
        exact if_neg (by simp [State.withPc, ht])
      rw [hnext, hrun]
      exact ih ht (p + 1)
    | raised c t =>
      rw [h] at hb
      have hrun : runInstrs (i :: rest) (s.withPc p) = .next ((t.withPc p).takeFault c) := by
        simp [runInstrs, exec_of_raised hb]
      rw [hrun, complete_raised (op := inPlace (i :: rest)) (seq_raised h)]
      rfl
    | stuck r =>
      rw [h] at hb
      have hrun : runInstrs (i :: rest) (s.withPc p) = .fault r := by
        simp only [runInstrs, exec_eq, complete_stuck hb]
      rw [hrun, complete_stuck (x := inPlace (i :: rest)) (seq_stuck h)]
      rfl

/-- A command whose body comes to the same as those of a program, run in place, is that program but for `pc`. -/
theorem sameButPc_of_inPlace {i : Instr} {is : List Instr} {s : State} (hf : s.fault = false)
    (h : bodyOf i s = inPlace is s) : SameButPc (exec i s) (runInstrs is s) := by
  have he : exec i s = complete (inPlace is) s := by rw [exec_eq, complete, complete, h]
  rw [he]
  exact sameButPc_runInstrs is hf s.pc

end Sys2Proof.Machine

/-! ## The checksum test of COMPRESS cannot fail (43_tree_builder.md rule R165, 47_macros.md rule R235) -/

namespace Sys2Proof.Machine

theorem opBuildTree_empty {s : State} (h : s.wl = []) : opBuildTree s = .raised .empty s :=
  if_pos (List.length_eq_zero_iff.2 h)

/-- FLIST and BUILD_TREE: the checksum is the sum of the counts they found (rules R148 and R165). -/
theorem checksum_of_flist_buildTree {s b : State} {u : Unit} (e : (opFlist.seq opBuildTree) s = .done u b)
    (hc : (s.cnt.entries.map BitVec.toNat).sum < 2 ^ 64) :
    b.checksum.toNat = (s.cnt.entries.map BitVec.toNat).sum ∧ b.src = s.src := by
  obtain ⟨syms, t, hmem, hsorted, hrun, -, ht⟩ := opFlist_run s
  rw [seq_done hrun] at e
  have hnodup : syms.Nodup := nodup_of_lighter hsorted
  have hnode : t.node = syms.map Node.leaf := by rw [ht]
  have hwl : t.wl = syms.zipIdx.map fun p => ⟨s.cnt.get p.1, BitVec.ofNat 9 p.2⟩ := by rw [ht]
  have hindex : t.wl.map WorkItem.n = (List.range syms.length).map (BitVec.ofNat 9) := by
    rw [hwl, List.map_map, List.range_eq_range', ← List.zipIdx_map_snd, List.map_map]; rfl
  have hsum : (t.wl.map fun x => x.w.toNat).sum = (s.cnt.entries.map BitVec.toNat).sum := by
    rw [← sum_weights hmem hnodup, hwl, List.map_map]
    conv_rhs => rw [← List.zipIdx_map_fst 0 syms, List.map_map]
    rfl
  have hne : t.wl ≠ [] := fun h => by rw [opBuildTree_empty h] at e; cases e
  obtain ⟨t', -, -, -, hbuild, ht', -, -, -, -, -, -, hweight⟩ :=
    opBuildTree_run hnode hindex hne (card_le_of_nodup hnodup)
  rw [hbuild] at e
  cases e
  exact ⟨(hweight (hsum ▸ hc)).trans hsum, by rw [ht', ht]⟩

/-- The commands of COMPRESS before FLIST have counted every byte of SRC (rule R143). -/
theorem compressFront_eq {s : State} (h : StoresWf s) :
    compressFront s = (opFlist.seq opBuildTree)
      { s with srcPos := 0, bcDir := .wr, bcCur := 0, bcBuf := 0, cnt := countUp (Table.fill 0) s.src.bytes } := by
  have hstores : StoresWf { s with srcPos := 0, bcDir := .wr, bcCur := 0, bcBuf := 0 } :=
    h.rewind.congr rfl rfl rfl rfl
  rw [compressFront, seq_done (opRewind_run s), opOpenWr, seq_done (openChannel_run .wr _),
    seq_done (opHist_run hstores)]
  rfl

/-- After BUILD_TREE the checksum is the length of the file. -/
theorem checksum_of_compressFront {s b : State} {u : Unit} (h : StoresWf s) (e : compressFront s = .done u b) :
    b.checksum = b.srcLen := by
  have hzero : ((Table.fill (0 : Word64)).entries.map BitVec.toNat).sum = 0 := Table.sum_zero (Table.get_fill 0)
  have hlen : s.src.bytes.length < 2 ^ 64 := by rw [length_bytes]; exact h.srcLen
  have hcounts := sum_countUp (Table.fill 0) s.src.bytes (by omega)
  rw [compressFront_eq h] at e
  obtain ⟨hsum, hsrc⟩ := checksum_of_flist_buildTree e (by simp only; omega)
  refine BitVec.eq_of_toNat_eq ?_
  rw [hsum, State.srcLen, hsrc, hcounts, hzero, length_bytes, BitVec.toNat_ofNat, Nat.mod_eq_of_lt h.srcLen,
    Nat.zero_add]

/-- COMPRESS is its commands' bodies run in place: its one other line, the test, lets every run through. -/
theorem opCompress_eq_inPlace {s : State} (h : StoresWf s) :
    opCompress s = inPlace [.rewind, .openWr, .hist, .flist, .buildTree, .genCodes, .ldSize, .wrSize, .wrTree,
      .encode, .flush] s := by
  have htest : opCompress s = (compressFront.seq compressBack) s := by
    cases e : compressFront s with
    | done u b =>
      rw [opCompress, seq_done e, seq_done e]
      exact seq_done (if_pos (checksum_of_compressFront h e))
    | raised c b => rw [opCompress, seq_raised e, seq_raised e]
    | stuck r => rw [opCompress, seq_stuck e, seq_stuck e]
  rw [htest]
  simp only [compressFront, compressBack, seq_assoc, inPlace, bodyOf, seq_skip]

/-- Settles O53: each whole-file command's body is the bodies of its program run in place, and no body reads
`pc`, so that it does not matter that the program advances `pc` after each. -/
theorem macrosEqualTheirPrograms : Obligations.MacrosEqualTheirPrograms := by
  unfold Obligations.MacrosEqualTheirPrograms
  refine fun s h hf => ⟨sameButPc_of_inPlace (i := .compress) hf (opCompress_eq_inPlace h),
    sameButPc_of_inPlace (i := .decompress) hf ?_⟩
  simp only [bodyOf, opDecompress, inPlace, seq_skip]

end Sys2Proof.Machine

/-! ## The illegal word (60_exceptions.md rule R259) -/

namespace Sys2Proof

/-- The words of the commands are among those the opcode map lists (rule R82). -/
theorem wellFormedWord_encode (i : Instr) : wellFormedWord (encode i) = true := by
  cases i with
  | wrBit b => exact Laws.EncodesLegally.wrBit b
  | wrByte v => exact Laws.EncodesLegally.wrByte v
  | _ => rfl

/-- The decoder rejects a word that selects no row of the opcode map (rules R82 and R84): a word it accepts
is a command's, and that selects one. -/
theorem decode_error_of_not_wellFormed {w : CmdWord} (h : wellFormedWord w = false) :
    ∃ e, decode w = .error e := by
  cases hd : decode w with
  | error e => exact ⟨e, rfl⟩
  | ok i =>
    rw [← encode_of_decode hd, wellFormedWord_encode] at h
    contradiction

end Sys2Proof

namespace Sys2Proof.Machine

/-- The sequencer enters `E_ILLEGAL` at a word that does not decode (rule R103). -/
theorem step_of_decode_error {s : State} {w : CmdWord} {e : Illegal} (hf : s.fault = false)
    (hw : s.prog[s.pc]? = some w) (hd : Sys2Proof.decode w = .error e) : step s = .next (s.takeFault .illegal) := by
  simp [step, hf, fetch, hw, hd]

/-- Settles O6: the word does not decode, so that the step is fault entry at once, which writes `FAULT` and
`CAUSE` alone (rule R262). -/
theorem illegalWordFaults : Obligations.IllegalWordFaults := by
  unfold Obligations.IllegalWordFaults
  intro s w hf hw hill
  obtain ⟨e, hd⟩ := decode_error_of_not_wellFormed hill
  exact step_of_decode_error hf hw hd

end Sys2Proof.Machine

/-! ## The opcode map and the decoder (30_encoding.md rules R82 to R84 and R90) -/

namespace Sys2Proof

/-- Settles O1. -/
theorem decodeInvertsEncode : Obligations.DecodeInvertsEncode := by
  unfold Obligations.DecodeInvertsEncode
  exact decode_of_encode

/-- Settles O2. -/
theorem encodeInvertsDecode : Obligations.EncodeInvertsDecode := by
  unfold Obligations.EncodeInvertsDecode
  exact fun _ _ => encode_of_decode

/-- Every row's mask covers the whole opcode, and its match has the row's own (rule R82). -/
theorem opcodeMap_opc : ∀ r ∈ opcodeMap, wordOpc r.mask = 0xFF ∧ wordOpc r.matchWord = r.opc := by decide

/-- No opcode has two rows (rule R82). -/
theorem opcodeMap_opc_inj : ∀ r ∈ opcodeMap, ∀ r' ∈ opcodeMap, r.opc = r'.opc → r = r' := by decide

/-- The two rows with an operand are WR_BIT's and WR_BYTE's; every other row fixes its word, which decodes. -/
theorem opcodeMap_formats : ∀ r ∈ opcodeMap,
    (r.mask = 0xFFFF ∧ (decode r.matchWord).isOk = true) ∨
    (r.opc = 0x14 ∧ wordImm r.mask = 0xFE ∧ wordImm r.matchWord = 0) ∨ r.opc = 0x15 := by decide

theorem selects_iff (r : OpcRow) (w : CmdWord) : r.selects w = true ↔ w &&& r.mask = r.matchWord := beq_iff_eq

/-- A word that selects a row has the row's opcode. -/
theorem wordOpc_of_selects {r : OpcRow} {w : CmdWord} (hr : r ∈ opcodeMap) (h : r.selects w = true) :
    wordOpc w = r.opc := by
  obtain ⟨hmask, hmatch⟩ := opcodeMap_opc r hr
  rw [selects_iff] at h
  have hand : wordOpc (w &&& r.mask) = wordOpc w &&& wordOpc r.mask := BitVec.extractLsb'_and
  rw [h, hmask, hmatch] at hand
  rw [hand]
  exact (BitVec.and_allOnes (x := wordOpc w)).symm

/-- The operand bits that the decoder wants clear are those of WR_BIT's mask (rules R81 and R82). -/
theorem bitOperand_clear {m : Byte} (h : m &&& 0xFE = 0) : m.extractLsb' 1 7 = 0 := by revert m; decide

/-- A word that selects a row decodes: a case per format. -/
theorem decode_of_selects {r : OpcRow} {w : CmdWord} (hr : r ∈ opcodeMap) (h : r.selects w = true) :
    ∃ i, decode w = .ok i := by
  have hopc := wordOpc_of_selects hr h
  rw [selects_iff] at h
  rcases opcodeMap_formats r hr with ⟨hmask, hok⟩ | ⟨hbit, hmask, hmatch⟩ | hbyte
  · have hw : w = r.matchWord := by rw [← h, hmask]; exact (BitVec.and_allOnes (x := w)).symm
    rw [hw]
    cases hd : decode r.matchWord with
    | ok i => exact ⟨i, rfl⟩
    | error e => rw [hd] at hok; contradiction
  · have hand : wordImm (w &&& r.mask) = wordImm w &&& wordImm r.mask := BitVec.extractLsb'_and
    rw [h, hmask, hmatch] at hand
    rw [hbit] at hopc
    simp [decode, hopc, bitOperand_clear hand.symm]
  · rw [hbyte] at hopc
    simp [decode, hopc]

/-- Settles O3: a word that decodes is a command's, which selects a row; a selected row's format decodes; and
a selected row has the word's opcode, which no two rows share. -/
theorem decoderAgreesWithOpcodeMap : Obligations.DecoderAgreesWithOpcodeMap := by
  unfold Obligations.DecoderAgreesWithOpcodeMap
  refine fun w => ⟨⟨?accepted, ?selected⟩, fun r hr r' hr' h h' => ?disjoint⟩
  case accepted =>
    rintro ⟨i, hi⟩
    rw [← encode_of_decode hi]
    exact wellFormedWord_encode i
  case selected =>
    intro h
    obtain ⟨r, hr, hw⟩ := List.any_eq_true.1 h
    exact decode_of_selects hr hw
  case disjoint =>
    exact opcodeMap_opc_inj r hr r' hr' ((wordOpc_of_selects hr h).symm.trans (wordOpc_of_selects hr' h'))

/-- Settles O4: the legal words are the encoder's, and the decoder rejects the other three. -/
theorem sampleWordsDecode : Obligations.SampleWordsDecode := by
  unfold Obligations.SampleWordsDecode
  exact ⟨decode_of_encode .nop, decode_of_encode .ldSize, decode_of_encode (.wrBit true),
    decode_of_encode (.wrByte 0x61), decode_of_encode .flist, decode_of_encode .rdTree, decode_of_encode .decode,
    decode_of_encode .compress, rfl, rfl, rfl⟩

end Sys2Proof

/-! ## The sequencer (40_control.md rule R103) -/

namespace Sys2Proof.Machine

theorem step_of_decode_ok {s : State} {w : CmdWord} {i : Instr} (hf : s.fault = false)
    (hw : s.prog[s.pc]? = some w) (hd : Sys2Proof.decode w = .ok i) : step s = exec i s := by
  simp [step, hf, fetch, hw, hd]

theorem step_of_faulted {s : State} (hf : s.fault = true) : step s = .fault .runFaulted := by simp [step, hf]

theorem step_of_end {s : State} (hf : s.fault = false) (hp : s.pc = s.prog.length) :
    step s = .fault .runComplete := by simp [step, hf, fetch, hp]

/-- Settles O5: an issued word stands at `pc` (`fetch_hIssue`), so the second clause is a case of the first. -/
theorem stepRunsDecodedCommand : Obligations.StepRunsDecodedCommand := by
  unfold Obligations.StepRunsDecodedCommand
  exact fun s w i hf hd => ⟨fun hw => step_of_decode_ok hf hw hd,
    fun hi => step_of_decode_ok (s := s.hIssue w) hf (fetch_hIssue w hi hf) hd⟩

/-- Settles O7. -/
theorem noStepAfterTheRun : Obligations.NoStepAfterTheRun := by
  unfold Obligations.NoStepAfterTheRun
  exact fun s => ⟨step_of_faulted, step_of_end⟩

/-! ## Whole-machine frames: what no command reaches, and which commands reach a field -/

@[simp] theorem eraseOf_cause (i : Instr) (s : State) : (eraseOf i s).cause = s.cause := by cases i <;> rfl
@[simp] theorem eraseOf_prog (i : Instr) (s : State) : (eraseOf i s).prog = s.prog := by cases i <;> rfl
@[simp] theorem eraseOf_src (i : Instr) (s : State) : (eraseOf i s).src = s.src := by cases i <;> rfl
@[simp] theorem eraseOf_snkCap (i : Instr) (s : State) : (eraseOf i s).snkCap = s.snkCap := by cases i <;> rfl

/-- A command leaves what its body does not reach, the end of the command apart. -/
theorem exec_keeps {β : Type} (f : State → β) {i : Instr} {s t : State} (he : ∀ u, f (eraseOf i u) = f u)
    (h : exec i s = .next t) (hp : ∀ u, f u.advancePc = f u := by intros; rfl)
    (hf : ∀ u c, f (u.takeFault c) = f u := by intros; rfl) : f t = f s := by
  obtain ⟨v, hv, hend⟩ := exec_next h
  have hvs : f v = f s := by rw [← he v, hv, he s]
  rcases hend with ⟨_, _, rfl⟩ | ⟨c, _, rfl⟩
  · rw [hp, hvs]
  · rw [hf, hvs]

/-- What a command does to `pc`, `FAULT` and `CAUSE` (rules R103 and R262). -/
theorem exec_end {i : Instr} {s t : State} (h : exec i s = .next t) :
    (t.pc = s.pc + 1 ∧ t.fault = s.fault ∧ t.cause = s.cause) ∨
    (t.pc = s.pc ∧ t.fault = true ∧ ∃ c ∈ mayRaise i, t.cause = c.code) := by
  obtain ⟨v, hv, ⟨_, _, rfl⟩ | ⟨c, hb, rfl⟩⟩ := exec_next h
  all_goals
    have hpc : v.pc = s.pc := by simpa using congrArg State.pc hv
  · have hfault : v.fault = s.fault := by simpa using congrArg State.fault hv
    have hcause : v.cause = s.cause := by simpa using congrArg State.cause hv
    exact .inl ⟨by rw [advancePc_pc, hpc], hfault, hcause⟩
  · exact .inr ⟨hpc, rfl, c, bodyOf_raises i s c v trivial hb, rfl⟩

/-- Settles O14. -/
theorem faultEntryWritesCause : Obligations.FaultEntryWritesCause := by
  unfold Obligations.FaultEntryWritesCause
  exact fun _ _ _ => exec_end

/-- Settles O8: an illegal word is fault entry at once; a command's end is one or the other, and the run was
not faulted before the step. -/
theorem pcAdvancesUnlessFaulted : Obligations.PcAdvancesUnlessFaulted := by
  unfold Obligations.PcAdvancesUnlessFaulted
  intro s t h
  obtain ⟨hf, w, -, ⟨_, _, rfl⟩ | ⟨i, _, he⟩⟩ := step_next h
  · exact .inr ⟨rfl, rfl⟩
  · exact (exec_end he).imp (fun ⟨hpc, hfault, _⟩ => ⟨hfault.trans hf, hpc⟩) fun ⟨hpc, hfault, _⟩ => ⟨hfault, hpc⟩

theorem exec_src {i : Instr} {s t : State} (h : exec i s = .next t) : t.src = s.src :=
  exec_keeps State.src (eraseOf_src i) h

theorem exec_prog {i : Instr} {s t : State} (h : exec i s = .next t) : t.prog = s.prog :=
  exec_keeps State.prog (eraseOf_prog i) h

theorem exec_snkCap {i : Instr} {s t : State} (h : exec i s = .next t) : t.snkCap = s.snkCap :=
  exec_keeps State.snkCap (eraseOf_snkCap i) h

/-- What no step changes (rules R9, R22 and R50). -/
theorem step_frame {s t : State} (h : step s = .next t) : t.src = s.src ∧ t.prog = s.prog ∧ t.snkCap = s.snkCap := by
  obtain ⟨-, w, -, ⟨_, _, rfl⟩ | ⟨i, _, he⟩⟩ := step_next h
  · exact ⟨rfl, rfl, rfl⟩
  · exact ⟨exec_src he, exec_prog he, exec_snkCap he⟩

/-- Settles O9. -/
theorem stepKeepsSourceAndProgram : Obligations.StepKeepsSourceAndProgram := by
  unfold Obligations.StepKeepsSourceAndProgram
  intro s t h
  obtain ⟨hsrc, hprog, hcap⟩ := step_frame h
  exact ⟨hsrc, hprog, hcap, fun a => by rw [hsrc]⟩

theorem eraseOf_snk {i : Instr} (h : i ∈ [Instr.nop, .rewind, .ldSize, .openRd, .openWr, .rdBit, .rdByte, .rdSize,
    .cntDistinct, .hist, .flist, .buildTree, .genCodes, .rdTree]) (s : State) : (eraseOf i s).snk = s.snk := by
  cases i with
  | wrBit | wrByte | flush | wrSize | wrTree | encode | decode | compress | decompress => simp at h
  | _ => rfl

/-- Settles O10: that SNK is full and begins with the bytes it held is kept by every command
(`sinkExtends_stable`), and a full store reads as its bytes. -/
theorem sinkIsAppendOnly : Obligations.SinkIsAppendOnly := by
  unfold Obligations.SinkIsAppendOnly
  intro i s t hs h
  obtain ⟨ht, bs, hbs⟩ := (sinkExtends_stable s.snk.bytes).exec ⟨hs, [], (List.append_nil _).symm⟩ h
  refine ⟨⟨bs, hbs ▸ ht.eq_ofBytes⟩, fun a ha => ?reads, fun hi => ?frame⟩
  case reads =>
    have hlen : t.snk.length = s.snk.length + bs.length := by
      rw [← length_bytes, hbs, List.length_append, length_bytes]
    rw [ht.read, hs.read, hbs]
    rcases ha with ha | ha
    · rw [List.getElem?_append_left (by rwa [length_bytes])]
    · rw [List.getElem?_eq_none (by rw [List.length_append, length_bytes]; omega),
        List.getElem?_eq_none (by rw [length_bytes]; omega)]
  case frame => exact exec_keeps State.snk (eraseOf_snk hi) h

theorem eraseOf_res {i : Instr} (h1 : i ≠ .rdBit) (h2 : i ≠ .rdByte) (h3 : ∀ b, i ≠ .wrBit b) (s : State) :
    (eraseOf i s).res = s.res := by
  cases i with
  | rdBit | rdByte => contradiction
  | wrBit b => exact absurd rfl (h3 b)
  | _ => rfl

theorem eraseOf_distinct {i : Instr} (h : i ≠ .cntDistinct) (s : State) : (eraseOf i s).distinct = s.distinct := by
  cases i with
  | cntDistinct => contradiction
  | _ => rfl

theorem eraseOf_size {i : Instr} (h1 : i ≠ .ldSize) (h2 : i ≠ .rdSize) (h3 : i ≠ .compress) (h4 : i ≠ .decompress)
    (s : State) : (eraseOf i s).size = s.size := by
  cases i with
  | ldSize | rdSize | compress | decompress => contradiction
  | _ => rfl

theorem eraseOf_checksum {i : Instr} (h1 : i ≠ .buildTree) (h2 : i ≠ .compress) (s : State) :
    (eraseOf i s).checksum = s.checksum := by
  cases i with
  | buildTree | compress => contradiction
  | _ => rfl

/-- Settles O11. -/
theorem dataRegisterFrame : Obligations.DataRegisterFrame := by
  unfold Obligations.DataRegisterFrame
  exact fun i s t h =>
    ⟨fun h1 h2 h3 => exec_keeps State.res (eraseOf_res h1 h2 h3) h,
      fun h1 => exec_keeps State.distinct (eraseOf_distinct h1) h,
      fun h1 h2 h3 h4 => exec_keeps State.size (eraseOf_size h1 h2 h3 h4) h,
      fun h1 h2 => exec_keeps State.checksum (eraseOf_checksum h1 h2) h⟩

theorem eraseOf_cnt {i : Instr} (h : i ∉ [Instr.hist, .flist, .compress]) (s : State) :
    (eraseOf i s).cnt = s.cnt := by
  cases i with
  | hist | flist | compress => simp at h
  | _ => rfl

theorem eraseOf_codes {i : Instr} (h : i ∉ [Instr.genCodes, .compress]) (s : State) :
    (eraseOf i s).code = s.code ∧ (eraseOf i s).depthOvf = s.depthOvf := by
  cases i with
  | genCodes | compress => simp at h
  | _ => exact ⟨rfl, rfl⟩

theorem eraseOf_tree {i : Instr} (h : i ∉ [Instr.flist, .buildTree, .rdTree, .compress, .decompress]) (s : State) :
    (eraseOf i s).node = s.node ∧ (eraseOf i s).wl = s.wl ∧ (eraseOf i s).root = s.root ∧
      (eraseOf i s).treeValid = s.treeValid := by
  cases i with
  | flist | buildTree | rdTree | compress | decompress => simp at h
  | _ => exact ⟨rfl, rfl, rfl, rfl⟩

/-- A command that makes and drops no tree leaves the arena, the work list, `ROOT` and `TREE_VALID`. -/
theorem exec_keeps_tree {i : Instr} (hi : i ∉ [Instr.flist, .buildTree, .rdTree, .compress, .decompress])
    {s t : State} (h : exec i s = .next t) :
    t.node = s.node ∧ t.wl = s.wl ∧ t.root = s.root ∧ t.treeValid = s.treeValid :=
  ⟨exec_keeps State.node (fun u => (eraseOf_tree hi u).1) h,
    exec_keeps State.wl (fun u => (eraseOf_tree hi u).2.1) h,
    exec_keeps State.root (fun u => (eraseOf_tree hi u).2.2.1) h,
    exec_keeps State.treeValid (fun u => (eraseOf_tree hi u).2.2.2) h⟩

/-- Settles O12. -/
theorem treeAndTableFrame : Obligations.TreeAndTableFrame := by
  unfold Obligations.TreeAndTableFrame
  exact fun i s t h =>
    ⟨fun hi => exec_keeps State.cnt (eraseOf_cnt hi) h,
      fun hi => ⟨exec_keeps State.code (fun u => (eraseOf_codes hi u).1) h,
        exec_keeps State.depthOvf (fun u => (eraseOf_codes hi u).2) h⟩,
      fun hi => exec_keeps_tree hi h⟩

theorem eraseOf_bcDir {i : Instr} (h : i ∉ [Instr.openRd, .openWr, .compress, .decompress]) (s : State) :
    (eraseOf i s).bcDir = s.bcDir := by
  cases i with
  | openRd | openWr | compress | decompress => simp at h
  | _ => rfl

theorem eraseOf_channel {i : Instr} (h : i ∈ [Instr.nop, .rewind, .ldSize, .rdSize, .cntDistinct, .hist, .flist,
    .buildTree, .genCodes]) (s : State) : (eraseOf i s).bcCur = s.bcCur ∧ (eraseOf i s).bcBuf = s.bcBuf := by
  cases i with
  | nop | rewind | ldSize | rdSize | cntDistinct | hist | flist | buildTree | genCodes => exact ⟨rfl, rfl⟩
  | _ => simp at h

theorem eraseOf_srcPos {i : Instr} (h : i ∉ [Instr.rewind, .rdBit, .rdByte, .rdSize, .cntDistinct, .hist, .rdTree,
    .encode, .decode, .compress, .decompress]) (s : State) : (eraseOf i s).srcPos = s.srcPos := by
  cases i with
  | rewind | rdBit | rdByte | rdSize | cntDistinct | hist | rdTree | encode | decode | compress | decompress =>
    simp at h
  | _ => rfl

/-- Settles O13. -/
theorem channelAndPositionFrame : Obligations.ChannelAndPositionFrame := by
  unfold Obligations.ChannelAndPositionFrame
  exact fun i s t h =>
    ⟨fun hi => exec_keeps State.bcDir (eraseOf_bcDir hi) h,
      fun hi => ⟨exec_keeps State.bcCur (fun u => (eraseOf_channel hi u).1) h,
        exec_keeps State.bcBuf (fun u => (eraseOf_channel hi u).2) h⟩,
      fun hi => exec_keeps State.srcPos (eraseOf_srcPos hi) h⟩

end Sys2Proof.Machine

/-! ## Invariants through bodies and the end of a command -/

namespace Sys2Proof.Machine

variable {α : Type} {P Q E R : State → Prop}

/-- A property that a body's fields do not bear on is kept by it, completed or faulted. -/
theorem Op.Writes.keeps_frame {x : Op α} {e : State → State} (h : x.Writes e)
    (hP : ∀ s t, e t = e s → P s → P t) : x.Keeps P P P := by
  intro s hs
  have h1 := h s s rfl
  cases hx : x s with
  | done a t => rw [hx] at h1; exact hP s t h1 hs
  | raised c t => rw [hx] at h1; exact hP s t h1 hs
  | stuck r => trivial

theorem keeps_and {x : Op α} (h1 : x.Keeps P P P) (h2 : x.Keeps (fun s => P s ∧ Q s) Q Q) :
    x.Keeps (fun s => P s ∧ Q s) (fun s => P s ∧ Q s) fun s => P s ∧ Q s := by
  intro s hs
  have e1 := h1 s hs.1
  have e2 := h2 s hs
  cases hx : x s with
  | done a t => rw [hx] at e1 e2; exact ⟨e1, e2⟩
  | raised c t => rw [hx] at e1 e2; exact ⟨e1, e2⟩
  | stuck r => trivial

/-- What a body carries to its end, or to its fault, the command carries to the next state. -/
theorem exec_of_keeps {i : Instr} {s t : State} (hb : (bodyOf i).Keeps P Q E) (hd : ∀ v, Q v → R v.advancePc)
    (hr : ∀ v c, E v → R (v.takeFault c)) (hs : P s) (h : exec i s = .next t) : R t := by
  rw [exec_eq] at h
  rcases complete_next h with ⟨u, v, e, rfl⟩ | ⟨c, v, e, rfl⟩
  · exact hd v (hb.done hs e)
  · exact hr v c (hb.raised hs e)

/-- A step keeps what fault entry and every command keep. -/
theorem step_keeps {s t : State} (hf : ∀ c, P (s.takeFault c)) (he : ∀ i, exec i s = .next t → P t)
    (h : step s = .next t) : P t := by
  obtain ⟨-, w, -, ⟨_, _, rfl⟩ | ⟨i, _, hi⟩⟩ := step_next h
  · exact hf .illegal
  · exact he i hi

/-! ## The stores (rules R29, R51, R56 and R57) -/

theorem StoresWf.takeFault {s : State} (h : StoresWf s) (c : Cause) : StoresWf (s.takeFault c) :=
  h.congr rfl rfl rfl rfl

/-- Settles O17: `storesWf_stable` for the commands; fault entry does not touch a store. -/
theorem stepKeepsStores : Obligations.StepKeepsStores := by
  unfold Obligations.StepKeepsStores
  exact fun s t hs h => step_keeps hs.takeFault (fun _ he => storesWf_stable.exec hs he) h

/-! ## The Bit Channel (rules R31 and R124) -/

/-- Open for writing, the buffer holding the pending bits only, unless a full sink has stopped a write. -/
def WritingWf (s : State) : Prop := s.bcDir = .wr ∧ (s.fault = true ∨ s.bcBuf.toNat < 2 ^ s.bcCur.toNat)

/-- Open in direction `d`. -/
def Open (d : Dir) (s : State) : Prop := s.bcDir = d

theorem WritingWf.open {s : State} (h : WritingWf s) : Open .wr s := h.1

theorem channelWf_wr {s : State} (h : s.bcDir = .wr) :
    ChannelWf s ↔ s.fault = true ∨ s.bcBuf.toNat < 2 ^ s.bcCur.toNat := by rw [ChannelWf, h]

theorem channelWf_rd {s : State} (h : s.bcDir = .rd) : ChannelWf s := by rw [ChannelWf, h]; trivial

theorem channelWf_closed {s : State} (h : s.bcDir = .closed) : ChannelWf s ↔ s.bcCur = 0 ∧ s.bcBuf = 0 := by
  rw [ChannelWf, h]

theorem WritingWf.channelWf {s : State} (h : WritingWf s) : ChannelWf s := (channelWf_wr h.1).2 h.2

theorem ChannelWf.congr {s t : State} (h : ChannelWf s) (hd : t.bcDir = s.bcDir) (hc : t.bcCur = s.bcCur)
    (hb : t.bcBuf = s.bcBuf) (hf : s.fault = true → t.fault = true) : ChannelWf t := by
  cases hdir : s.bcDir with
  | closed => rw [channelWf_closed (hd.trans hdir), hc, hb]; exact (channelWf_closed hdir).1 h
  | rd => exact channelWf_rd (hd.trans hdir)
  | wr => rw [channelWf_wr (hd.trans hdir), hc, hb]; exact ((channelWf_wr hdir).1 h).imp_left hf

theorem ChannelWf.takeFault {s : State} (h : ChannelWf s) (c : Cause) : ChannelWf (s.takeFault c) :=
  h.congr rfl rfl rfl fun _ => rfl

theorem Open.channelWf_takeFault {d : Dir} {s : State} (h : Open d s) (hd : d ≠ .closed) (c : Cause) :
    ChannelWf (s.takeFault c) := by
  cases d with
  | closed => contradiction
  | rd => exact channelWf_rd h
  | wr => exact (channelWf_wr (s := s.takeFault c) h).2 (.inl rfl)

/-- A pending bit joins the pending bits; the eighth leaves the buffer empty, or stops at a full sink. -/
theorem writeBit_keepsWriting (b : Bool) : (writeBit b).Keeps WritingWf WritingWf (Open .wr) := by
  intro s ⟨hd, hb⟩
  by_cases h7 : s.bcCur = 7
  · cases hfull : s.sinkFull with
    | true => rw [writeBit_full b h7 hfull]; exact hd
    | false => rw [writeBit_emit b h7 hfull]; exact ⟨hd, .inr Nat.one_pos⟩
  · rw [writeBit_pending b h7]
    refine ⟨hd, hb.imp_right fun hlt => ?_⟩
    rw [shiftIn_bcCur, shiftIn_bcBuf, cur_succ h7]
    exact buf_shift b hlt

/-- A body that reaches neither the channel nor `FAULT`. -/
theorem Op.Writes.keepsWriting {x : Op α} {e : State → State} (h : x.Writes e) (he : ∀ s, (e s).bcDir = s.bcDir ∧
    (e s).bcCur = s.bcCur ∧ (e s).bcBuf = s.bcBuf ∧ (e s).fault = s.fault) :
    x.Keeps WritingWf WritingWf (Open .wr) := by
  refine keeps_mono (h.keeps_frame (P := WritingWf) fun s t hst hs => ?_) (fun _ h => h) (fun _ h => h)
    fun _ h => h.open
  obtain ⟨hd, hc, hb, hf⟩ := he t
  obtain ⟨hd', hc', hb', hf'⟩ := he s
  rw [WritingWf, ← hd, ← hc, ← hb, ← hf, hst, hd', hc', hb', hf']
  exact hs

theorem keepsWriting_needDir {x : Op Unit} (h : x.Keeps WritingWf WritingWf (Open .wr)) :
    ((needDir .wr).seq x).Keeps WritingWf WritingWf (Open .wr) :=
  keeps_seq (keeps_needDir_same _ fun _ h => h.open) h

theorem encodeByte_keepsWriting (b : Byte) : (encodeByte b).Keeps WritingWf WritingWf (Open .wr) := by
  intro s hs
  cases hv : (s.code.get b).valid with
  | false => rw [encodeByte_bad hv]; exact hs.open
  | true => rw [encodeByte_ok hv]; exact keeps_writeBits writeBit_keepsWriting _ s hs

theorem opWrBit_keepsWriting (b : Bool) : (opWrBit b).Keeps WritingWf WritingWf (Open .wr) :=
  keepsWriting_needDir (keeps_bind (writeBit_keepsWriting b) fun _ => keeps_modify fun _ h => h)

theorem opWrByte_keepsWriting (v : Byte) : (opWrByte v).Keeps WritingWf WritingWf (Open .wr) :=
  keepsWriting_needDir (keeps_writeBits writeBit_keepsWriting _)

theorem opFlush_keepsWriting : opFlush.Keeps WritingWf WritingWf (Open .wr) :=
  keepsWriting_needDir (keeps_flushLoop writeBit_keepsWriting 7)

theorem opWrSize_keepsWriting : opWrSize.Keeps WritingWf WritingWf (Open .wr) :=
  keepsWriting_needDir (keeps_bind (keeps_get _) fun _ => keeps_writeBytes writeBit_keepsWriting _)

theorem opWrTree_keepsWriting : opWrTree.Keeps WritingWf WritingWf (Open .wr) :=
  keepsWriting_needDir (keeps_bind (keeps_needTree_same fun _ h => h.open) fun t =>
    keeps_putTree writeBit_keepsWriting t)

theorem opEncode_keepsWriting : opEncode.Keeps WritingWf WritingWf (Open .wr) :=
  keepsWriting_needDir (keeps_bind (keeps_get _) fun n =>
    keeps_forSrc (keeps_srcNext fun _ _ h => h) encodeByte_keepsWriting n)

/-- COMPRESS opens the channel for writing and leaves it so. -/
theorem opCompress_keepsWriting : opCompress.Keeps Any WritingWf (Open .wr) := by
  have front : compressFront.Keeps Any WritingWf (Open .wr) :=
    keeps_seq (Q := Any) (keeps_modify fun _ _ => trivial) <|
      keeps_seq (Q := WritingWf) (keeps_modify fun _ _ => ⟨rfl, .inr Nat.one_pos⟩) <|
        keeps_seq (opHist_writes.keepsWriting fun _ => ⟨rfl, rfl, rfl, rfl⟩) <|
          keeps_seq (opFlist_writes.keepsWriting fun _ => ⟨rfl, rfl, rfl, rfl⟩)
            (opBuildTree_writes.keepsWriting fun _ => ⟨rfl, rfl, rfl, rfl⟩)
  have back : compressBack.Keeps WritingWf WritingWf (Open .wr) :=
    keeps_seq (opGenCodes_writes.keepsWriting fun _ => ⟨rfl, rfl, rfl, rfl⟩) <|
      keeps_seq (opLdSize_writes.keepsWriting fun _ => ⟨rfl, rfl, rfl, rfl⟩) <|
        keeps_seq opWrSize_keepsWriting <| keeps_seq opWrTree_keepsWriting <|
          keeps_seq opEncode_keepsWriting opFlush_keepsWriting
  exact keeps_seq front (keeps_seq
    (keeps_mono keeps_needChecksum (fun _ h => h) (fun _ h => h) fun _ h => h.open) back)

theorem Op.Writes.keepsOpen {x : Op α} {e : State → State} (h : x.Writes e) (he : ∀ s, (e s).bcDir = s.bcDir)
    (d : Dir) : x.Keeps (Open d) (Open d) (Open d) := by
  refine h.keeps_frame fun s t hst hs => ?_
  rw [Open, ← he t, hst, he s]
  exact hs

/-- DECOMPRESS opens the channel for reading and leaves it so. -/
theorem opDecompress_open : opDecompress.Keeps Any (Open .rd) (Open .rd) :=
  keeps_seq (Q := Any) (keeps_modify fun _ _ => trivial) <|
    keeps_seq (Q := Open .rd) (keeps_modify fun _ _ => rfl) <|
      keeps_seq (opRdSize_writes.keepsOpen (fun _ => rfl) .rd) <|
        keeps_seq (opRdTree_writes.keepsOpen (fun _ => rfl) .rd) (opDecode_writes.keepsOpen (fun _ => rfl) .rd)

/-- The commands that write through the channel keep its meaning: in the wrong direction they fault at once. -/
theorem channelWf_of_writer (i : Instr) {s t : State}
    (hi : (∃ b, i = .wrBit b) ∨ (∃ v, i = .wrByte v) ∨ i ∈ [Instr.flush, .wrSize, .wrTree, .encode])
    (hb : (bodyOf i).Keeps WritingWf WritingWf (Open .wr)) (hs : ChannelWf s) (h : exec i s = .next t) :
    ChannelWf t := by
  by_cases hd : s.bcDir = .wr
  · exact exec_of_keeps hb (fun v hv => WritingWf.channelWf (s := v.advancePc) hv)
      (fun v c hv => hv.channelWf_takeFault (by decide) c) ⟨hd, (channelWf_wr hd).1 hs⟩ h
  · rw [exec_of_wrongDir (bodyOf_writer hi) hd] at h
    cases h
    exact hs.takeFault .dir

/-- So do the commands that read through it: where they run, the direction is RD and stays so. -/
theorem channelWf_of_reader {i : Instr} {s t : State} (hi : i ∈ [Instr.rdBit, .rdByte, .rdSize, .rdTree, .decode])
    (hb : i ∉ [Instr.openRd, .openWr, .compress, .decompress]) (hs : ChannelWf s) (h : exec i s = .next t) :
    ChannelWf t := by
  by_cases hd : s.bcDir = .rd
  · exact channelWf_rd ((exec_keeps State.bcDir (eraseOf_bcDir hb) h).trans hd)
  · rw [exec_of_wrongDir (bodyOf_reader hi) hd] at h
    cases h
    exact hs.takeFault .dir

theorem exec_fault_of_fault {i : Instr} {s t : State} (h : exec i s = .next t) (hf : s.fault = true) :
    t.fault = true := by
  rcases exec_end h with ⟨_, h1, _⟩ | ⟨_, h1, _⟩
  · exact h1.trans hf
  · exact h1

/-- So do the commands that do not touch it. -/
theorem channelWf_of_other {i : Instr} {s t : State} (hi : i ∈ [Instr.nop, .rewind, .ldSize, .rdSize, .cntDistinct,
    .hist, .flist, .buildTree, .genCodes]) (hb : i ∉ [Instr.openRd, .openWr, .compress, .decompress])
    (hs : ChannelWf s) (h : exec i s = .next t) : ChannelWf t :=
  hs.congr (exec_keeps State.bcDir (eraseOf_bcDir hb) h)
    (exec_keeps State.bcCur (fun u => (eraseOf_channel hi u).1) h)
    (exec_keeps State.bcBuf (fun u => (eraseOf_channel hi u).2) h) (exec_fault_of_fault h)

theorem exec_keepsChannel {i : Instr} {s t : State} (hs : ChannelWf s) (h : exec i s = .next t) : ChannelWf t := by
  cases i with
  | openRd => rw [exec_of_done (i := .openRd) (openChannel_run .rd s)] at h; cases h; exact channelWf_rd rfl
  | openWr =>
    rw [exec_of_done (i := .openWr) (openChannel_run .wr s)] at h
    cases h
    exact WritingWf.channelWf ⟨rfl, .inr Nat.one_pos⟩
  | wrBit b => exact channelWf_of_writer (.wrBit b) (by simp) (opWrBit_keepsWriting b) hs h
  | wrByte v => exact channelWf_of_writer (.wrByte v) (by simp) (opWrByte_keepsWriting v) hs h
  | flush => exact channelWf_of_writer .flush (by simp) opFlush_keepsWriting hs h
  | wrSize => exact channelWf_of_writer .wrSize (by simp) opWrSize_keepsWriting hs h
  | wrTree => exact channelWf_of_writer .wrTree (by simp) opWrTree_keepsWriting hs h
  | encode => exact channelWf_of_writer .encode (by simp) opEncode_keepsWriting hs h
  | compress =>
    exact exec_of_keeps opCompress_keepsWriting (fun v hv => WritingWf.channelWf (s := v.advancePc) hv)
      (fun v c hv => hv.channelWf_takeFault (by decide) c) trivial h
  | decompress =>
    exact exec_of_keeps opDecompress_open (fun v hv => channelWf_rd (s := v.advancePc) hv)
      (fun v c hv => hv.channelWf_takeFault (by decide) c) trivial h
  | rdBit | rdByte | rdSize | rdTree | decode => exact channelWf_of_reader (by simp) (by simp) hs h
  | _ => exact channelWf_of_other (by simp) (by simp) hs h

/-- Settles O18. -/
theorem stepKeepsChannel : Obligations.StepKeepsChannel := by
  unfold Obligations.StepKeepsChannel
  exact fun s t hs h => step_keeps hs.takeFault (fun _ he => exec_keepsChannel hs he) h

end Sys2Proof.Machine

/-! ## The arena, the tree and the counts (10_state.md rules R32 to R36) -/

namespace Sys2Proof.Machine

variable {α : Type} {P : State → Prop}

theorem keeps_inPlace {is : List Instr} (h : ∀ i ∈ is, (bodyOf i).Keeps P P P) : (inPlace is).Keeps P P P := by
  induction is with
  | nil => exact keeps_skip
  | cons i is ih => exact keeps_seq (h i (by simp)) (ih fun j hj => h j (by simp [hj]))

theorem compressFront_eq_inPlace : compressFront = inPlace [.rewind, .openWr, .hist, .flist, .buildTree] := by
  simp only [compressFront, inPlace, bodyOf, seq_skip]

theorem compressBack_eq_inPlace :
    compressBack = inPlace [.genCodes, .ldSize, .wrSize, .wrTree, .encode, .flush] := by
  simp only [compressBack, inPlace, bodyOf, seq_skip]

theorem opDecompress_eq_inPlace : opDecompress = inPlace [.rewind, .openRd, .rdSize, .rdTree, .decode] := by
  simp only [opDecompress, inPlace, bodyOf, seq_skip]

/-- What every body but those of the whole-file commands keeps, these keep too: they run the others in place,
and COMPRESS's one other line changes nothing (rules R235 and R236). -/
theorem keeps_bodyOf (h : ∀ i, i ≠ .compress → i ≠ .decompress → (bodyOf i).Keeps P P P) (i : Instr) :
    (bodyOf i).Keeps P P P := by
  have run : ∀ is : List Instr, .compress ∉ is → .decompress ∉ is → (inPlace is).Keeps P P P := fun is hc hd =>
    keeps_inPlace fun j hj => h j (fun e => hc (e ▸ hj)) fun e => hd (e ▸ hj)
  by_cases hc : i = .compress
  · subst hc
    show (compressFront.seq (needChecksum.seq compressBack)).Keeps P P P
    rw [compressFront_eq_inPlace, compressBack_eq_inPlace]
    exact keeps_seq (run _ (by simp) (by simp)) (keeps_seq keeps_needChecksum (run _ (by simp) (by simp)))
  · by_cases hd : i = .decompress
    · subst hd
      show opDecompress.Keeps P P P
      rw [opDecompress_eq_inPlace]
      exact run _ (by simp) (by simp)
    · exact h i hc hd

/-! ### FLIST's items -/

/-- FLIST's items stand over the Leaves in order (rule R146 (b)). -/
theorem items_n (w : Byte → Word64) (syms : List Byte) :
    (syms.zipIdx.map fun p => (⟨w p.1, BitVec.ofNat 9 p.2⟩ : WorkItem)).map WorkItem.n =
      (List.range syms.length).map (BitVec.ofNat 9) := by
  rw [List.map_map, List.range_eq_range', ← List.zipIdx_map_snd, List.map_map]; rfl

/-- Their weights are the symbols' counts (rule R146 (b)). -/
theorem items_w (w : Byte → Word64) (syms : List Byte) :
    (syms.zipIdx.map fun p => (⟨w p.1, BitVec.ofNat 9 p.2⟩ : WorkItem)).map WorkItem.w = syms.map w := by
  conv_rhs => rw [← List.zipIdx_map_fst 0 syms, List.map_map]
  rw [List.map_map]; rfl

theorem weights_eq (wl : List WorkItem) : (wl.map fun x => x.w.toNat) = (wl.map WorkItem.w).map BitVec.toNat := by simp

/-! ### The tree -/

theorem TreeWf.congr {s t : State} (h : TreeWf s) (hn : t.node = s.node) (hw : t.wl = s.wl) (hr : t.root = s.root)
    (hv : t.treeValid = s.treeValid) : TreeWf t where
  nodes := by rw [hn]; exact h.nodes
  items := by rw [hw]; exact h.items
  tree := by rw [State.tree, hn, hr, hv]; exact h.tree
  once := by rw [hn, hr, hv]; exact h.once
  root := by rw [hr, hv]; exact h.root
  waiting := by rw [hn, hw, hv]; exact h.waiting

/-- With no tree and nothing waiting, only the arena's bound is left to ask. -/
theorem treeWf_of_dropped {s : State} (hn : s.node.length ≤ Config.nodeMax) (hw : s.wl = [])
    (hv : s.treeValid = false) (hr : s.root = 0) : TreeWf s where
  nodes := hn
  items := by rw [hw]; exact Nat.zero_le _
  tree h := by rw [hv] at h; contradiction
  once h := by rw [hv] at h; contradiction
  root _ := hr
  waiting h := absurd hw h

/-- A tree that the arena spans from `ROOT`, no node twice. -/
theorem treeWf_of_spans {s : State} {t : Tree} {vs : List Nat} (h : Spans s.node s.root.toNat t vs) (hn : vs.Nodup)
    (hl : s.node.length ≤ Config.nodeMax) (hw : s.wl = []) (hv : s.treeValid = true) : TreeWf s where
  nodes := hl
  items := by rw [hw]; exact Nat.zero_le _
  tree _ := ⟨t, (h.tree hn).1⟩
  once _ := by rw [(h.tree hn).2]; exact hn
  root h := by rw [hv] at h; contradiction
  waiting h := absurd hw h

theorem Op.Writes.keepsTree {x : Op α} {e : State → State} (h : x.Writes e) (he : ∀ s, (e s).node = s.node ∧
    (e s).wl = s.wl ∧ (e s).root = s.root ∧ (e s).treeValid = s.treeValid) : x.Keeps TreeWf TreeWf TreeWf := by
  refine h.keeps_frame fun s t hst hs => ?_
  obtain ⟨hn, hw, hr, hv⟩ := he t
  obtain ⟨hn', hw', hr', hv'⟩ := he s
  exact hs.congr (by rw [← hn, hst, hn']) (by rw [← hw, hst, hw']) (by rw [← hr, hst, hr']) (by rw [← hv, hst, hv'])

theorem opFlist_keepsTree : opFlist.Keeps TreeWf TreeWf TreeWf := by
  intro s _
  obtain ⟨syms, t, -, hsorted, hrun, -, ht⟩ := opFlist_run s
  have hnodup := nodup_of_lighter hsorted
  have hle := card_le_of_nodup hnodup
  rw [hrun, ht]
  exact
    { nodes := by simp [Config.nodeMax]; omega
      items := by simpa [Config.wlMax] using hle
      tree := nofun
      once := nofun
      root := fun _ => rfl
      waiting := fun _ => ⟨rfl, syms, hnodup, rfl, items_n s.cnt.get syms⟩ }

theorem opBuildTree_keepsTree : opBuildTree.Keeps TreeWf TreeWf TreeWf := by
  intro s hs
  by_cases h0 : s.wl = []
  · rw [opBuildTree_empty h0]; exact hs
  · obtain ⟨-, syms, hnodup, hnode, hn⟩ := hs.waiting h0
    have hle := card_le_of_nodup hnodup
    obtain ⟨t, tr, vs, more, hrun, ht, hgrew, hmore, hspans, honce, -⟩ := opBuildTree_run hnode hn h0 hle
    rw [hrun]
    refine treeWf_of_spans hspans honce ?_ (by rw [ht]) (by rw [ht])
    rw [hgrew, hnode, List.length_append, List.length_map, Config.nodeMax]
    omega

/-! ### RD_TREE, whatever the stores hold -/

theorem getTree_writes (n : Nat) : (getTree n).Writes fun s => { eraseIn s with node := [] } := fun _ =>
  keeps_getTree (fun _ _ _ _ h => h) (fun _ _ h => h) n

theorem readByte_writes : readByte.Writes eraseIn := fun s => keeps_readByte (readBit_writes s)

/-- The arena holds at most `n` nodes. -/
def Bounded (n : Nat) (s : State) : Prop := s.node.length ≤ n

theorem Op.Writes.keepsBounded {x : Op α} (h : x.Writes eraseIn) (n : Nat) :
    x.Keeps (Bounded n) (Bounded n) (Bounded n) :=
  h.keeps_frame fun s t hst hs => by
    have hn : t.node = s.node := by simpa [eraseIn] using congrArg State.node hst
    rw [Bounded, hn]; exact hs

/-- `get` never takes the arena past its bound: it makes room before each node (rules R200 and R204). -/
theorem getTree_bounded (n : Nat) : (getTree n).Keeps (Bounded 511) (Bounded 511) (Bounded 511) := by
  have room : needRoom.Keeps (Bounded 511) (Bounded 510) (Bounded 511) := fun s hs => by
    by_cases hn : s.node.length = 511
    · rw [show needRoom s = .raised .treeOvf s from if_pos hn]; exact hs
    · have hlt : s.node.length ≤ 510 := by rw [Bounded] at hs; omega
      rw [needRoom_ok (by omega)]; exact hlt
  have new : ∀ x, (newNode x).Keeps (Bounded 510) (Bounded 511) (Bounded 511) := fun x s hs => by
    rw [newNode_run]
    show (s.node ++ [x]).length ≤ 511
    rw [Bounded] at hs
    simp; omega
  have fill : ∀ i l r, (fillNode i l r).Keeps (Bounded 511) (Bounded 511) (Bounded 511) := fun i l r s hs => by
    show (s.node.set _ _).length ≤ 511
    rw [List.length_set]; exact hs
  induction n with
  | zero => exact keeps_seq (readBit_writes.keepsBounded 511) (keeps_raise fun _ hs => hs)
  | succ n ih =>
    refine keeps_bind (readBit_writes.keepsBounded 511) fun m => keeps_seq room ?_
    cases m with
    | false =>
      refine keeps_bind (Q := Bounded 510) (keeps_mono (readByte_writes.keepsBounded 510) (fun _ h => h)
        (fun _ h => h) fun _ h => Nat.le_succ_of_le h) fun x => new _
    | true =>
      exact keeps_bind (new _) fun i => keeps_bind ih fun l => keeps_bind ih fun r =>
        keeps_seq (fill i l r) (keeps_pure i)

theorem node_of_writes {x : Op α} (hx : x.Writes eraseIn) {s t : State} {a : α} (h : x s = .done a t) :
    t.node = s.node := by simpa [eraseIn] using congrArg State.node (hx.done h)

/-- Where `get` completes, the arena has grown by a tree in pre-order, numbered from where it began (rule R201). -/
theorem getTree_grows (n : Nat) {s t : State} {i : NodeIx} (hs : Bounded 511 s) (hd : getTree n s = .done i t) :
    i = BitVec.ofNat 9 s.node.length ∧ ∃ tr : Tree, t.node = s.node ++ tr.preorder s.node.length := by
  induction n generalizing s t i with
  | zero =>
    obtain ⟨_, _, _, h⟩ := seq_eq_done hd
    cases h
  | succ n ih =>
    rw [getTree_succ] at hd
    obtain ⟨m, a, hbit, h1⟩ := bind_eq_done hd
    have ha : a.node = s.node := node_of_writes readBit_writes hbit
    obtain ⟨_, a', hroom, h2⟩ := seq_eq_done h1
    obtain ⟨rfl, hlt⟩ := needRoom_done hroom (by rw [ha]; exact hs)
    rw [ha] at hlt
    cases m with
    | false =>
      obtain ⟨x, c, hbyte, h3⟩ := bind_eq_done h2
      have hc : c.node = s.node := (node_of_writes readByte_writes hbyte).trans ha
      rw [newNode_run] at h3
      cases h3
      exact ⟨by rw [hc], .leaf x, by simp [Tree.preorder, hc]⟩
    | true =>
      rw [if_pos rfl, bind_done (newNode_run _ _), ha] at h2
      obtain ⟨b, hb, hbnode⟩ : ∃ b : State, b = { a' with node := s.node ++ [Node.branch 0 0] } ∧
        b.node = s.node ++ [Node.branch 0 0] := ⟨_, rfl, rfl⟩
      rw [← hb] at h2
      have hblen : b.node.length = s.node.length + 1 := by simp [hbnode]
      have hbound : Bounded 511 b := by rw [Bounded, hblen]; exact hlt
      obtain ⟨il, u, hl, h3⟩ := bind_eq_done h2
      obtain ⟨rfl, l, hu⟩ := ih hbound hl
      obtain ⟨ir, v, hr, h4⟩ := bind_eq_done h3
      obtain ⟨rfl, r, hv⟩ := ih ((getTree_bounded n).done hbound hl) hr
      cases h4
      have hulen : u.node.length = s.node.length + 1 + (l.preorder (s.node.length + 1)).length := by
        rw [hu, List.length_append, hblen]
      have hidx : (BitVec.ofNat 9 s.node.length).toNat = s.node.length := by
        rw [BitVec.toNat_ofNat, Nat.mod_eq_of_lt (by omega)]
      have hvnode : v.node = s.node ++ (.branch 0 0 :: (l.preorder (s.node.length + 1) ++
          r.preorder u.node.length)) := by rw [hv, hu, hblen, hbnode]; simp
      refine ⟨rfl, .branch l r, ?_⟩
      simp only [Tree.preorder, hidx, hvnode, ← hulen, hblen]
      rw [List.set_append_right _ _ (le_refl _), Nat.sub_self, List.set_cons_zero]

/-- The arena of a tree in pre-order from node 0 reads as that tree from node 0. -/
theorem spans_preorder_zero (t : Tree) (h : (t.preorder 0).length ≤ 511) :
    Spans (t.preorder 0) 0 t (List.range' 0 (t.preorder 0).length) := by
  simpa using spans_preorder t [] [] (by simp; omega)

theorem opRdTree_keepsTree : opRdTree.Keeps TreeWf TreeWf TreeWf := by
  refine keeps_seq (keeps_needDir_same _ fun _ h => h) <| keeps_seq (Q := fun s => s.node = [] ∧ s.wl = [] ∧
    s.treeValid = false ∧ s.root = 0) (keeps_modify fun s _ => ⟨rfl, rfl, rfl, rfl⟩) ?_
  intro s ⟨hnode, hwl, hvalid, hroot⟩
  have hbound : Bounded 511 s := by rw [Bounded, hnode]; exact Nat.zero_le _
  have hwrites := getTree_writes Config.nodeMax s s rfl
  have hkept := getTree_bounded Config.nodeMax s hbound
  cases hget : getTree Config.nodeMax s with
  | stuck r => simp only [Op.seq, Op.bind, hget]
  | raised c t =>
    rw [hget] at hwrites hkept
    rw [seq_raised hget]
    have hframe : t.wl = s.wl ∧ t.treeValid = s.treeValid ∧ t.root = s.root := by
      simpa [eraseIn] using And.intro (congrArg State.wl hwrites)
        (And.intro (congrArg State.treeValid hwrites) (congrArg State.root hwrites))
    obtain ⟨hw, hv, hr⟩ := hframe
    exact treeWf_of_dropped hkept (hw.trans hwl) (hv.trans hvalid) (hr.trans hroot)
  | done i t =>
    rw [hget] at hwrites hkept
    rw [seq_done hget, modify_run]
    obtain ⟨-, tr, ht⟩ := getTree_grows _ hbound hget
    have hw : t.wl = s.wl := by simpa [eraseIn] using congrArg State.wl hwrites
    rw [hnode, List.nil_append, List.length_nil] at ht
    have hlen : (tr.preorder 0).length ≤ 511 := by rw [← ht]; exact hkept
    have hspans := spans_preorder_zero tr hlen
    rw [← ht] at hspans
    exact treeWf_of_spans (s := t.setTree true 0) hspans List.nodup_range' hkept (hw.trans hwl) rfl

theorem bodyOf_keepsTree (i : Instr) : (bodyOf i).Keeps TreeWf TreeWf TreeWf := by
  refine keeps_bodyOf (fun i hc hd => ?_) i
  cases i with
  | compress | decompress => contradiction
  | flist => exact opFlist_keepsTree
  | buildTree => exact opBuildTree_keepsTree
  | rdTree => exact opRdTree_keepsTree
  | _ => exact (bodyOf_writes _).keepsTree (eraseOf_tree (by simp))

theorem exec_keepsTree {i : Instr} {s t : State} (hs : TreeWf s) (h : exec i s = .next t) : TreeWf t :=
  exec_of_keeps (bodyOf_keepsTree i) (fun _ hv => hv.congr rfl rfl rfl rfl) (fun _ _ hv => hv.congr rfl rfl rfl rfl)
    hs h

/-- Settles O19. -/
theorem stepKeepsTree : Obligations.StepKeepsTree := by
  unfold Obligations.StepKeepsTree
  exact fun s t hs h => step_keeps (fun _ => hs.congr rfl rfl rfl rfl) (fun _ he => exec_keepsTree hs he) h

/-! ### The counts and the weights -/

theorem CountsWf.congr {s t : State} (h : CountsWf s) (hc : t.cnt = s.cnt) (hw : t.wl = s.wl)
    (hd : t.distinct = s.distinct) : CountsWf t where
  counts := by rw [hc]; exact h.counts
  weights := by rw [hw]; exact h.weights
  sorted := by rw [hw]; exact h.sorted
  positive := by rw [hw]; exact h.positive
  distinct := by rw [hd]; exact h.distinct

/-- With nothing in the list. -/
theorem countsWf_of_empty {s : State} (hc : (s.cnt.entries.map BitVec.toNat).sum < 2 ^ 64) (hw : s.wl = [])
    (hd : s.distinct.toNat ≤ 256) : CountsWf s where
  counts := hc
  weights := by rw [hw]; exact Nat.two_pow_pos 64
  sorted := by rw [hw]; exact List.Pairwise.nil
  positive := by rw [hw]; exact nofun
  distinct := hd

theorem Op.Writes.keepsCounts {x : Op α} {e : State → State} (h : x.Writes e) (he : ∀ s, (e s).cnt = s.cnt ∧
    (e s).wl = s.wl ∧ (e s).distinct = s.distinct) : x.Keeps CountsWf CountsWf CountsWf := by
  refine h.keeps_frame fun s t hst hs => ?_
  obtain ⟨hc, hw, hd⟩ := he t
  obtain ⟨hc', hw', hd'⟩ := he s
  exact hs.congr (by rw [← hc, hst, hc']) (by rw [← hw, hst, hw']) (by rw [← hd, hst, hd'])

/-- CNT_DISTINCT's number is one of distinct bytes (rule R140). -/
theorem opCntDistinct_keepsCounts :
    opCntDistinct.Keeps (fun s => StoresWf s ∧ CountsWf s) CountsWf CountsWf := by
  intro s ⟨hs, hc⟩
  have hle := card_le_of_nodup s.rest.nodup_dedup
  rw [opCntDistinct_run hs]
  refine ⟨hc.counts, hc.weights, hc.sorted, hc.positive, ?_⟩
  show (BitVec.ofNat 9 s.rest.dedup.length).toNat ≤ 256
  rw [BitVec.toNat_ofNat]
  omega

/-- HIST's counts add up to the number of bytes scanned (rule R148). -/
theorem opHist_keepsCounts : opHist.Keeps (fun s => StoresWf s ∧ CountsWf s) CountsWf CountsWf := by
  intro s ⟨hs, hc⟩
  have hzero : ((Table.fill (0 : Word64)).entries.map BitVec.toNat).sum = 0 := Table.sum_zero (Table.get_fill 0)
  have hrest : s.rest.length < 2 ^ 64 := by
    have hsrc := hs.srcLen
    rw [State.rest, List.length_drop, length_bytes]
    omega
  rw [opHist_run hs]
  refine ⟨?_, hc.weights, hc.sorted, hc.positive, hc.distinct⟩
  show ((countUp (Table.fill 0) s.rest).entries.map BitVec.toNat).sum < 2 ^ 64
  rw [sum_countUp _ _ (by omega), hzero]
  omega

/-- FLIST hands the counts over to the list: sorted, none of them 0, with the same sum (rules R147 and R148). -/
theorem opFlist_keepsCounts : opFlist.Keeps CountsWf CountsWf CountsWf := by
  intro s hs
  obtain ⟨syms, t, hmem, hsorted, hrun, hzero, ht⟩ := opFlist_run s
  have hw := items_w s.cnt.get syms
  have hwl : t.wl = syms.zipIdx.map fun p => ⟨s.cnt.get p.1, BitVec.ofNat 9 p.2⟩ := by rw [ht]
  rw [← hwl] at hw
  rw [hrun]
  refine ⟨?counts, ?weights, ?sorted, ?positive, ?distinct⟩
  case counts => rw [Table.sum_zero hzero]; exact Nat.two_pow_pos 64
  case weights =>
    rw [weights_eq, hw, List.map_map]
    exact lt_of_eq_of_lt (sum_weights hmem (nodup_of_lighter hsorted)) hs.counts
  case sorted =>
    have hle : (t.wl.map WorkItem.w).Pairwise (· ≤ ·) := by
      rw [hw, List.pairwise_map]
      refine hsorted.imp fun {x y} hxy => ?_
      rcases hxy with hlt | ⟨heq, _⟩
      · exact BitVec.le_of_lt hlt
      · rw [heq]; exact BitVec.le_refl _
    exact List.pairwise_map.1 hle
  case positive =>
    intro x hx
    have hxw : x.w ∈ t.wl.map WorkItem.w := List.mem_map_of_mem hx
    rw [hw] at hxw
    obtain ⟨y, hy, hyx⟩ := List.mem_map.1 hxw
    rw [← hyx]
    exact (hmem y).1 hy
  case distinct => rw [ht]; exact hs.distinct

/-- The merging loop writes the arena and the list alone. -/
theorem mergeLoop_writes (n : Nat) : (mergeLoop n).Writes fun s => { s with wl := [], node := [] } := fun _ =>
  keeps_mergeLoop (fun _ _ _ h => h) n

/-- BUILD_TREE leaves an empty list, or an error at an empty one. -/
theorem opBuildTree_keepsCounts : opBuildTree.Keeps CountsWf CountsWf CountsWf := by
  intro s hs
  by_cases h0 : s.wl = []
  · rw [opBuildTree_empty h0]; exact hs
  · have hne : s.wlLen ≠ 0 := fun h => h0 (List.length_eq_zero_iff.1 h)
    have hloop := mergeLoop_writes s.wlLen s s rfl
    rw [show opBuildTree s = ((mergeLoop s.wlLen).seq takeRoot) s from if_neg hne]
    cases hm : mergeLoop s.wlLen s with
    | stuck r => simp only [Op.seq, Op.bind, hm]
    | raised c t => exact absurd (raises_mergeLoop (P := Any) (C := []) _ s c t trivial hm) List.not_mem_nil
    | done u t =>
      rw [hm] at hloop
      rw [seq_done hm]
      have hcnt : t.cnt = s.cnt := by simpa using congrArg State.cnt hloop
      have hdistinct : t.distinct = s.distinct := by simpa using congrArg State.distinct hloop
      cases hw : t.wl with
      | nil =>
        rw [show takeRoot t = .raised .empty t by rw [takeRoot, hw]]
        exact countsWf_of_empty (by rw [hcnt]; exact hs.counts) hw (by rw [hdistinct]; exact hs.distinct)
      | cons x rest =>
        rw [show takeRoot t = .done () (({ t with wl := [], checksum := x.w } : State).setTree true x.n) by
          rw [takeRoot, hw]]
        exact countsWf_of_empty (s := ({ t with wl := [], checksum := x.w } : State).setTree true x.n)
          (by rw [setTree_cnt, hcnt]; exact hs.counts) rfl (by rw [setTree_distinct, hdistinct]; exact hs.distinct)

theorem opRdTree_keepsCounts : opRdTree.Keeps CountsWf CountsWf CountsWf :=
  keeps_seq (keeps_needDir_same _ fun _ h => h) <|
    keeps_seq (keeps_modify fun _ h => countsWf_of_empty h.counts rfl h.distinct) <|
      keeps_seq ((getTree_writes _).keepsCounts fun _ => ⟨rfl, rfl, rfl⟩) <|
        keeps_modify fun _ h => h.congr rfl rfl rfl

theorem bodyOf_keepsCounts (i : Instr) : (bodyOf i).Keeps (fun s => StoresWf s ∧ CountsWf s)
    (fun s => StoresWf s ∧ CountsWf s) fun s => StoresWf s ∧ CountsWf s := by
  refine keeps_bodyOf (fun i hc hd => keeps_and (storesWf_stable.bodyOf i) ?_) i
  have alone : ∀ {x : Op Unit}, x.Keeps CountsWf CountsWf CountsWf →
      x.Keeps (fun s => StoresWf s ∧ CountsWf s) CountsWf CountsWf := fun h =>
    keeps_mono h (fun _ h => h.2) (fun _ h => h) fun _ h => h
  cases i with
  | compress | decompress => contradiction
  | cntDistinct => exact opCntDistinct_keepsCounts
  | hist => exact opHist_keepsCounts
  | flist => exact alone opFlist_keepsCounts
  | buildTree => exact alone opBuildTree_keepsCounts
  | rdTree => exact alone opRdTree_keepsCounts
  | _ => exact alone ((bodyOf_writes _).keepsCounts fun _ => ⟨rfl, rfl, rfl⟩)

theorem exec_keepsCounts {i : Instr} {s t : State} (hs : StoresWf s) (hc : CountsWf s) (h : exec i s = .next t) :
    CountsWf t :=
  exec_of_keeps (bodyOf_keepsCounts i) (fun _ hv => hv.2.congr rfl rfl rfl) (fun _ _ hv => hv.2.congr rfl rfl rfl)
    ⟨hs, hc⟩ h

/-- Settles O20. -/
theorem stepKeepsCounts : Obligations.StepKeepsCounts := by
  unfold Obligations.StepKeepsCounts
  exact fun s t hs hc h => step_keeps (fun _ => hc.congr rfl rfl rfl) (fun _ he => exec_keepsCounts hs hc he) h

end Sys2Proof.Machine

/-! ## The code table, the fault cause and `pc` -/

namespace Sys2Proof.Machine

variable {α : Type} {P : State → Prop}

/-- The bits of a path are no more than its steps (rule R38). -/
theorem pathBits_lt (p : List Bool) : (pathBits p).toNat < 2 ^ p.length := by
  refine Nat.lt_pow_two_of_testBit _ fun i hi => ?_
  rw [BitVec.testBit_toNat]
  by_cases h30 : i < 30
  · rw [← pathFrom_zero, pathFrom_getLsbD _ _ _ h30, if_neg (by omega)]
    exact BitVec.getLsbD_zero
  · exact BitVec.getLsbD_of_ge _ _ (by omega)

/-- A code table entry as rules R37 and R38 want it. -/
def CodeEntry.Wf (e : CodeEntry) : Prop :=
  (e.valid = false → e = CodeEntry.none) ∧
    (e.valid = true → e.len.toNat ≤ Config.codeMax ∧ e.bits.toNat < 2 ^ e.len.toNat)

theorem codesWf_iff (s : State) : CodesWf s ↔ ∀ x, (s.code.get x).Wf := Iff.rfl

theorem wf_none : CodeEntry.none.Wf := ⟨fun _ => rfl, nofun⟩

/-- The code that a tree gives a symbol. -/
theorem wf_codeEntry (t : Tree) (x : Byte) : (t.codeEntry x).Wf := by
  rw [Tree.codeEntry]
  cases hlast : (t.leaves.filter fun p => p.2 = x ∧ p.1.length ≤ Config.codeMax).getLast? with
  | none => exact wf_none
  | some p =>
    have hp := (List.mem_filter.1 (List.mem_of_getLast? hlast)).2
    have hle : p.1.length ≤ 30 := (of_decide_eq_true hp).2
    have hlen : (BitVec.ofNat 5 p.1.length).toNat = p.1.length := by
      rw [BitVec.toNat_ofNat, Nat.mod_eq_of_lt (by omega)]
    refine ⟨nofun, fun _ => ?_⟩
    rw [hlen]
    exact ⟨hle, pathBits_lt p.1⟩

theorem CodesWf.congr {s t : State} (h : CodesWf s) (hc : t.code = s.code) : CodesWf t := by
  rw [CodesWf, hc]; exact h

/-- Where `need_tree()` completes there is a tree to walk (rules R36 and R107). -/
theorem needTree_done {s t : State} {tr : Tree} (h : needTree s = .done tr t) :
    t = s ∧ s.treeValid = true ∧ s.tree = some tr := by
  cases hv : s.treeValid with
  | false => rw [needTree_bad hv] at h; cases h
  | true =>
    cases ht : s.tree with
    | some tr' => rw [needTree_ok hv ht] at h; cases h; exact ⟨rfl, rfl, rfl⟩
    | none => simp [needTree, hv, ht] at h

theorem needTree_writes : needTree.Writes id := fun _ => keeps_needTree_same fun _ h => h

/-- GEN_CODES leaves a tree's codes; where there is no tree, the table as it was. -/
theorem opGenCodes_keepsCodes : opGenCodes.Keeps CodesWf CodesWf CodesWf := by
  intro s hs
  cases hn : needTree s with
  | stuck r => simp only [opGenCodes, Op.bind, hn]
  | raised c t =>
    rw [show opGenCodes s = .raised c t from bind_raised hn]
    exact hs.congr (congrArg State.code (needTree_writes.raised hn))
  | done tr t =>
    obtain ⟨rfl, hv, ht⟩ := needTree_done hn
    obtain ⟨u, hrun, -, hcode, -⟩ := opGenCodes_run hv ht
    rw [hrun]
    exact (codesWf_iff u).2 fun x => by rw [hcode]; exact wf_codeEntry tr x

theorem Op.Writes.keepsCodes {x : Op α} {e : State → State} (h : x.Writes e) (he : ∀ s, (e s).code = s.code) :
    x.Keeps CodesWf CodesWf CodesWf :=
  h.keeps_frame fun s t hst hs => hs.congr (by rw [← he t, hst, he s])

theorem bodyOf_keepsCodes (i : Instr) : (bodyOf i).Keeps CodesWf CodesWf CodesWf := by
  refine keeps_bodyOf (fun i hc hd => ?_) i
  cases i with
  | compress | decompress => contradiction
  | genCodes => exact opGenCodes_keepsCodes
  | _ => exact (bodyOf_writes _).keepsCodes fun _ => rfl

theorem exec_keepsCodes {i : Instr} {s t : State} (hs : CodesWf s) (h : exec i s = .next t) : CodesWf t :=
  exec_of_keeps (bodyOf_keepsCodes i) (fun _ hv => hv.congr rfl) (fun _ _ hv => hv.congr rfl) hs h

theorem code_range (c : Cause) : c.code ≠ 0 ∧ c.code.toNat ≤ 10 := by cases c <;> decide

theorem FaultWf.takeFault (s : State) (c : Cause) : FaultWf (s.takeFault c) :=
  ⟨⟨nofun, fun h => absurd h (code_range c).1⟩, (code_range c).2⟩

theorem FaultWf.congr {s t : State} (h : FaultWf s) (hf : t.fault = s.fault) (hc : t.cause = s.cause) :
    FaultWf t := by rw [FaultWf, hf, hc]; exact h

theorem exec_keepsFault {i : Instr} {s t : State} (hs : FaultWf s) (h : exec i s = .next t) : FaultWf t := by
  rcases exec_end h with ⟨_, hf, hc⟩ | ⟨_, hf, c, _, hc⟩
  · exact hs.congr hf hc
  · exact (FaultWf.takeFault s c).congr hf hc

/-- The word that a step takes stands inside the command stream. -/
theorem pc_lt_of_step {s t : State} (h : step s = .next t) : s.pc < s.prog.length := by
  obtain ⟨-, w, hw, -⟩ := step_next h
  exact (List.getElem?_eq_some_iff.1 hw).1

theorem step_pc {s t : State} (h : step s = .next t) :
    (t.fault = false ∧ t.pc = s.pc + 1) ∨ (t.fault = true ∧ t.pc = s.pc) := pcAdvancesUnlessFaulted s t h

theorem step_keepsPc {s t : State} (h : step s = .next t) : PcWf t := by
  have hlt := pc_lt_of_step h
  obtain ⟨-, hprog, -⟩ := step_frame h
  rw [PcWf, hprog]
  rcases step_pc h with ⟨_, hpc⟩ | ⟨_, hpc⟩
  · omega
  · omega

/-! ## Every reachable state is legal (70_reset_and_hazards.md rule R288) -/

/-- Reset, under any `SNK_CAP`, meets every invariant. -/
theorem legal_reset (cap : Option Word64) : Legal { State.reset with snkCap := cap } where
  stores := ⟨full_nil, full_nil, Nat.two_pow_pos 64, Nat.zero_le _, fun _ _ => Nat.zero_le _⟩
  channel := ⟨rfl, rfl⟩
  faults := ⟨⟨fun _ => rfl, fun _ => rfl⟩, Nat.zero_le _⟩
  tree := treeWf_of_dropped (Nat.zero_le _) rfl rfl rfl
  codes := (codesWf_iff _).2 fun x => by rw [show State.code _ = State.reset.code from rfl, reset_code_get]; exact wf_none
  counts := countsWf_of_empty (lt_of_eq_of_lt (Table.sum_zero reset_cnt_get) (Nat.two_pow_pos 64)) rfl (Nat.zero_le _)
  pc := Nat.zero_le _

/-- Settles O16. -/
theorem resetIsLegal : Obligations.ResetIsLegal := by
  unfold Obligations.ResetIsLegal
  exact legal_reset none

theorem legal_step {s t : State} (hs : Legal s) (h : step s = .next t) : Legal t where
  stores := stepKeepsStores s t hs.stores h
  channel := stepKeepsChannel s t hs.channel h
  faults := step_keeps (fun c => FaultWf.takeFault s c) (fun _ he => exec_keepsFault hs.faults he) h
  tree := stepKeepsTree s t hs.tree h
  codes := step_keeps (fun _ => hs.codes.congr rfl) (fun _ he => exec_keepsCodes hs.codes he) h
  counts := stepKeepsCounts s t hs.stores hs.counts h
  pc := step_keepsPc h

theorem legal_loadSrc {s t : State} {bs : List Byte} (hs : Legal s) (h : s.hLoadSrc bs = some t) : Legal t := by
  rw [State.hLoadSrc] at h
  split_ifs at h with hlen
  cases h
  exact
    { stores := ⟨full_ofBytes bs, hs.stores.snk, by rwa [length_ofBytes], Nat.zero_le _, hs.stores.snkLen⟩
      channel := hs.channel.congr rfl rfl rfl id
      faults := hs.faults.congr rfl rfl
      tree := hs.tree.congr rfl rfl rfl rfl
      codes := hs.codes.congr rfl
      counts := hs.counts.congr rfl rfl rfl
      pc := hs.pc }

theorem legal_clearSnk {s : State} (hs : Legal s) : Legal s.hClearSnk where
  stores := ⟨hs.stores.src, full_nil, hs.stores.srcLen, hs.stores.srcPos, fun _ _ => Nat.zero_le _⟩
  channel := hs.channel.congr rfl rfl rfl id
  faults := hs.faults.congr rfl rfl
  tree := hs.tree.congr rfl rfl rfl rfl
  codes := hs.codes.congr rfl
  counts := hs.counts.congr rfl rfl rfl
  pc := hs.pc

theorem legal_issue {s : State} (hs : Legal s) (w : CmdWord) : Legal (s.hIssue w) where
  stores := hs.stores.congr rfl rfl rfl rfl
  channel := hs.channel.congr rfl rfl rfl id
  faults := hs.faults.congr rfl rfl
  tree := hs.tree.congr rfl rfl rfl rfl
  codes := hs.codes.congr rfl
  counts := hs.counts.congr rfl rfl rfl
  pc := le_trans hs.pc (by simp)

theorem legal_hostMove {s t : State} (hs : Legal s) (h : HostMove s t) : Legal t := by
  cases h with
  | loadSrc _ bs _ h => exact legal_loadSrc hs h
  | clearSnk => exact legal_clearSnk hs
  | issue w => exact legal_issue hs w
  | reset => exact legal_reset s.snkCap

/-- At most one word waits in a run that is not faulted (rule R74). -/
def OneWaits (s : State) : Prop := s.fault = false → s.prog.length ≤ s.pc + 1

/-- The host moves only where no word waits, and issues at most one. -/
theorem oneWaits_hostMove {s t : State} (h : HostMove s t) : OneWaits t := by
  intro hf
  have hidle : s.fault = false → s.prog.length = s.pc := fun hs => by
    rcases (idle_iff s).1 h.idle with h | h
    · rw [hs] at h; contradiction
    · exact h.symm
  cases h with
  | loadSrc _ bs _ h =>
    rw [State.hLoadSrc] at h
    split_ifs at h
    cases h
    have hlen := hidle hf
    show s.prog.length ≤ s.pc + 1
    omega
  | clearSnk =>
    have hlen := hidle hf
    rw [hClearSnk_prog, hClearSnk_pc]
    omega
  | issue w =>
    have hlen := hidle hf
    rw [hIssue_prog, hIssue_pc, List.length_append, hlen]
    simp
  | reset => exact Nat.zero_le _

/-- A step that completes takes the word that waits. -/
theorem oneWaits_step {s t : State} (hs : OneWaits s) (h : step s = .next t) : OneWaits t := by
  intro hf
  have hw := hs (step_next h).1
  obtain ⟨-, hprog, -⟩ := step_frame h
  rcases step_pc h with ⟨_, hpc⟩ | ⟨hft, _⟩
  · rw [hprog, hpc]; omega
  · rw [hf] at hft; contradiction

theorem reachable_legal {s : State} (h : Reachable s) : Legal s ∧ OneWaits s := by
  induction h with
  | reset cap => exact ⟨legal_reset cap, fun _ => Nat.zero_le _⟩
  | host s t _ hm ih => exact ⟨legal_hostMove ih.1 hm, oneWaits_hostMove hm⟩
  | step s t _ hst ih => exact ⟨legal_step ih.1 hst, oneWaits_step ih.2 hst⟩

/-- Settles O21: `Legal` and `OneWaits` hold at reset and are kept by every host move and step; where a word
waits the state is not idle, and every host move starts from an idle one. -/
theorem reachableStatesAreLegal : Obligations.ReachableStatesAreLegal := by
  unfold Obligations.ReachableStatesAreLegal
  intro s hs
  obtain ⟨hlegal, hone⟩ := reachable_legal hs
  refine ⟨hlegal, hone, fun hf hlt => ⟨by have := hone hf; omega, fun t hm => ?_⟩⟩
  rcases (idle_iff s).1 hm.idle with h | h
  · rw [hf] at h; contradiction
  · omega

/-! ## No command is stuck (rules R8 and R103) -/

/-- From a state with `P` the body goes only where the rules give it a step. -/
def Op.Runs (P : State → Prop) (x : Op α) : Prop := ∀ s r, P s → x s ≠ .stuck r

variable {β : Type} {Q E : State → Prop}

theorem runs_bind {x : Op α} {f : α → Op β} (hx : x.Runs P) (hk : x.Keeps P Q E) (hf : ∀ a, (f a).Runs Q) :
    (x.bind f).Runs P := by
  intro s r hs h
  cases hxs : x s with
  | done a t => rw [bind_done hxs] at h; exact hf a t r (hk.done hs hxs) h
  | raised c t => rw [bind_raised hxs] at h; cases h
  | stuck r' => exact hx s r' hs hxs

theorem runs_seq {x : Op α} {y : Op β} (hx : x.Runs P) (hk : x.Keeps P Q E) (hy : y.Runs Q) : (x.seq y).Runs P :=
  runs_bind hx hk fun _ => hy

theorem Op.Runs.mono {x : Op α} (h : x.Runs Q) (hP : ∀ s, P s → Q s) : x.Runs P := fun s r hs => h s r (hP s hs)

theorem runs_of_done {x : Op α} (h : ∀ s, P s → ∃ a t, x s = .done a t) : x.Runs P := fun s r hs hx => by
  obtain ⟨a, t, hd⟩ := h s hs
  rw [hd] at hx; cases hx

theorem runs_pure (a : α) : (Op.pure a).Runs P := runs_of_done fun _ _ => ⟨_, _, rfl⟩
theorem runs_skip : Op.skip.Runs P := runs_pure ()
theorem runs_modify (f : State → State) : (Op.modify f).Runs P := runs_of_done fun _ _ => ⟨_, _, rfl⟩
theorem runs_get (f : State → α) : (Op.get f).Runs P := runs_of_done fun _ _ => ⟨_, _, rfl⟩
theorem runs_raise (c : Cause) : (raise c : Op α).Runs P := fun _ _ _ h => by cases h

theorem runs_needDir (d : Dir) : (needDir d).Runs P := by
  intro s r _ h
  rw [needDir] at h
  split_ifs at h

/-- `need_tree()` is stuck only at a valid tree that is none, which rule R36 rules out. -/
theorem runs_needTree : needTree.Runs TreeWf := by
  intro s r hs h
  cases hv : s.treeValid with
  | false => rw [needTree_bad hv] at h; cases h
  | true =>
    obtain ⟨t, ht⟩ := hs.tree hv
    rw [needTree_ok hv ht] at h; cases h

/-- `read_bit()` is stuck only at a byte of SRC that is none. -/
theorem runs_readBit : readBit.Runs StoresWf := by
  intro s r hs h
  cases hb : s.inBits with
  | nil => rw [readBit_nil hs hb] at h; cases h
  | cons b bits =>
    obtain ⟨t, ht, -⟩ := readBit_cons hs hb
    rw [ht] at h; cases h

theorem runs_readByteLoop (n : Nat) (v : Byte) : (readByteLoop n v).Runs StoresWf := by
  induction n generalizing v with
  | zero => exact runs_pure v
  | succ n ih => exact runs_bind runs_readBit storesWf_stable.readBit fun b => ih _

theorem runs_snkAppend (v : Byte) : (snkAppend v).Runs P := by
  intro s r _ h
  rw [snkAppend] at h
  split_ifs at h

theorem runs_writeBit (b : Bool) : (writeBit b).Runs P := by
  intro s r _ h
  by_cases h7 : s.bcCur = 7
  · cases hf : s.sinkFull with
    | true => rw [writeBit_full b h7 hf] at h; cases h
    | false => rw [writeBit_emit b h7 hf] at h; cases h
  · rw [writeBit_pending b h7] at h; cases h

theorem runs_writeBits (bits : List Bool) : (writeBits bits).Runs Any := by
  induction bits with
  | nil => exact runs_skip
  | cons b bits ih => exact runs_seq (runs_writeBit b) (keeps_any _) ih

theorem runs_flushLoop (n : Nat) : (flushLoop n).Runs Any := by
  induction n with
  | zero => exact runs_skip
  | succ n ih =>
    intro s r hs h
    simp only [flushLoop] at h
    split_ifs at h
    exact runs_seq (runs_writeBit false) (keeps_any _) ih s r hs h

theorem header_short_iff {s : State} (h : StoresWf s) :
    s.srcLen - s.srcPos < 8 ↔ s.src.length < s.srcPos.toNat + 8 := by
  have hlen := srcLen_toNat h.srcLen
  have hpos := h.srcPos
  rw [BitVec.lt_def, BitVec.toNat_sub_of_le (by rw [BitVec.le_def, hlen]; exact hpos), hlen,
    show (8 : Word64).toNat = 8 from rfl]
  omega

/-- RD_SIZE's transfer with fewer than eight bytes left (rule R122). -/
theorem takeHeader_short {s : State} (h : StoresWf s) (hl : s.src.length < s.srcPos.toNat + 8) :
    takeHeader s = .raised .header s := if_pos ((header_short_iff h).2 hl)

/-- RD_SIZE's transfer of the next eight bytes (rule R122). -/
theorem takeHeader_run {s : State} (h : StoresWf s) (hl : s.srcPos.toNat + 8 ≤ s.src.length) :
    takeHeader s = .done () { s with size := sizeOfHeader (s.rest.take 8), srcPos := s.srcPos + 8 } := by
  have hread : memRead s.src s.srcPos.toNat Config.sizeBytes = some (s.rest.take 8) := h.src.memRead _ _ hl
  rw [takeHeader, if_neg (mt (header_short_iff h).1 (by omega)), hread]

theorem runs_takeHeader : takeHeader.Runs StoresWf := by
  intro s r hs h
  by_cases hl : s.src.length < s.srcPos.toNat + 8
  · rw [takeHeader_short hs hl] at h; cases h
  · rw [takeHeader_run hs (by omega)] at h; cases h

/-- The scan of ENCODE over the bytes still to be read. -/
theorem runs_forSrc_encode (bs : List Byte) : (forSrc encodeByte bs.length).Runs fun s => StoresWf s ∧ s.rest = bs := by
  induction bs with
  | nil => exact runs_skip
  | cons b bs ih =>
    intro s r ⟨hs, hr⟩ h
    rw [List.length_cons, forSrc_cons hs hr] at h
    have hnext := hs.next hr
    have runs : (encodeByte b).Runs Any := fun u r' _ hu => by
      cases hv : (u.code.get b).valid with
      | false => rw [encodeByte_bad hv] at hu; cases hu
      | true => rw [encodeByte_ok hv] at hu; exact runs_writeBits _ u r' trivial hu
    have keeps : (encodeByte b).Keeps (fun u => StoresWf u ∧ u.rest = bs) (fun u => StoresWf u ∧ u.rest = bs) Any := by
      refine keeps_mono (keeps_and (keeps_encodeByte storesWf_stable.writeBit b) (keeps_mono
        (keeps_encodeByte (P := fun u => u.rest = bs) (keeps_writeBit fun _ _ _ _ h => h) b) (fun _ h => h.2)
        (fun _ h => h) fun _ h => h)) (fun _ h => h) (fun _ h => h) fun _ _ => trivial
    exact runs_seq (runs.mono fun _ _ => trivial) keeps ih _ r ⟨hnext, rest_next hs hr⟩ h

theorem runs_opEncode : opEncode.Runs StoresWf := by
  refine runs_seq (runs_needDir _) (keeps_needDir_same (E := StoresWf) _ fun _ h => h) fun s r hs h => ?_
  rw [get_bind, remaining_eq hs] at h
  exact runs_forSrc_encode s.rest s r ⟨hs, rfl⟩ h

theorem runs_walkDown (t : Tree) : (walkDown t).Runs StoresWf := by
  induction t with
  | leaf x => exact runs_pure x
  | branch l r ihl ihr =>
    refine runs_bind runs_readBit storesWf_stable.readBit fun d => ?_
    cases d with
    | false => exact ihl
    | true => exact ihr

theorem runs_times {body : Op Unit} (h : body.Runs P) (hk : body.Keeps P P P) (n : Nat) : (times n body).Runs P := by
  induction n with
  | zero => exact runs_skip
  | succ n ih => exact runs_seq h hk ih

theorem runs_needRoom : needRoom.Runs P := by
  intro s r _ h
  rw [needRoom] at h
  split_ifs at h

theorem needRoom_keeps : needRoom.Keeps P P P := by
  intro s hs
  rw [needRoom]
  by_cases hn : s.nodeCnt = Config.nodeMax
  · rw [if_pos hn]; exact hs
  · rw [if_neg hn]; exact hs

theorem newNode_keepsStores (x : Node) : (newNode x).Keeps StoresWf StoresWf StoresWf :=
  fun _ hs => hs.congr rfl rfl rfl rfl

theorem fillNode_keepsStores (i l r : NodeIx) : (fillNode i l r).Keeps StoresWf StoresWf StoresWf :=
  storesWf_stable.other fun _ => ⟨rfl, rfl, rfl, rfl⟩

theorem getTree_keepsStores (n : Nat) : (getTree n).Keeps StoresWf StoresWf StoresWf := by
  induction n with
  | zero => exact keeps_seq storesWf_stable.readBit (keeps_raise fun _ hs => hs)
  | succ n ih =>
    refine keeps_bind storesWf_stable.readBit fun m => keeps_seq needRoom_keeps ?_
    cases m with
    | false => exact keeps_bind (keeps_readByte storesWf_stable.readBit) fun x => newNode_keepsStores _
    | true =>
      exact keeps_bind (newNode_keepsStores _) fun i => keeps_bind ih fun l => keeps_bind ih fun r =>
        keeps_seq (fillNode_keepsStores i l r) (keeps_pure i)

theorem runs_getTree (n : Nat) : (getTree n).Runs StoresWf := by
  induction n with
  | zero => exact runs_seq runs_readBit storesWf_stable.readBit (runs_raise _)
  | succ n ih =>
    have hget := getTree_keepsStores n
    refine runs_bind runs_readBit storesWf_stable.readBit fun m => runs_seq runs_needRoom needRoom_keeps ?_
    cases m with
    | false =>
      exact runs_bind (runs_readByteLoop 8 0) (keeps_readByte storesWf_stable.readBit) fun x =>
        runs_of_done fun _ _ => ⟨_, _, rfl⟩
    | true =>
      have hnew : (newNode (.branch 0 0)).Runs StoresWf := runs_of_done fun _ _ => ⟨_, _, rfl⟩
      exact runs_bind hnew (newNode_keepsStores _) fun i =>
        runs_bind ih hget fun l => runs_bind ih hget fun r => runs_seq (runs_modify _) (fillNode_keepsStores i l r)
          (runs_pure i)

theorem runs_mergeLoop (n : Nat) : (mergeLoop n).Runs Any := by
  induction n with
  | zero => exact runs_skip
  | succ n ih =>
    intro s r _ h
    rcases hw : s.wl with _ | ⟨x, _ | ⟨y, rest⟩⟩
    · simp only [mergeLoop, hw] at h; cases h
    · simp only [mergeLoop, hw] at h; cases h
    · simp only [mergeLoop, hw] at h; exact ih _ r trivial h

theorem runs_takeRoot : takeRoot.Runs Any := by
  intro s r _ h
  cases hw : s.wl with
  | nil => rw [takeRoot, hw] at h; cases h
  | cons x rest => rw [takeRoot, hw] at h; cases h

theorem runs_opBuildTree : opBuildTree.Runs Any := by
  intro s r _ h
  rw [opBuildTree] at h
  split_ifs at h
  exact runs_seq (runs_mergeLoop _) (keeps_any _) runs_takeRoot s r trivial h

/-- What `need_dir` begins. -/
theorem runs_dir {d : Dir} {x : Op Unit} (h : x.Runs P) : ((needDir d).seq x).Runs P :=
  runs_seq (runs_needDir d) (keeps_needDir_same (E := P) d fun _ h => h) h

/-- What the commands need so as not to be stuck. -/
def Sound (s : State) : Prop := StoresWf s ∧ TreeWf s

theorem bodyOf_keepsSound (i : Instr) : (bodyOf i).Keeps Sound Sound Sound :=
  keeps_and (storesWf_stable.bodyOf i) (keeps_mono (bodyOf_keepsTree i) (fun _ h => h.2) (fun _ h => h) fun _ h => h)

theorem runs_needTree_then {f : Tree → Op Unit} (h : ∀ t, (f t).Runs Sound) : (needTree.bind f).Runs Sound :=
  runs_bind (runs_needTree.mono fun _ h => h.2) (keeps_needTree_same (E := Sound) fun _ h => h) h

/-- No body of a command that is no whole-file command is stuck. -/
theorem runs_bodyOf_simple {i : Instr} (hc : i ≠ .compress) (hd : i ≠ .decompress) : (bodyOf i).Runs Sound := by
  have stores : ∀ {x : Op Unit}, x.Runs StoresWf → x.Runs Sound := fun h => h.mono fun _ h => h.1
  have any : ∀ {x : Op Unit}, x.Runs Any → x.Runs Sound := fun h => h.mono fun _ _ => trivial
  cases i with
  | compress | decompress => contradiction
  | nop => exact runs_skip
  | rewind | ldSize | openRd | openWr => exact runs_modify _
  | rdBit => exact runs_dir (stores (runs_bind runs_readBit storesWf_stable.readBit fun _ => runs_modify _))
  | rdByte =>
    exact runs_dir (stores (runs_bind (runs_readByteLoop 8 0) (keeps_readByte storesWf_stable.readBit)
      fun _ => runs_modify _))
  | wrBit b => exact runs_dir (any (runs_bind (runs_writeBit b) (keeps_any _) fun _ => runs_modify _))
  | wrByte v => exact runs_dir (any (runs_writeBits _))
  | flush => exact runs_dir (any (runs_flushLoop 7))
  | rdSize => exact runs_dir (stores runs_takeHeader)
  | wrSize =>
    refine runs_dir (any (runs_bind (runs_get _) (keeps_any _) fun v => ?_))
    rw [writeBytes_eq]
    exact runs_writeBits _
  | cntDistinct => exact stores (runs_of_done fun s hs => ⟨_, _, opCntDistinct_run hs⟩)
  | hist => exact stores (runs_of_done fun s hs => ⟨_, _, opHist_run hs⟩)
  | flist =>
    refine runs_of_done fun s _ => ?_
    obtain ⟨_, t, -, -, hrun, -⟩ := opFlist_run s
    exact ⟨(), t, hrun⟩
  | buildTree => exact any runs_opBuildTree
  | genCodes =>
    exact runs_needTree_then fun t => runs_of_done fun s _ => ⟨_, _, (modify_seq ..).trans (walk_run t 0 0 _)⟩
  | wrTree =>
    refine runs_dir (runs_needTree_then fun t => any ?_)
    rw [putTree_eq]
    exact runs_writeBits _
  | rdTree =>
    exact runs_dir (stores (runs_seq (runs_modify _) (storesWf_stable.other fun _ => ⟨rfl, rfl, rfl, rfl⟩)
      (runs_seq (runs_getTree _) (getTree_keepsStores _) (runs_modify _))))
  | encode => exact stores runs_opEncode
  | decode =>
    exact runs_dir (runs_needTree_then fun t => stores (runs_bind (runs_get _) (keeps_get (E := StoresWf) _) fun n =>
      runs_times (runs_bind (runs_walkDown t) (keeps_walkDown storesWf_stable.readBit t) fun x => runs_snkAppend x)
        (keeps_bind (keeps_walkDown storesWf_stable.readBit t) fun x => storesWf_stable.snkAppend x) n.toNat))

theorem runs_inPlace {is : List Instr} (hc : .compress ∉ is) (hd : .decompress ∉ is) : (inPlace is).Runs Sound := by
  induction is with
  | nil => exact runs_skip
  | cons i is ih =>
    simp only [List.mem_cons, not_or] at hc hd
    exact runs_seq (runs_bodyOf_simple (Ne.symm hc.1) (Ne.symm hd.1)) (bodyOf_keepsSound i) (ih hc.2 hd.2)

theorem runs_bodyOf (i : Instr) : (bodyOf i).Runs Sound := by
  by_cases hc : i = .compress
  · subst hc
    intro s r hs h
    rw [bodyOf, opCompress_eq_inPlace hs.1] at h
    exact runs_inPlace (by simp) (by simp) s r hs h
  · by_cases hd : i = .decompress
    · subst hd
      show opDecompress.Runs Sound
      rw [opDecompress_eq_inPlace]
      exact runs_inPlace (by simp) (by simp)
    · exact runs_bodyOf_simple hc hd

/-- Settles O22: a command answers no next state only where its body is stuck. -/
theorem commandsNeverGetStuck : Obligations.CommandsNeverGetStuck := by
  unfold Obligations.CommandsNeverGetStuck
  intro i s hs ht
  cases h : bodyOf i s with
  | done u v => exact ⟨_, exec_of_done h⟩
  | raised c v => exact ⟨_, exec_of_raised h⟩
  | stuck r => exact absurd h (runs_bodyOf i s r ⟨hs, ht⟩)

end Sys2Proof.Machine

/-! ## The Bit Channel, read side (41_bit_channel.md rules R110, R111, R116, R117 and R122) -/

namespace Sys2Proof.Machine

/-- Settles O33. -/
theorem readBitDeliversInOrder : Obligations.ReadBitDeliversInOrder := by
  unfold Obligations.ReadBitDeliversInOrder
  refine fun s h => ⟨fun b rest hb => ?_, readBit_nil h⟩
  obtain ⟨t, hrun, hsame, hstores, hbits⟩ := readBit_cons h hb
  exact ⟨t, hrun, hbits, hstores, hsame⟩

theorem readBit_pending {s : State} (hc : s.bcCur ≠ 0) :
    readBit s = .done (s.bcBuf.getLsbD (7 - s.bcCur.toNat)) { s with bcCur := s.bcCur + 1 } := by
  rw [readBit, seq_done (show refill s = .done () s from if_neg hc), takeBit_run]

theorem readBit_fetch {s : State} {b : Byte} (hc : s.bcCur = 0) (hp : s.srcPos ≠ s.srcLen)
    (hr : s.src.read s.srcPos.toNat = some b) :
    readBit s = .done (b.getLsbD 7) { s with srcPos := s.srcPos + 1, bcBuf := b, bcCur := 1 } := by
  have hrefill : refill s = .done () { s with srcPos := s.srcPos + 1, bcBuf := b } := by
    simp [refill, hc, hp, srcNext, Op.bind, hr]
  rw [readBit, seq_done hrefill, takeBit_run]
  simp [hc]

theorem readBit_end {s : State} (hc : s.bcCur = 0) (hp : s.srcPos = s.srcLen) : readBit s = .raised .eof s := by
  rw [readBit, seq_raised (show refill s = .raised .eof s by simp [refill, hc, hp])]

/-- A byte that SRC holds at `SRC_POS` is still to be read. -/
theorem not_atEnd_of_read {s : State} {b : Byte} (h : StoresWf s) (hr : s.src.read s.srcPos.toNat = some b) :
    s.srcPos ≠ s.srcLen := by
  obtain ⟨bs, hbs⟩ := rest_of_read h hr
  intro hend
  rw [(rest_nil_iff h).2 hend] at hbs
  cases hbs

theorem exec_rdBit {s t : State} {b : Bool} (hd : s.bcDir = .rd) (h : readBit s = .done b t) :
    exec .rdBit s = .next { t with res := zext8 b, pc := t.pc + 1 } :=
  exec_of_done (i := .rdBit) ((seq_done (needDir_ok hd)).trans (bind_done h))

/-- Settles O25. -/
theorem rdBitResult : Obligations.RdBitResult := by
  unfold Obligations.RdBitResult
  refine fun s h hd => ⟨fun hc => exec_rdBit hd (readBit_pending hc), fun b hc hr => ?fetch, fun hc hp => ?atEnd⟩
  case fetch => exact exec_rdBit hd (readBit_fetch hc (not_atEnd_of_read h hr) hr)
  case atEnd =>
    exact exec_of_raised (i := .rdBit) ((seq_done (needDir_ok hd)).trans (bind_raised (readBit_end hc hp)))

/-- Reading `n` bits, at most eight, at cursor `c` takes a byte of SRC. -/
def Fetches (c n : Nat) : Prop := (c = 0 ∧ 0 < n) ∨ 8 < c + n

/-- How reading `n` bits has moved the channel: the cursor by `n`; the buffer and `SRC_POS` to the next byte of
SRC, or not at all. -/
structure Moved (n : Nat) (s t : State) : Prop where
  src : t.src = s.src
  cur : t.bcCur.toNat = (s.bcCur.toNat + n) % 8
  fetched : Fetches s.bcCur.toNat n → s.src.read s.srcPos.toNat = some t.bcBuf ∧ t.srcPos = s.srcPos + 1
  kept : ¬ Fetches s.bcCur.toNat n → t.bcBuf = s.bcBuf ∧ t.srcPos = s.srcPos

theorem Moved.refl (s : State) : Moved 0 s s where
  src := rfl
  cur := (Nat.mod_eq_of_lt (cur_lt s)).symm
  fetched h := by have := cur_lt s; rw [Fetches] at h; omega
  kept _ := ⟨rfl, rfl⟩

/-- Of eight bits in a row at most one takes a byte. -/
theorem fetches_add {c m n : Nat} (hc : c < 8) (h : m + n ≤ 8) :
    (Fetches c (m + n) ↔ Fetches c m ∨ Fetches ((c + m) % 8) n) ∧ ¬ (Fetches c m ∧ Fetches ((c + m) % 8) n) := by
  simp only [Fetches]
  omega

theorem Moved.trans {s t u : State} {m n : Nat} (h1 : Moved m s t) (h2 : Moved n t u) (h : m + n ≤ 8) :
    Moved (m + n) s u := by
  obtain ⟨hiff, hone⟩ := fetches_add (cur_lt s) h
  rw [← h1.cur] at hiff hone
  refine ⟨h2.src.trans h1.src, by rw [h2.cur, h1.cur]; omega, fun hf => ?_, fun hf => ?_⟩
  · rcases hiff.1 hf with h3 | h3
    · obtain ⟨hbuf, hpos⟩ := h2.kept fun h4 => hone ⟨h3, h4⟩
      rw [hbuf, hpos]
      exact h1.fetched h3
    · obtain ⟨hbuf, hpos⟩ := h1.kept fun h4 => hone ⟨h4, h3⟩
      have hnext := h2.fetched h3
      rwa [h1.src, hpos] at hnext
  · obtain ⟨hbuf, hpos⟩ := h1.kept fun h3 => hf (hiff.2 (.inl h3))
    obtain ⟨hbuf', hpos'⟩ := h2.kept fun h3 => hf (hiff.2 (.inr h3))
    exact ⟨hbuf'.trans hbuf, hpos'.trans hpos⟩

theorem readBit_moved {s t : State} {b : Bool} (h : StoresWf s) (hd : readBit s = .done b t) : Moved 1 s t := by
  have hlt := cur_lt s
  by_cases hc : s.bcCur = 0
  · have hc' : s.bcCur.toNat = 0 := cur_eq_zero.1 hc
    have hfetch : Fetches s.bcCur.toNat 1 := .inl ⟨hc', Nat.one_pos⟩
    by_cases hp : s.srcPos = s.srcLen
    · rw [readBit_end hc hp] at hd; cases hd
    · cases hr : s.rest with
      | nil => exact absurd (h.atEnd hr) hp
      | cons v vs =>
        have hread := (rest_cons h hr).2.1
        rw [readBit_fetch hc hp hread] at hd
        cases hd
        exact ⟨rfl, by rw [hc']; rfl, fun _ => ⟨hread, rfl⟩, fun hn => absurd hfetch hn⟩
  · have hc' : s.bcCur.toNat ≠ 0 := fun h => hc (cur_eq_zero.2 h)
    rw [readBit_pending hc] at hd
    cases hd
    refine ⟨rfl, ?_, fun hf => ?_, fun _ => ⟨rfl, rfl⟩⟩
    · show (s.bcCur + 1).toNat = _
      rw [BitVec.toNat_add]; rfl
    · rw [Fetches] at hf; omega

theorem readByteLoop_moved (n : Nat) (v : Byte) {s t : State} {w : Byte} (h : StoresWf s) (hn : n ≤ 8)
    (hd : readByteLoop n v s = .done w t) : Moved n s t := by
  induction n generalizing v s with
  | zero => cases hd; exact Moved.refl _
  | succ n ih =>
    obtain ⟨b, a, hbit, hrest⟩ := bind_eq_done hd
    have hmoved := (readBit_moved h hbit).trans (ih _ (storesWf_stable.readBit.done h hbit) (by omega) hrest) (by omega)
    rwa [Nat.add_comm] at hmoved

/-- The next eight bits at cursor `c`: what is pending of the buffer, then the first of the next byte (rule R117). -/
theorem byteBits_straddle (buf b : Byte) {c : Nat} (h0 : c ≠ 0) (h8 : c < 8) :
    byteBits ((buf <<< c) ||| (b >>> (8 - c))) = (byteBits buf).drop c ++ (byteBits b).take c := by
  interval_cases c
  · contradiction
  all_goals simp [byteBits]

/-- The byte that `read_byte()` gives where the next byte of SRC is `b` (rule R117). -/
def State.nextByte (s : State) (b : Byte) : Byte :=
  if s.bcCur = 0 then b else (s.bcBuf <<< s.bcCur.toNat) ||| (b >>> (8 - s.bcCur.toNat))

theorem inBits_nextByte {s : State} {b : Byte} {bs : List Byte} (hr : s.rest = b :: bs) :
    s.inBits = byteBits (s.nextByte b) ++
      (if s.bcCur = 0 then bs.flatMap byteBits else (byteBits b).drop s.bcCur.toNat ++ bs.flatMap byteBits) := by
  rw [State.inBits, State.pendingIn, State.nextByte, hr, List.flatMap_cons]
  split_ifs with hc
  · rfl
  · rw [byteBits_straddle _ _ (fun h => hc (cur_eq_zero.2 h)) (cur_lt s), List.append_assoc,
      ← List.append_assoc (List.take _ _), List.take_append_drop]

/-- `read_byte()` where SRC has a byte left (rules R111 and R117). -/
theorem readByte_run {s : State} {b : Byte} (h : StoresWf s) (hr : s.src.read s.srcPos.toNat = some b) :
    readByte s = .done (s.nextByte b) { s with bcBuf := b, srcPos := s.srcPos + 1 } := by
  obtain ⟨bs, hrest⟩ := rest_of_read h hr
  obtain ⟨t, hrun, hsame, -, -⟩ := readByte_cons h (inBits_nextByte hrest)
  have hm := readByteLoop_moved 8 0 h (le_refl 8) hrun
  have hlt := cur_lt s
  obtain ⟨hread, hpos⟩ := hm.fetched (by rw [Fetches]; omega)
  have hbuf : t.bcBuf = b := by rw [hr] at hread; exact (Option.some_inj.1 hread).symm
  have hcur : t.bcCur = s.bcCur := BitVec.eq_of_toNat_eq (by rw [hm.cur]; omega)
  rw [hrun, hsame, hbuf, hpos, hcur]

/-- `read_byte()` where the bits end before the eighth: those pending are consumed (rules R111 and R117). -/
theorem readByteLoop_end (n : Nat) (v : Byte) {s : State} (hp : s.srcPos = s.srcLen)
    (hf : Fetches s.bcCur.toNat n) : readByteLoop n v s = .raised .eof { s with bcCur := 0 } := by
  induction n generalizing v s with
  | zero => have := cur_lt s; rw [Fetches] at hf; omega
  | succ n ih =>
    by_cases hc : s.bcCur = 0
    · rw [readByteLoop, bind_raised (readBit_end hc hp), ← hc]
    · have hlt := cur_lt s
      have hc' : s.bcCur.toNat ≠ 0 := fun h => hc (cur_eq_zero.2 h)
      have hcur : (s.bcCur + 1).toNat = (s.bcCur.toNat + 1) % 8 := by rw [BitVec.toNat_add]; rfl
      rw [readByteLoop, bind_done (readBit_pending hc)]
      refine ih _ (s := { s with bcCur := s.bcCur + 1 }) hp ?_
      rw [Fetches] at hf
      show Fetches (s.bcCur + 1).toNat n
      rw [Fetches, hcur]
      omega

theorem readByte_end {s : State} (hp : s.srcPos = s.srcLen) : readByte s = .raised .eof { s with bcCur := 0 } :=
  readByteLoop_end 8 0 hp (by have := cur_lt s; rw [Fetches]; omega)

/-- Settles O26. -/
theorem rdByteResult : Obligations.RdByteResult := by
  unfold Obligations.RdByteResult
  refine fun s h hd => ⟨fun b hr => ?next, fun hp => ?atEnd⟩
  case next =>
    exact exec_of_done (i := .rdByte) ((seq_done (needDir_ok hd)).trans (bind_done (readByte_run h hr)))
  case atEnd =>
    exact exec_of_raised (i := .rdByte) ((seq_done (needDir_ok hd)).trans (bind_raised (readByte_end hp)))

/-! ### RD_SIZE -/

theorem sizeHeader_eq (v : Word64) : sizeHeader v = (List.range 8).map fun i => v.extractLsb' (8 * i) 8 := rfl

/-- Eight bytes are the header of the number they are read as (rule R61). -/
theorem sizeHeader_of_length {l : List Byte} (h : l.length = 8) : sizeHeader (sizeOfHeader l) = l := by
  match l, h with
  | [a, b, c, d, e, f, g, i], _ => exact sizeHeader_sizeOfHeader a b c d e f g i

/-- Settles O30. -/
theorem rdSizeResult : Obligations.RdSizeResult := by
  unfold Obligations.RdSizeResult
  refine fun s h hd => ⟨fun hl => ⟨sizeOfHeader (s.rest.take 8), fun i hi => ?bytes, ?run⟩, fun hl => ?short⟩
  case bytes =>
    have hlen : (s.rest.take 8).length = 8 := by
      rw [List.length_take, State.rest, List.length_drop, length_bytes]; omega
    have hbyte : (s.rest.take 8)[i]? = some ((sizeOfHeader (s.rest.take 8)).extractLsb' (8 * i) 8) := by
      conv_lhs => rw [← sizeHeader_of_length hlen, sizeHeader_eq]
      simp [hi]
    rw [← hbyte, h.src.read, List.getElem?_take_of_lt hi, State.rest, List.getElem?_drop]
  case run =>
    exact exec_of_done (i := .rdSize) ((seq_done (needDir_ok hd)).trans (takeHeader_run h hl))
  case short =>
    exact exec_of_raised (i := .rdSize) ((seq_done (needDir_ok hd)).trans (takeHeader_short h hl))

end Sys2Proof.Machine

/-! ## The Bit Channel, write side (41_bit_channel.md rules R112, R113, R118 to R121 and R123) -/

namespace Sys2Proof.Machine

theorem opWrBit_eq {s : State} (hd : s.bcDir = .wr) (b : Bool) :
    opWrBit b s = ((writeBit b).bind fun flushed => setRes (zext8 flushed)) s := seq_done (needDir_ok hd)

/-- Settles O27. -/
theorem wrBitResult : Obligations.WrBitResult := by
  unfold Obligations.WrBitResult
  refine fun s b hs hd => ⟨fun hc => ?pending, fun hc hf => ?emit, fun hc hf => ?full⟩
  case pending =>
    exact exec_of_done (i := .wrBit b) ((opWrBit_eq hd b).trans (bind_done (writeBit_pending b hc)))
  case emit =>
    have hrun := writeBit_emit b hc hf
    rw [hs.write_length] at hrun
    exact exec_of_done (i := .wrBit b) ((opWrBit_eq hd b).trans (bind_done hrun))
  case full =>
    exact exec_of_raised (i := .wrBit b) ((opWrBit_eq hd b).trans (bind_raised (writeBit_full b hc hf)))

/-- The buffer with bits shifted in, the first of them first (rule R112). -/
def shiftBits (v : Byte) (bits : List Bool) : Byte := bits.foldl (fun v b => (v <<< 1) ||| zext8 b) v

@[simp] theorem shiftBits_cons (v : Byte) (b : Bool) (bits : List Bool) :
    shiftBits v (b :: bits) = shiftBits ((v <<< 1) ||| zext8 b) bits := rfl

theorem getLsbD_shiftBits (bits : List Bool) (v : Byte) {i : Nat} (hi : i < 8) :
    (shiftBits v bits).getLsbD i =
      if i < bits.length then bits.getD (bits.length - 1 - i) false else v.getLsbD (i - bits.length) := by
  induction bits generalizing v with
  | nil => simp [shiftBits]
  | cons b bits ih =>
    rw [shiftBits_cons, ih, List.length_cons]
    rcases Nat.lt_trichotomy i bits.length with hlt | heq | hgt
    · rw [if_pos hlt, if_pos (by omega), show bits.length + 1 - 1 - i = (bits.length - 1 - i) + 1 by omega,
        List.getD_cons_succ]
    · rw [if_neg (by omega), if_pos (by omega), heq, Nat.sub_self, shl_or_getLsbD_zero]
      simp
    · rw [if_neg (by omega), if_neg (by omega), show i - bits.length = (i - (bits.length + 1)) + 1 by omega,
        shl_or_getLsbD_succ _ _ (by omega)]

theorem getD_byteBits (v : Byte) {i : Nat} (hi : i < 8) : (byteBits v).getD i false = v.getLsbD (7 - i) := by
  rw [byteBits_eq, List.getD_eq_getElem?_getD, List.getElem?_map, List.getElem?_range hi]
  rfl

/-- The byte that the first `8 - c` bits of `v` complete at cursor `c` (rule R119). -/
theorem shiftBits_take (u v : Byte) {c : Nat} (hc : c < 8) :
    shiftBits u ((byteBits v).take (8 - c)) = (u <<< (8 - c)) ||| (v >>> c) := by
  refine BitVec.eq_of_getLsbD_eq fun i hi => ?_
  have hlen : ((byteBits v).take (8 - c)).length = 8 - c := by rw [List.length_take, length_byteBits]; omega
  rw [getLsbD_shiftBits _ _ hi, hlen, BitVec.getLsbD_or, BitVec.getLsbD_shiftLeft, BitVec.getLsbD_ushiftRight]
  by_cases h : i < 8 - c
  · rw [if_pos h, List.getD_eq_getElem?_getD, List.getElem?_take_of_lt (by omega), ← List.getD_eq_getElem?_getD,
      getD_byteBits _ (by omega), show 7 - (8 - c - 1 - i) = c + i by omega]
    simp [h]
  · rw [if_neg h, BitVec.getLsbD_of_ge v (c + i) (by omega)]
    simp [h, hi]

/-- What the last `c` bits of `v` leave in the empty buffer (rule R119). -/
theorem shiftBits_drop (v : Byte) {c : Nat} (hc : c < 8) :
    shiftBits 0 ((byteBits v).drop (8 - c)) = v &&& BitVec.ofNat 8 (2 ^ c - 1) := by
  refine BitVec.eq_of_getLsbD_eq fun i hi => ?_
  have hlen : ((byteBits v).drop (8 - c)).length = c := by rw [List.length_drop, length_byteBits]; omega
  rw [getLsbD_shiftBits _ _ hi, hlen, BitVec.getLsbD_and, BitVec.getLsbD_ofNat, Nat.testBit_two_pow_sub_one]
  by_cases h : i < c
  · rw [if_pos h, List.getD_eq_getElem?_getD, List.getElem?_drop, ← List.getD_eq_getElem?_getD,
      getD_byteBits _ (by omega), show 7 - (8 - c + (c - 1 - i)) = i by omega]
    simp [h, hi]
  · rw [if_neg h]
    simp [h]

/-- Zeros shifted in (rule R121). -/
theorem shiftBits_zeros (v : Byte) (k : Nat) : shiftBits v (List.replicate k false) = v <<< k := by
  refine BitVec.eq_of_getLsbD_eq fun i hi => ?_
  rw [getLsbD_shiftBits _ _ hi, List.length_replicate, BitVec.getLsbD_shiftLeft]
  by_cases h : i < k
  · rw [if_pos h, List.getD_replicate _ (by omega)]
    simp [h]
  · rw [if_neg h]
    simp [h, hi]

/-- The channel after bits that leave the byte incomplete. -/
def State.shiftAll (s : State) (bits : List Bool) : State :=
  { s with bcBuf := shiftBits s.bcBuf bits, bcCur := s.bcCur + BitVec.ofNat 3 bits.length }

theorem shiftAll_cons (s : State) (b : Bool) (bits : List Bool) :
    s.shiftAll (b :: bits) = (s.shiftIn b).shiftAll bits := by
  have hcur : s.bcCur + BitVec.ofNat 3 (bits.length + 1) = s.bcCur + 1 + BitVec.ofNat 3 bits.length := by
    rw [Nat.add_comm, BitVec.ofNat_add, BitVec.add_assoc]; rfl
  simp only [State.shiftAll, List.length_cons, hcur]
  rfl

/-- Bits that leave the byte incomplete are shifted in. -/
theorem writeBits_pending (bits : List Bool) {s : State} (hl : s.bcCur.toNat + bits.length < 8) :
    writeBits bits s = .done () (s.shiftAll bits) := by
  induction bits generalizing s with
  | nil => simp [writeBits, State.shiftAll, shiftBits]
  | cons b bits ih =>
    rw [List.length_cons] at hl
    have h7 : s.bcCur ≠ 7 := fun h => by rw [h] at hl; simp at hl; omega
    rw [writeBits, seq_done (writeBit_pending b h7), shiftAll_cons]
    exact ih (by rw [shiftIn_bcCur, cur_succ h7]; omega)

/-- The channel after bits that complete the byte exactly: emitted, or stopped at a full sink. -/
theorem writeBits_fill (bits : List Bool) {s : State} (hl : s.bcCur.toNat + bits.length = 8) :
    (s.sinkFull = false → writeBits bits s = .done ()
      { s with snk := s.snk.write s.snk.length (shiftBits s.bcBuf bits), bcCur := 0, bcBuf := 0 }) ∧
    (s.sinkFull = true → writeBits bits s = .raised .io { s with bcBuf := shiftBits s.bcBuf bits, bcCur := 0 }) := by
  induction bits generalizing s with
  | nil => have := cur_lt s; rw [List.length_nil] at hl; omega
  | cons b bits ih =>
    rw [List.length_cons] at hl
    by_cases h7 : s.bcCur = 7
    · have h7' : s.bcCur.toNat = 7 := congrArg BitVec.toNat h7
      obtain rfl : bits = [] := List.length_eq_zero_iff.1 (by omega)
      exact ⟨fun hf => by rw [writeBits, seq_done (writeBit_emit b h7 hf)]; rfl,
        fun hf => by rw [writeBits, seq_raised (writeBit_full b h7 hf)]; rfl⟩
    · have hrest := ih (s := s.shiftIn b) (by rw [shiftIn_bcCur, cur_succ h7]; omega)
      rw [writeBits, seq_done (writeBit_pending b h7)]
      exact hrest

theorem writeByte_split (v : Byte) (k : Nat) :
    writeByte v = (writeBits ((byteBits v).take k)).seq (writeBits ((byteBits v).drop k)) := by
  rw [← writeBits_append, List.take_append_drop]; rfl

/-- Settles O28: the first `8 - c` bits complete the byte, the last `c` stay pending. -/
theorem wrByteResult : Obligations.WrByteResult := by
  unfold Obligations.WrByteResult
  intro s v hs hd
  have hlt := cur_lt s
  obtain ⟨hroom, hfull⟩ := writeBits_fill ((byteBits v).take (8 - s.bcCur.toNat)) (s := s)
    (by rw [List.length_take, length_byteBits]; omega)
  rw [shiftBits_take _ _ hlt] at hroom hfull
  have hrun : opWrByte v s = writeByte v s := seq_done (needDir_ok hd)
  rw [writeByte_split v (8 - s.bcCur.toNat)] at hrun
  refine ⟨fun hf => ?emit, fun hf => ?full⟩
  case emit =>
    have hemit := hroom hf
    rw [hs.write_length] at hemit
    rw [seq_done hemit, writeBits_pending _ (by simp; omega)] at hrun
    rw [exec_of_done (i := .wrByte v) hrun]
    have hlen : ((byteBits v).drop (8 - s.bcCur.toNat)).length = s.bcCur.toNat := by
      rw [List.length_drop, length_byteBits]; omega
    simp only [State.shiftAll, hlen, shiftBits_drop v hlt, State.advancePc]
    simp
  case full => exact exec_of_raised (i := .wrByte v) (hrun.trans (seq_raised (hfull hf)))

theorem flushLoop_boundary (n : Nat) {s : State} (hc : s.bcCur = 0) : flushLoop n s = .done () s := by
  cases n with
  | zero => rfl
  | succ n => exact if_pos hc

/-- FLUSH's loop is the missing bits written as zeros (rule R121). -/
theorem flushLoop_eq (n : Nat) {s : State} (hc : s.bcCur ≠ 0) (hn : 8 ≤ s.bcCur.toNat + n) :
    flushLoop n s = writeBits (List.replicate (8 - s.bcCur.toNat) false) s := by
  induction n generalizing s with
  | zero => have := cur_lt s; omega
  | succ n ih =>
    have hlt := cur_lt s
    rw [show 8 - s.bcCur.toNat = (7 - s.bcCur.toNat) + 1 by omega, List.replicate_succ, writeBits,
      show flushLoop (n + 1) s = ((writeBit false).seq (flushLoop n)) s from if_neg hc]
    by_cases h7 : s.bcCur = 7
    · have h7' : s.bcCur.toNat = 7 := congrArg BitVec.toNat h7
      rw [h7', Nat.sub_self, List.replicate_zero]
      cases hf : s.sinkFull with
      | true => rw [seq_raised (writeBit_full false h7 hf), seq_raised (writeBit_full false h7 hf)]
      | false =>
        rw [seq_done (writeBit_emit false h7 hf), seq_done (writeBit_emit false h7 hf)]
        exact flushLoop_boundary n rfl
    · have hcur := cur_succ h7
      rw [seq_done (writeBit_pending false h7), seq_done (writeBit_pending false h7),
        ih (by rw [shiftIn_bcCur]; exact fun h => by rw [h] at hcur; simp at hcur) (by rw [shiftIn_bcCur]; omega),
        shiftIn_bcCur, hcur, show 8 - (s.bcCur.toNat + 1) = 7 - s.bcCur.toNat by omega]

/-- Settles O29. -/
theorem flushResult : Obligations.FlushResult := by
  unfold Obligations.FlushResult
  intro s hs hd
  have hrun : opFlush s = flushLoop 7 s := seq_done (needDir_ok hd)
  refine ⟨fun hc => ?nothing, fun hc hf => ?emit, fun hc hf => ?full⟩
  case nothing => exact exec_of_done (i := .flush) (hrun.trans (flushLoop_boundary 7 hc))
  all_goals
    have hlt := cur_lt s
    have hc' : s.bcCur.toNat ≠ 0 := fun h => hc (cur_eq_zero.2 h)
    rw [flushLoop_eq 7 hc (by omega)] at hrun
    obtain ⟨hroom, hfull⟩ := writeBits_fill (List.replicate (8 - s.bcCur.toNat) false) (s := s)
      (by rw [List.length_replicate]; omega)
    rw [shiftBits_zeros] at hroom hfull
  case emit =>
    rw [hroom hf, hs.write_length] at hrun
    exact exec_of_done (i := .flush) hrun
  case full => exact exec_of_raised (i := .flush) (hrun.trans (hfull hf))

/-! ### Runs of written bits -/

theorem outBits_of_boundary {s : State} (h : s.bcCur = 0) : s.outBits = s.snk.bytes.flatMap byteBits := by
  simp [State.outBits, State.pendingOut, h]

theorem length_flatMap_byteBits (l : List Byte) : (l.flatMap byteBits).length = 8 * l.length := by
  induction l with
  | nil => rfl
  | cons b l ih => rw [List.flatMap_cons, List.length_append, ih, length_byteBits, List.length_cons]; omega

/-- WR_SIZE's body in direction WR is the header's bits written one after the other (rule R123). -/
theorem opWrSize_eq {s : State} (hd : s.bcDir = .wr) :
    opWrSize s = writeBits ((sizeHeader s.size).flatMap byteBits) s := by
  rw [opWrSize, seq_done (needDir_ok hd), get_bind, writeBytes_eq]

/-- WR_SIZE's body (rule R123) where SNK has room for the header. -/
theorem opWrSize_wrote {s : State} (hs : s.snk.full) (hd : s.bcDir = .wr) (hr : s.Room 8) :
    ∃ t, opWrSize s = .done () t ∧ Wrote s ((sizeHeader s.size).flatMap byteBits) t := by
  have hlt := cur_lt s
  have hlen : ((sizeHeader s.size).flatMap byteBits).length = 64 := length_flatMap_byteBits _
  obtain ⟨t, hrun, hwrote⟩ := writeBits_wrote ((sizeHeader s.size).flatMap byteBits) hs
    (hr.mono (by rw [hlen]; omega))
  exact ⟨t, (opWrSize_eq hd).trans hrun, hwrote⟩

theorem Wrote.cur_eq {s t : State} {bits : List Bool} (h : Wrote s bits t) (h8 : bits.length % 8 = 0) :
    t.bcCur = s.bcCur := BitVec.eq_of_toNat_eq (by rw [h.cur]; have := cur_lt s; omega)

/-- Settles O31. -/
theorem wrSizeResult : Obligations.WrSizeResult := by
  unfold Obligations.WrSizeResult
  intro s hs hd hr
  obtain ⟨t, hrun, hw⟩ := opWrSize_wrote hs hd hr
  have hlen : ((sizeHeader s.size).flatMap byteBits).length = 64 := length_flatMap_byteBits _
  have hcur : t.bcCur = s.bcCur := hw.cur_eq (by rw [hlen])
  have hlt := cur_lt s
  refine ⟨t.advancePc, exec_of_done (i := .wrSize) hrun, ?frame, hw.full, ?length, ?out, fun hc => ?bytes⟩
  case frame =>
    conv_lhs => rw [hw.same, hcur]
    rfl
  case length =>
    show t.snk.length = _
    rw [hw.len, hlen]; omega
  case out =>
    rw [show t.advancePc.outBits = t.outBits from rfl, hw.out, sizeHeader_eq, List.flatMap_map]
  case bytes =>
    have hout := hw.out
    rw [outBits_of_boundary hc, outBits_of_boundary (hcur.trans hc), ← List.flatMap_append] at hout
    exact flatMap_byteBits_inj hout

/-- Settles O32. -/
theorem writtenBitsReadBack : Obligations.WrittenBitsReadBack := by
  unfold Obligations.WrittenBitsReadBack
  intro s u bits hsnk hd hc _ hcap hlen
  have hroom : ∀ {t : State} (n : Nat), t.snkCap = none → t.Room n := fun n ht cap hcap => by
    rw [ht] at hcap; cases hcap
  obtain ⟨a, hbits, hwa⟩ := writeBits_wrote bits (s := s) (by rw [hsnk]; exact full_nil) (hroom _ hcap)
  obtain ⟨t, hflush, hwt⟩ := opFlush_wrote hwa.full (by rw [hwa.same]; exact hd)
    (.inr (hroom 1 (by rw [hwa.same]; exact hcap)))
  have hw := hwa.trans hwt
  have hc' : s.bcCur.toNat = 0 := cur_eq_zero.1 hc
  have hcur : a.bcCur.toNat = bits.length % 8 := by rw [hwa.cur, hc', Nat.zero_add]
  rw [hcur] at hw
  have htlen : t.snk.length = (bits.length + 7) / 8 := by
    rw [hw.len, hsnk, hc', List.length_append, List.length_replicate, List.length_nil]; omega
  have htcur : t.bcCur = 0 := cur_eq_zero.2 (by
    rw [hw.cur, hc', List.length_append, List.length_replicate]; omega)
  have hout : t.snk.bytes.flatMap byteBits = bits ++ List.replicate ((8 - bits.length % 8) % 8) false := by
    rw [← outBits_of_boundary htcur, hw.out, outBits_of_boundary hc, hsnk]; rfl
  refine ⟨t, (seq_done hbits).trans hflush, hw.full, htlen, fun hsrc hpos hcu => ⟨?read, fun v hv hend hcv => ?eof⟩⟩
  case read =>
    rw [State.inBits, State.pendingIn, if_pos hcu, State.rest, hsrc, hpos, ← hout]; rfl
  case eof =>
    refine ⟨?_, readBit_end hcv hend⟩
    have hvlen : v.srcPos.toNat = t.snk.length := by
      rw [hend, srcLen_toNat (by rw [hv, htlen]; omega), hv]
    rw [State.inBits, State.pendingIn, if_pos hcv, State.rest, hv, hvlen,
      List.drop_eq_nil_of_le (by rw [length_bytes])]
    rfl

end Sys2Proof.Machine

/-! ## The Frequency Model, the Tree Builder and the Code Generator (42 to 44) -/

namespace Sys2Proof.Machine

/-- Settles O36. -/
theorem cntDistinctResult : Obligations.CntDistinctResult := by
  unfold Obligations.CntDistinctResult
  exact fun s h => exec_of_done (i := .cntDistinct) (opCntDistinct_run h)

/-- Settles O37: the counts start from 0 and do not wrap, since SRC has fewer than 2^64 bytes. -/
theorem histResult : Obligations.HistResult := by
  unfold Obligations.HistResult
  intro s h
  refine ⟨_, exec_of_done (i := .hist) (opHist_run h), rfl, fun x => ?_⟩
  have hcount : s.rest.count x < 2 ^ 64 := by
    have hle := List.count_le_length (a := x) (l := s.rest)
    have hsrc := h.srcLen
    rw [State.rest, List.length_drop, length_bytes] at hle
    rw [State.rest]
    omega
  show ((countUp (Table.fill 0) s.rest).get x).toNat = s.rest.count x
  simpa [get_countUp] using hcount

/-- Settles O38. -/
theorem flistResult : Obligations.FlistResult := by
  unfold Obligations.FlistResult
  intro s
  obtain ⟨syms, t, hmem, hsorted, hrun, hzero, ht⟩ := opFlist_run s
  refine ⟨syms, t.advancePc, hmem, hsorted, exec_of_done (i := .flist) hrun, ?_, hzero⟩
  conv_lhs => rw [ht]
  rfl

/-! ### The sorted list -/

/-- Where the list is sorted, the items that a new one goes after stand before all the others (rule R162). -/
theorem insertItem_sorted {wl : List WorkItem} (x : WorkItem) (h : wl.Pairwise fun a b => a.w ≤ b.w) :
    insertItem wl x =
      (wl.filter fun k => decide (k.w ≤ x.w)) ++ x :: (wl.filter fun k => decide (x.w < k.w)) := by
  obtain ⟨htake, hdrop⟩ := countP_split (fun k : WorkItem => decide (k.w ≤ x.w)) (h.imp fun {a b} hab hb => by
    rw [decide_eq_true_eq] at hb ⊢
    exact BitVec.le_trans hab hb)
  have hnot : (fun k : WorkItem => !decide (k.w ≤ x.w)) = fun k => decide (x.w < k.w) := by
    funext k
    exact decide_not.symm.trans (decide_eq_decide.2 BitVec.not_le)
  rw [insertItem, htake, hdrop, hnot, List.append_assoc]
  rfl

/-- Settles O39. -/
theorem insertionIsStable : Obligations.InsertionIsStable := by
  unfold Obligations.InsertionIsStable
  intro wl x h
  refine ⟨insertItem_sorted x h, ?_⟩
  rw [insertItem_sorted x h]
  refine List.pairwise_append.2 ⟨h.filter _, List.pairwise_cons.2 ⟨fun b hb => ?after, h.filter _⟩, fun a ha b hb => ?across⟩
  case after => exact BitVec.le_of_lt (of_decide_eq_true (List.mem_filter.1 hb).2)
  case across =>
    have hax : a.w ≤ x.w := of_decide_eq_true (List.mem_filter.1 ha).2
    rcases List.mem_cons.1 hb with rfl | hb
    · exact hax
    · exact BitVec.le_trans hax (BitVec.le_of_lt (of_decide_eq_true (List.mem_filter.1 hb).2))

/-! ### The priority queue -/

theorem pqOf_items (wl : List WorkItem) : (pqOf wl).map PqItem.item = wl := by
  rw [pqOf, List.map_map]
  conv_rhs => rw [← List.zipIdx_map_fst 0 wl]
  rfl

@[simp] theorem length_pqOf (wl : List WorkItem) : (pqOf wl).length = wl.length := by simp [pqOf]

/-- The queue of a sorted list is in the order of its keys: ties stand by sequence number (rule R39). -/
theorem pqOf_ordered {wl : List WorkItem} (h : wl.Pairwise fun a b => a.w ≤ b.w) :
    (pqOf wl).Pairwise fun a b => a.before b = true := by
  rw [pqOf, List.pairwise_map, List.pairwise_iff_getElem]
  intro i j hi hj hij
  rw [List.length_zipIdx] at hi hj
  have hle := List.pairwise_iff_getElem.1 h i j hi hj hij
  simp only [List.getElem_zipIdx, before_iff, BitVec.le_def] at hle ⊢
  omega

theorem pqOf_seq {wl : List WorkItem} : ∀ z ∈ pqOf wl, z.seq < wl.length := by
  intro z hz
  obtain ⟨p, hp, rfl⟩ := List.mem_map.1 hz
  have := List.snd_lt_of_mem_zipIdx hp
  simpa using this

theorem opBuildTree_of_merged {s : State} {r : WorkItem} {nodes : List Node} (h0 : s.wl ≠ [])
    (hm : mergeLoop s.wl.length s = .done () { s with node := nodes, wl := [r] }) :
    opBuildTree s = .done () { s with node := nodes, wl := [], root := r.n, checksum := r.w, treeValid := true } := by
  have hne : s.wlLen ≠ 0 := fun h => h0 (List.length_eq_zero_iff.1 h)
  rw [show opBuildTree s = ((mergeLoop s.wl.length).seq takeRoot) s from if_neg hne, seq_done hm]
  rfl

/-- Settles O40: `mergeLoop_queue` on the list's own queue. -/
theorem buildTreeIsPriorityQueue : Obligations.BuildTreeIsPriorityQueue := by
  unfold Obligations.BuildTreeIsPriorityQueue
  refine fun s => ⟨fun h0 => exec_of_raised (i := .buildTree) (opBuildTree_empty h0), fun h0 hsorted => ?_⟩
  obtain ⟨n, hn⟩ : ∃ n, s.wl.length = n + 1 := Nat.exists_eq_succ_of_ne_zero fun h => h0 (List.length_eq_zero_iff.1 h)
  obtain ⟨r, nodes, hq, hm⟩ := mergeLoop_queue n (pqOf_items s.wl) (pqOf_ordered hsorted) (List.Perm.refl _)
    pqOf_seq (by rw [length_pqOf, hn])
  rw [← hn] at hm hq
  exact ⟨r, nodes, hq, exec_of_done (i := .buildTree) (opBuildTree_of_merged h0 hm)⟩

/-- Settles O41. -/
theorem buildTreeNumbersAndSums : Obligations.BuildTreeNumbersAndSums := by
  unfold Obligations.BuildTreeNumbersAndSums
  intro s t h0 htree hcounts h
  obtain ⟨-, syms, hnodup, hnode, hn⟩ := htree.waiting h0
  obtain ⟨u, tr, vs, more, hrun, -, hgrew, hmore, hspans, honce, hroot, hsyms, hsum⟩ :=
    opBuildTree_run hnode hn h0 (card_le_of_nodup hnodup)
  rw [exec_of_done (i := .buildTree) hrun] at h
  cases h
  have hwl : s.wl.length = syms.length := by simpa using congrArg List.length hn
  have hlen : s.node.length = syms.length := by rw [hnode, List.length_map]
  refine ⟨?nodes, ?leaves, ?root, hsum hcounts.weights, tr, (hspans.tree honce).1, ?symbols⟩
  case nodes => rw [advancePc_node, hgrew, List.length_append, hlen, hwl]; omega
  case leaves => rw [advancePc_node, hgrew, hwl, ← hlen, List.take_left]
  case root => rw [advancePc_root, hwl]; omega
  case symbols => rw [hnode]; exact hsyms.map _

/-! ### Codes -/

/-- Settles O42. -/
theorem genCodesResult : Obligations.GenCodesResult := by
  unfold Obligations.GenCodesResult
  intro s tr hv ht
  obtain ⟨t, hrun, hframe, hcode, hdepth⟩ := opGenCodes_run hv ht
  refine ⟨t.advancePc, exec_of_done (i := .genCodes) hrun, ?_, hcode, hdepth⟩
  conv_lhs => rw [hframe]
  rfl

/-- The bits ENCODE emits for a Leaf's symbol are the Leaf's path (rules R38 and R184). -/
theorem emitted_of_leaf {tr : Tree} (hn : tr.symbols.Nodup) {p : List Bool × Byte} (hp : p ∈ tr.leaves)
    (hd : p.1.length ≤ 30) : (tr.codeEntry p.2).emitted = p.1 := by
  rw [codeEntry_of_leaf hn hp hd, emitted_path hd]

/-- No Leaf's path begins another's (rule R184). -/
theorem not_prefix_of_leaves {tr : Tree} {p q : List Bool × Byte} (hp : p ∈ tr.leaves) (hq : q ∈ tr.leaves)
    (hne : p ≠ q) : ¬ p.1 <+: q.1 := by
  have hsymm : Std.Symm fun a b : List Bool × Byte => ¬ a.1 <+: b.1 ∧ ¬ b.1 <+: a.1 := ⟨fun _ _ h => h.symm⟩
  exact ((paths_prefix_free tr).forall hp hq hne).1

/-- Settles O43. -/
theorem codesArePrefixFree : Obligations.CodesArePrefixFree := by
  unfold Obligations.CodesArePrefixFree
  intro tr hn hd
  refine ⟨fun p hp => ⟨by rw [codeEntry_of_leaf hn hp (hd p hp)], emitted_of_leaf hn hp (hd p hp)⟩,
    fun x hx => codeEntry_of_absent hx, fun x hx y hy hne => ?_⟩
  obtain ⟨p, hp, rfl⟩ := List.mem_map.1 hx
  obtain ⟨q, hq, rfl⟩ := List.mem_map.1 hy
  rw [emitted_of_leaf hn hp (hd p hp), emitted_of_leaf hn hq (hd q hq)]
  exact not_prefix_of_leaves hp hq fun h => hne (congrArg Prod.snd h)

end Sys2Proof.Machine

/-! ## Trees on the channel (45_tree_serdes.md) -/

namespace Sys2Proof.Machine

/-- WR_TREE's body is the bits of `ser(tree(ROOT))` written one after the other (rule R195). -/
theorem opWrTree_eq {s : State} {tr : Tree} (hd : s.bcDir = .wr) (hv : s.treeValid = true) (ht : s.tree = some tr) :
    opWrTree s = writeBits tr.ser s := by
  rw [opWrTree, seq_done (needDir_ok hd), bind_done (needTree_ok hv ht), putTree_eq]

/-- A run of written bits changes SNK and the channel only, `pc` apart. -/
theorem Wrote.advancePc_eq {s t : State} {bits : List Bool} (h : Wrote s bits t) :
    t.advancePc = { s with snk := t.snk, bcCur := t.bcCur, bcBuf := t.bcBuf, pc := s.pc + 1 } := by
  conv_lhs => rw [h.same]
  rfl

/-- Settles O44. -/
theorem wrTreeResult : Obligations.WrTreeResult := by
  unfold Obligations.WrTreeResult
  intro s tr hs hd hv ht hr
  have hlen := length_ser tr
  obtain ⟨t, hrun, hw⟩ := writeBits_wrote tr.ser hs hr
  exact ⟨by omega, t.advancePc, exec_of_done (i := .wrTree) ((opWrTree_eq hd hv ht).trans hrun), hw.advancePc_eq,
    hw.full, hw.out⟩

/-- RD_TREE's body in direction RD (rule R200). -/
theorem opRdTree_eq {s : State} (hd : s.bcDir = .rd) :
    opRdTree s = ((getTree Config.nodeMax).seq (Op.modify fun t => t.setTree true 0)) s.dropTree := by
  rw [opRdTree, seq_done (needDir_ok hd), modify_seq]

/-- The state that RD_TREE leaves with the tree `tr` read, the channel as in `t` (rules R200 and R201). -/
def State.withTree (s : State) (tr : Tree) (t : State) : State :=
  { s with
    node := tr.preorder 0, wl := [], root := 0, treeValid := true
    bcCur := t.bcCur, bcBuf := t.bcBuf, srcPos := t.srcPos }

theorem length_preorder_le {tr : Tree} (hl : tr.leaves.length ≤ 256) : (tr.preorder 0).length ≤ 511 := by
  have := length_preorder tr 0
  omega

/-- RD_TREE's body reads a serialized tree of at most 511 nodes (rules R200 to R202). -/
theorem opRdTree_run {s : State} {tr : Tree} {rest : List Bool} (h : StoresWf s) (hd : s.bcDir = .rd)
    (hb : s.inBits = tr.ser ++ rest) (hl : tr.leaves.length ≤ 256) :
    ∃ t : State, opRdTree s = .done () t ∧ StoresWf t ∧ t.inBits = rest ∧ t.tree = some tr ∧ t = s.withTree tr t := by
  have hlen := length_preorder_le hl
  have hdepth := depth_lt_leaves tr
  obtain ⟨u, hget, hstores, hbits, hgrew⟩ := getTree_ser tr Config.nodeMax (s := s.dropTree) (rest := rest)
    (h.congr rfl rfl rfl rfl) hb (by rw [Config.nodeMax]; omega) (by simpa using hlen)
  have hnode : u.node = tr.preorder 0 := by rw [hgrew]; rfl
  refine ⟨u.setTree true 0, ?run, hstores.congr rfl rfl rfl rfl, hbits, ?tree, ?frame⟩
  case run => rw [opRdTree_eq hd, seq_done hget, modify_run]
  case tree =>
    have hspans := spans_preorder_zero tr hlen
    rw [← hnode] at hspans
    exact (Spans.tree (s := u.setTree true 0) hspans List.nodup_range').1
  case frame =>
    conv_lhs => rw [hgrew]
    rfl

/-- Settles O45. -/
theorem rdTreeInvertsWrTree : Obligations.RdTreeInvertsWrTree := by
  unfold Obligations.RdTreeInvertsWrTree
  intro s tr rest h hd hb hl
  obtain ⟨t, hrun, -, hbits, htree, hframe⟩ := opRdTree_run h hd hb hl
  refine ⟨t.advancePc, exec_of_done (i := .rdTree) hrun, hbits, htree, ?_⟩
  conv_lhs => rw [hframe]
  rfl

/-- RD_TREE's body completes only on a serialized tree of at most 511 nodes (rule R203). -/
theorem ser_of_opRdTree_done {s t : State} {u : Unit} (h : StoresWf s) (hd : s.bcDir = .rd)
    (hrun : opRdTree s = .done u t) :
    ∃ (tr : Tree) (rest : List Bool), s.inBits = tr.ser ++ rest ∧ tr.leaves.length ≤ 256 := by
  rw [opRdTree_eq hd] at hrun
  obtain ⟨i, v, hget, -⟩ := seq_eq_done hrun
  obtain ⟨tr, rest, hb, -, hlen⟩ := getTree_done _ (s := s.dropTree) (h.congr rfl rfl rfl rfl) (Nat.zero_le _) hget
  have hpre := length_preorder tr 0
  rw [dropTree_node, List.length_nil] at hlen
  exact ⟨tr, rest, hb, by omega⟩

/-- Where RD_TREE's body raises, there is no tree and nothing waits (rules R200 and R204). -/
theorem opRdTree_raised {s t : State} {c : Cause} (hd : s.bcDir = .rd) (hrun : opRdTree s = .raised c t) :
    (c = .eof ∨ c = .treeOvf) ∧ t.treeValid = false ∧ t.wl = [] ∧ t.root = 0 := by
  rw [opRdTree_eq hd] at hrun
  cases hget : getTree Config.nodeMax s.dropTree with
  | done i v => rw [seq_done hget] at hrun; cases hrun
  | stuck r => rw [seq_stuck hget] at hrun; cases hrun
  | raised c' v =>
    rw [seq_raised hget] at hrun
    cases hrun
    have hc := raises_getTree (P := Any) (C := [.eof, .treeOvf]) (by simp) (by simp) _ _ _ _ trivial hget
    have hw := (getTree_writes _).raised hget
    refine ⟨by simpa using hc, ?_⟩
    simpa [eraseIn] using And.intro (congrArg State.treeValid hw)
      (And.intro (congrArg State.wl hw) (congrArg State.root hw))

/-- Settles O46. -/
theorem rdTreeFaultsOffGrammar : Obligations.RdTreeFaultsOffGrammar := by
  unfold Obligations.RdTreeFaultsOffGrammar
  intro s t h hd hf he
  rw [exec_eq] at he
  rcases complete_next he with ⟨u, v, hrun, rfl⟩ | ⟨c, v, hrun, rfl⟩
  · have hvf : v.fault = false := (bodyOf_done_fault hrun).trans hf
    refine ⟨fun hft => ?_, fun _ => ?_⟩
    · rw [advancePc_fault, hvf] at hft; contradiction
    · obtain ⟨tr, rest, hb, hl⟩ := ser_of_opRdTree_done h hd hrun
      obtain ⟨v', hrun', -, -, htree, -⟩ := opRdTree_run h hd hb hl
      cases hrun.symm.trans hrun'
      exact ⟨tr, rest, hb, htree, hl⟩
  · obtain ⟨hc, hv, hwl, hroot⟩ := opRdTree_raised hd hrun
    refine ⟨fun _ => ⟨?_, hv, hwl, hroot⟩, nofun⟩
    rcases hc with rfl | rfl
    · exact .inl rfl
    · exact .inr rfl

end Sys2Proof.Machine

/-! ## The codec (46_stream_codec.md) -/

namespace Sys2Proof.Machine

/-- ENCODE's scan over the bytes still to be read that begin with `pre`, all with codes. -/
theorem opEncode_prefix {s : State} {pre post : List Byte} (h : StoresWf s) (hd : s.bcDir = .wr)
    (hr : s.rest = pre ++ post) (hv : ∀ b ∈ pre, (s.code.get b).valid = true)
    (hroom : s.Room ((s.bcCur.toNat + (s.coded pre).length) / 8)) :
    ∃ t, opEncode s = forSrc encodeByte post.length t ∧ StoresWf t ∧ t.rest = post ∧
      t.srcPos.toNat = s.srcPos.toNat + pre.length ∧ Wrote { s with srcPos := t.srcPos } (s.coded pre) t := by
  obtain ⟨t, hrun, hfacts⟩ := forSrc_encode pre h hr hv hroom post.length
  exact ⟨t, by rw [opEncode_eq h hd, hr, List.length_append, hrun], hfacts⟩

/-- ENCODE's body where every byte still to be read has a code (rule R215). -/
theorem opEncode_run {s : State} (h : StoresWf s) (hd : s.bcDir = .wr) (hv : ∀ b ∈ s.rest, (s.code.get b).valid = true)
    (hroom : s.Room ((s.bcCur.toNat + (s.coded s.rest).length) / 8)) :
    ∃ t, opEncode s = .done () t ∧ StoresWf t ∧ t.srcPos = s.srcLen ∧
      Wrote { s with srcPos := s.srcLen } (s.coded s.rest) t := by
  obtain ⟨t, hrun, hstores, hrest, -, hw⟩ := opEncode_prefix h hd (List.append_nil s.rest).symm hv hroom
  have hsrc : t.src = s.src := by rw [hw.same]
  have hpos : t.srcPos = s.srcLen := by rw [hstores.atEnd hrest, State.srcLen, hsrc, State.srcLen]
  rw [hpos] at hw
  exact ⟨t, hrun, hstores, hpos, hw⟩

/-- Settles O47. -/
theorem encodeResult : Obligations.EncodeResult := by
  unfold Obligations.EncodeResult
  intro s h hd hv hroom
  obtain ⟨t, hrun, -, -, hw⟩ := opEncode_run h hd hv hroom
  exact ⟨t.advancePc, exec_of_done (i := .encode) hrun, hw.advancePc_eq, hw.full, hw.out⟩

/-- Settles O50. -/
theorem encodeRejectsUncodedByte : Obligations.EncodeRejectsUncodedByte := by
  unfold Obligations.EncodeRejectsUncodedByte
  intro s pre post b h hd hr hv hb hroom
  obtain ⟨t, hrun, hstores, hrest, hpos, hw⟩ := opEncode_prefix h hd hr hv hroom
  have hcode : t.code = s.code := by rw [hw.same]
  have hraise : opEncode s = .raised .nocode { t with srcPos := t.srcPos + 1 } := by
    rw [hrun, List.length_cons, forSrc_cons hstores hrest]
    exact seq_raised (encodeByte_bad (by rw [hcode]; exact hb))
  have hend : t.srcPos + 1 = s.srcPos + BitVec.ofNat 64 (pre.length + 1) := by
    refine BitVec.eq_of_toNat_eq ?_
    rw [BitVec.toNat_add, hpos, BitVec.toNat_add, BitVec.toNat_ofNat]
    simp only [Nat.add_mod_mod, Nat.add_assoc]
    rfl
  refine ⟨_, exec_of_raised (i := .encode) hraise, ?_, hw.out⟩
  rw [hend, hw.same]
  rfl

/-- DECODE's body in direction RD with a tree (rule R220). -/
theorem opDecode_eq {s : State} {tr : Tree} (hd : s.bcDir = .rd) (hv : s.treeValid = true) (ht : s.tree = some tr) :
    opDecode s = times s.size.toNat ((walkDown tr).bind snkAppend) s := by
  rw [opDecode, seq_done (needDir_ok hd), bind_done (needTree_ok hv ht), get_bind]

/-- DECODE's body where the bits to come begin with the paths of `SIZE` Leaves (rules R220 and R221). -/
theorem opDecode_run {s : State} {tr : Tree} {ls : List (List Bool × Byte)} {rest : List Bool} (h : StoresWf s)
    (hd : s.bcDir = .rd) (hv : s.treeValid = true) (ht : s.tree = some tr) (hl : ∀ p ∈ ls, p ∈ tr.leaves)
    (hb : s.inBits = ls.flatMap Prod.fst ++ rest) (hroom : s.Room ls.length) (hn : ls.length = s.size.toNat) :
    ∃ t : State, opDecode s = .done () t ∧ t.inBits = rest ∧
      t = { s with
            snk := Memory.ofBytes (s.snk.bytes ++ ls.map Prod.snd)
            bcCur := t.bcCur, bcBuf := t.bcBuf, srcPos := t.srcPos } := by
  obtain ⟨t, hrun, -, hbits, hframe⟩ := times_decode ls h hl hb hroom 0
  exact ⟨t, by rw [opDecode_eq hd hv ht, ← hn]; exact hrun, hbits, hframe⟩

/-- With no bit to come the channel is empty and SRC is read to its end. -/
theorem atEnd_of_inBits_nil {s : State} (h : StoresWf s) (hb : s.inBits = []) : s.bcCur = 0 ∧ s.srcPos = s.srcLen := by
  obtain ⟨hpending, hrest⟩ := List.append_eq_nil_iff.1 hb
  have hcur : s.bcCur = 0 := by
    by_contra hc
    rw [State.pendingIn, if_neg hc, drop_byteBits _ (cur_lt s)] at hpending
    cases hpending
  have hlen := congrArg List.length hrest
  rw [length_flatMap_byteBits, List.length_nil] at hlen
  exact ⟨hcur, h.atEnd (List.length_eq_zero_iff.1 (by omega))⟩

/-- Settles O51. -/
theorem decodeResult : Obligations.DecodeResult := by
  unfold Obligations.DecodeResult
  intro s tr ls rest h hd hv ht hl hb hroom
  refine ⟨fun hn => ?whole, fun hn hshort => ?short⟩
  case whole =>
    obtain ⟨t, hrun, hbits, hframe⟩ := opDecode_run h hd hv ht hl hb hroom hn
    refine ⟨t.advancePc, exec_of_done (i := .decode) hrun, hbits, ?_⟩
    conv_lhs => rw [hframe]
    rfl
  case short =>
    obtain ⟨n, hsize⟩ : ∃ n, s.size.toNat = ls.length + (n + 1) := ⟨s.size.toNat - ls.length - 1, by omega⟩
    obtain ⟨t, hrun, hstores, hbits, hframe⟩ := times_decode ls h hl hb hroom (n + 1)
    obtain ⟨u, hwalk, hsame, hustores, hubits⟩ := walkDown_short hstores (by rw [hbits]; exact hshort)
    have hraise : opDecode s = .raised .eof u := by
      rw [opDecode_eq hd hv ht, hsize, hrun]
      exact seq_raised (bind_raised hwalk)
    obtain ⟨hcur, hpos⟩ := atEnd_of_inBits_nil hustores hubits
    have husrc : u.src = s.src := by rw [hsame, hframe]
    refine ⟨u.takeFault .eof, exec_of_raised (i := .decode) hraise, ?_⟩
    have hpos' : u.srcPos = s.srcLen := by rw [hpos, State.srcLen, husrc, State.srcLen]
    rw [takeFault_bcBuf, ← hcur, ← hpos']
    conv_lhs => rw [hsame, hframe]
    rfl

/-- Settles O52. -/
theorem decodeOfNothing : Obligations.DecodeOfNothing := by
  unfold Obligations.DecodeOfNothing
  intro s tr hd hv ht h0
  have hrun : opDecode s = .done () s := by rw [opDecode_eq hd hv ht, h0]; rfl
  exact exec_of_done (i := .decode) hrun

end Sys2Proof.Machine

/-! ## A full sink (20_memory.md rule R57) -/

namespace Sys2Proof.Machine

theorem room_iff {s : State} {cap : Word64} (hc : s.snkCap = some cap) (n : Nat) :
    s.Room n ↔ s.snk.length + n ≤ cap.toNat :=
  ⟨fun h => h cap hc, fun h c hc' => by rw [hc] at hc'; cases hc'; exact h⟩

theorem sinkFull_of_length {s : State} {cap : Word64} (hc : s.snkCap = some cap) (hl : s.snk.length = cap.toNat) :
    s.sinkFull = true := by simp [State.sinkFull, hc, State.snkLen, hl]

/-- The body stops with `E_IO`, SNK at its capacity. -/
def Overflows (cap : Word64) (x : Op Unit) (s : State) : Prop :=
  ∃ t : State, x s = .raised .io t ∧ t.snk.length = cap.toNat

theorem Overflows.of_eq {cap : Word64} {x y : Op Unit} {s t : State} (h : Overflows cap y t) (hxy : x s = y t) :
    Overflows cap x s := by
  obtain ⟨u, hu, hlen⟩ := h
  exact ⟨u, hxy.trans hu, hlen⟩

/-- Bits that do not fit: they are written up to the eighth bit of the byte that SNK has no room for. -/
theorem writeBits_overflows {s : State} {cap : Word64} (bits : List Bool) (h : StoresWf s) (hc : s.snkCap = some cap)
    (hroom : ¬ s.Room ((s.bcCur.toNat + bits.length) / 8)) : Overflows cap (writeBits bits) s := by
  have hle := h.snkLen cap hc
  have hlt := cur_lt s
  rw [room_iff hc] at hroom
  obtain ⟨m, hm⟩ : ∃ m, m + s.bcCur.toNat = 8 * (cap.toNat - s.snk.length) + 7 :=
    ⟨8 * (cap.toNat - s.snk.length) + 7 - s.bcCur.toNat, by omega⟩
  have hmlt : m < bits.length := by omega
  have htake : (bits.take m).length = m := by rw [List.length_take]; omega
  obtain ⟨t, hrun, hw⟩ := writeBits_wrote (bits.take m) h.snk (by rw [room_iff hc, htake]; omega)
  have hcap : t.snkCap = some cap := by rw [hw.same]; exact hc
  have hlen : t.snk.length = cap.toNat := by rw [hw.len, htake]; omega
  have hcur : t.bcCur = 7 := BitVec.eq_of_toNat_eq (by
    rw [hw.cur, htake, show (7 : BitVec 3).toNat = 7 from rfl]; omega)
  have hfull := writeBit_full (s := t) bits[m] hcur (sinkFull_of_length hcap hlen)
  refine Overflows.of_eq (y := writeBits (bits.drop m)) (t := t)
    ⟨{ t with bcBuf := (t.bcBuf <<< 1) ||| zext8 bits[m], bcCur := 0 }, ?_, hlen⟩ ?_
  · rw [List.drop_eq_getElem_cons hmlt]
    exact seq_raised hfull
  · rw [← seq_done (y := writeBits (bits.drop m)) hrun, ← writeBits_append, List.take_append_drop]

/-- ENCODE's scan, all bytes with codes, whose bits do not fit. -/
theorem forSrc_encode_overflows (bs : List Byte) {s : State} {cap : Word64} (h : StoresWf s) (hr : s.rest = bs)
    (hv : ∀ b ∈ bs, (s.code.get b).valid = true) (hc : s.snkCap = some cap)
    (hroom : ¬ s.Room ((s.bcCur.toNat + (s.coded bs).length) / 8)) :
    Overflows cap (forSrc encodeByte bs.length) s := by
  induction bs generalizing s with
  | nil =>
    have hle := h.snkLen cap hc
    have hlt := cur_lt s
    rw [room_iff hc] at hroom
    simp only [State.coded, List.flatMap_nil, List.length_nil] at hroom
    omega
  | cons b bs ih =>
    have hnext := h.next hr
    rw [coded_cons, List.length_append] at hroom
    have henc : encodeByte b { s with srcPos := s.srcPos + 1 } = writeBits (s.code.get b).emitted
        { s with srcPos := s.srcPos + 1 } := encodeByte_ok (hv b (by simp))
    rw [List.length_cons]
    refine Overflows.of_eq (y := (encodeByte b).seq (forSrc encodeByte bs.length)) ?_ (forSrc_cons h hr _)
    by_cases hfit : ({ s with srcPos := s.srcPos + 1 } : State).Room
        ((s.bcCur.toNat + (s.code.get b).emitted.length) / 8)
    · obtain ⟨t, hrun, hw⟩ := writeBits_wrote (s := { s with srcPos := s.srcPos + 1 }) _ hnext.snk hfit
      have hcode : t.code = s.code := by rw [hw.same]
      have hcap : t.snkCap = some cap := by rw [hw.same]; exact hc
      have hrest : t.rest = bs := by rw [State.rest, hw.same]; exact rest_next h hr
      have hcoded : t.coded bs = s.coded bs := by rw [State.coded, hcode, State.coded]
      refine (ih (hw.stores hnext hfit) hrest (fun x hx => by rw [hcode]; exact hv x (by simp [hx])) hcap ?_).of_eq
        (seq_done (henc.trans hrun))
      rw [room_iff hcap, hcoded, hw.len, hw.cur]
      rw [room_iff hc] at hroom
      simp only at hroom ⊢
      omega
    · obtain ⟨t, hrun, hlen⟩ := writeBits_overflows (s := { s with srcPos := s.srcPos + 1 }) _ hnext hc hfit
      exact ⟨t, seq_raised (henc.trans hrun), hlen⟩

/-- DECODE's loop over more Leaves than SNK has room for. -/
theorem times_decode_overflows {tr : Tree} {ls : List (List Bool × Byte)} {s : State} {rest : List Bool}
    {cap : Word64} (h : StoresWf s) (hl : ∀ p ∈ ls, p ∈ tr.leaves) (hb : s.inBits = ls.flatMap Prod.fst ++ rest)
    (hc : s.snkCap = some cap) (hroom : ¬ s.Room ls.length) :
    Overflows cap (times ls.length ((walkDown tr).bind snkAppend)) s := by
  have hle := h.snkLen cap hc
  rw [room_iff hc] at hroom
  obtain ⟨k, hk⟩ : ∃ k, s.snk.length + k = cap.toNat := ⟨cap.toNat - s.snk.length, by omega⟩
  have hklt : k < ls.length := by omega
  have hflat : (ls.take k).flatMap Prod.fst ++ (ls[k].1 ++ (ls.drop (k + 1)).flatMap Prod.fst) =
      ls.flatMap Prod.fst := by
    rw [← List.flatMap_cons, ← List.drop_eq_getElem_cons hklt, ← List.flatMap_append, List.take_append_drop]
  have htake : (ls.take k).length = k := by rw [List.length_take]; omega
  obtain ⟨t, hrun, hstores, hbits, hframe⟩ := times_decode (ls.take k) h
    (fun p hp => hl p (List.mem_of_mem_take hp))
    (rest := ls[k].1 ++ ((ls.drop (k + 1)).flatMap Prod.fst ++ rest))
    (by rw [hb, ← hflat, List.append_assoc, List.append_assoc]) (by rw [room_iff hc, htake]; omega)
    (ls.length - k - 1 + 1)
  obtain ⟨u, hwalk, hsame, -, -⟩ := walkDown_path hstores (hl ls[k] (List.getElem_mem hklt)) hbits
  have hcap : u.snkCap = some cap := by rw [hsame, hframe]; exact hc
  have hlen : u.snk.length = cap.toNat := by
    rw [hsame, hframe, length_ofBytes, List.length_append, length_bytes, List.length_map, htake]; exact hk
  refine ⟨u, ?_, hlen⟩
  rw [htake, show k + (ls.length - k - 1 + 1) = ls.length by omega] at hrun
  rw [hrun]
  exact seq_raised ((bind_done hwalk).trans (if_pos (sinkFull_of_length hcap hlen)))

/-- Settles O48: each body overflows, and the command's end is fault entry; that the bytes held before stand in
front is O10. -/
theorem fullSinkFaults : Obligations.FullSinkFaults := by
  unfold Obligations.FullSinkFaults
  intro s tr cap h hc
  have stops : ∀ i, Overflows cap (bodyOf i) s → ∃ (t : State) (bs : List Byte), exec i s = .next t ∧
      t.fault = true ∧ t.cause = 2 ∧ t.pc = s.pc ∧ t.snk.length = cap.toNat ∧ t.snk.bytes = s.snk.bytes ++ bs := by
    intro i ⟨t, hrun, hlen⟩
    have hexec := exec_of_raised hrun
    have hpc : t.pc = s.pc := by simpa using congrArg State.pc ((bodyOf_writes i).raised hrun)
    obtain ⟨bs, hbs⟩ := (sinkIsAppendOnly i s _ h.snk hexec).1
    exact ⟨_, bs, hexec, rfl, rfl, hpc, hlen, by rw [hbs, bytes_ofBytes]⟩
  refine ⟨fun hd hroom => stops .wrSize ?size, fun hd hv ht hroom => stops .wrTree ?tree,
    fun hd hv hroom => stops .encode ?encode, fun ls rest hd hv ht hl hb hn hroom => stops .decode ?decode⟩
  case size =>
    have hlen : ((sizeHeader s.size).flatMap byteBits).length = 64 := length_flatMap_byteBits _
    have hlt := cur_lt s
    refine (writeBits_overflows ((sizeHeader s.size).flatMap byteBits) h hc ?_).of_eq (opWrSize_eq hd)
    rw [hlen, show (s.bcCur.toNat + 64) / 8 = 8 by omega]
    exact hroom
  case tree => exact (writeBits_overflows tr.ser h hc hroom).of_eq (opWrTree_eq hd hv ht)
  case encode => exact (forSrc_encode_overflows s.rest h rfl hv hc hroom).of_eq (opEncode_eq h hd)
  case decode =>
    refine (times_decode_overflows h hl hb hc hroom).of_eq ?_
    rw [bodyOf, opDecode_eq hd hv ht, hn]

end Sys2Proof.Machine

/-! ## The host's registers (10_state.md rules R40 and R41) -/

namespace Sys2Proof.Machine

theorem hReadReg_scalar (s : State) {n : Nat} (h : n < 0x100) : s.hReadReg n = s.scalarReg n := if_pos h

theorem hReadReg_cnt (s : State) (x : Byte) : s.hReadReg (0x100 + x.toNat) = s.cnt.get x := by
  have hx := x.isLt
  rw [State.hReadReg, if_neg (by omega), if_pos (by omega), Nat.add_sub_cancel_left, BitVec.ofNat_toNat,
    BitVec.setWidth_eq]

theorem hReadReg_node (s : State) {i : Nat} (h : i < 511) : s.hReadReg (0x400 + i) = s.nodeReg i := by
  rw [State.hReadReg, if_neg (by omega), if_neg (by omega), if_neg (by omega), if_pos (by omega),
    Nat.add_sub_cancel_left]

theorem hReadReg_code (s : State) (x : Byte) : s.hReadReg (0x600 + x.toNat) = (s.code.get x).word := by
  have hx := x.isLt
  rw [State.hReadReg, if_neg (by omega), if_neg (by omega), if_neg (by omega), if_neg (by omega), if_neg (by omega),
    if_pos (by omega), Nat.add_sub_cancel_left, BitVec.ofNat_toNat, BitVec.setWidth_eq]

/-- The scalar registers end at 0x00C (rule R40). -/
theorem scalarReg_unassigned (s : State) {n : Nat} (h : 0x00D ≤ n) : s.scalarReg n = 0 := by
  obtain ⟨k, rfl⟩ := Nat.exists_eq_add_of_le' h
  rfl

/-- Settles O59. -/
theorem unassignedRegistersReadZero : Obligations.UnassignedRegistersReadZero := by
  unfold Obligations.UnassignedRegistersReadZero
  refine fun s n => ⟨?_, fun i hi hlt => ?_⟩
  · rintro (⟨hlo, hhi⟩ | ⟨hlo, hhi⟩ | rfl | hlo)
    · rw [hReadReg_scalar s hhi, scalarReg_unassigned s hlo]
    · rw [State.hReadReg, if_neg (by omega), if_neg (by omega), if_pos hhi]
    · rfl
    · rw [State.hReadReg, if_neg (by omega), if_neg (by omega), if_neg (by omega), if_neg (by omega),
        if_neg (by omega), if_neg (by omega)]
  · rw [hReadReg_node s hlt, State.nodeReg, List.getElem?_eq_none hi]

/-- A packed word as a number: the fields before, shifted, and the last. -/
theorem toNat_append_add {m n : Nat} (x : BitVec m) (y : BitVec n) : (x ++ y).toNat = x.toNat * 2 ^ n + y.toNat := by
  rw [BitVec.toNat_append, ← Nat.shiftLeft_add_eq_or_of_lt y.isLt, Nat.shiftLeft_eq]

theorem toNat_bit (b : Bool) : (bit b).toNat = b.toNat := by cases b <;> rfl

theorem toNat_statusWord (s : State) :
    s.statusWord.toNat = s.fault.toNat + 2 * s.treeValid.toNat + 4 * s.depthOvf.toNat := by
  rw [State.statusWord, BitVec.toNat_setWidth_of_le (by decide)]
  simp only [toNat_append_add, toNat_bit]
  omega

theorem toNat_bcWord (s : State) :
    s.bcWord.toNat = s.bcDir.code.toNat * 2048 + s.bcCur.toNat * 256 + s.bcBuf.toNat := by
  rw [State.bcWord, BitVec.toNat_setWidth_of_le (by decide)]
  simp only [toNat_append_add]
  omega

theorem toNat_word_leaf (x : Byte) : (Node.leaf x).word.toNat = x.toNat * 2 ^ 18 := by
  rw [Node.word, BitVec.toNat_setWidth_of_le (by decide)]
  simp only [toNat_append_add]
  simp
  omega

theorem toNat_word_branch (l r : NodeIx) : (Node.branch l r).word.toNat = 2 ^ 26 + l.toNat * 2 ^ 9 + r.toNat := by
  rw [Node.word, BitVec.toNat_setWidth_of_le (by decide)]
  simp only [toNat_append_add]
  simp
  omega

theorem toNat_word_code (e : CodeEntry) :
    e.word.toNat = e.valid.toNat * 2 ^ 35 + e.len.toNat * 2 ^ 30 + e.bits.toNat := by
  rw [CodeEntry.word, BitVec.toNat_setWidth_of_le (by decide)]
  simp only [toNat_append_add, toNat_bit]
  omega

theorem toNat_count {n : Nat} (h : n < 2 ^ 64) : (BitVec.ofNat 64 n).toNat = n := by
  rw [BitVec.toNat_ofNat, Nat.mod_eq_of_lt h]

theorem toNat_snkLenWord {s : State} (h : s.snk.length < 2 ^ 64) : s.snkLenWord.toNat = s.snk.length := by
  rw [State.snkLenWord, State.snkLen, if_pos h, toNat_count h]

theorem nodeReg_of_some {s : State} {i : Nat} {x : Node} (h : s.node[i]? = some x) : s.nodeReg i = x.word := by
  rw [State.nodeReg, h]

/-- Settles O60. -/
theorem registersReadTheirFields : Obligations.RegistersReadTheirFields := by
  unfold Obligations.RegistersReadTheirFields
  intro s
  have wide : ∀ {w : Nat} (v : BitVec w), w ≤ 64 → (v.setWidth 64).toNat = v.toNat := fun _ h =>
    BitVec.toNat_setWidth_of_le h
  exact ⟨toNat_statusWord s, wide s.cause (by decide), wide s.res (by decide), wide s.distinct (by decide), rfl, rfl,
    fun h => toNat_count h, rfl, fun h => toNat_snkLenWord h, toNat_bcWord s,
    fun h => toNat_count (lt_of_le_of_lt h (by decide)), fun h => toNat_count (lt_of_le_of_lt h (by decide)),
    wide s.root (by decide), hReadReg_cnt s,
    fun i x hi hx => by rw [hReadReg_node s hi, nodeReg_of_some hx, toNat_word_leaf],
    fun i l r hi hx => by rw [hReadReg_node s hi, nodeReg_of_some hx, toNat_word_branch],
    fun x => by rw [hReadReg_code, toNat_word_code]⟩

end Sys2Proof.Machine

/-! ## The front of COMPRESS (47_macros.md rule R235) -/

namespace Sys2Proof.Machine

/-- HIST counts a byte that SRC holds, and no other (rule R143). -/
theorem get_countUp_ne_zero {bs : List Byte} (h : bs.length < 2 ^ 64) (x : Byte) :
    (countUp (Table.fill 0) bs).get x ≠ 0 ↔ x ∈ bs := by
  have hcount : (BitVec.ofNat 64 (bs.count x)).toNat = bs.count x :=
    toNat_count (lt_of_le_of_lt List.count_le_length h)
  have hget : ((countUp (Table.fill 0) bs).get x).toNat = bs.count x := by
    rw [get_countUp, Table.get_fill, BitVec.toNat_add, hcount]
    exact (congrArg (· % 2 ^ 64) (Nat.zero_add _)).trans (Nat.mod_eq_of_lt (lt_of_le_of_lt List.count_le_length h))
  rw [← List.count_pos_iff, ← hget, Nat.pos_iff_ne_zero, ne_eq, ← BitVec.toNat_inj]
  rfl

/-- The state that the first five commands of COMPRESS leave: the channel open for writing, `tr` the tree of
the distinct bytes of SRC (rules R148, R165 and R235). -/
structure Built (s : State) (tr : Tree) (b : State) : Prop where
  frame : b = { s with
    srcPos := 0, bcDir := .wr, bcCur := 0, bcBuf := 0, cnt := b.cnt, node := b.node, wl := [], root := b.root
    checksum := s.srcLen, treeValid := true }
  tree : b.tree = some tr
  nodup : tr.symbols.Nodup
  symbols : ∀ x, x ∈ tr.symbols ↔ x ∈ s.src.bytes
  zero : ∀ x, b.cnt.get x = 0

theorem compressFront_run {s : State} (h : StoresWf s) (hne : s.src ≠ []) :
    ∃ b tr, compressFront s = .done () b ∧ Built s tr b := by
  have heq := compressFront_eq h
  obtain ⟨syms, f, hmem, hsorted, hlist, hzero, hf⟩ := opFlist_run
    { s with srcPos := 0, bcDir := .wr, bcCur := 0, bcBuf := 0, cnt := countUp (Table.fill 0) s.src.bytes }
  have hnodup := nodup_of_lighter hsorted
  have hsyms : ∀ x, x ∈ syms ↔ x ∈ s.src.bytes := fun x =>
    (hmem x).trans (get_countUp_ne_zero (by rw [length_bytes]; exact h.srcLen) x)
  have hwaits : f.wl ≠ [] := by
    obtain ⟨c, cs, hsrc⟩ := List.exists_cons_of_ne_nil hne
    have hc : c.2 ∈ syms := (hsyms _).2 (by rw [hsrc]; exact List.mem_cons_self)
    intro hwl
    rw [hf, List.map_eq_nil_iff, List.zipIdx_eq_nil_iff] at hwl
    rw [hwl] at hc
    cases hc
  obtain ⟨b, tr, vs, _, hbuild, hb, -, -, hspans, honce, -, hperm, -⟩ := opBuildTree_run (s := f) (syms := syms)
    (by rw [hf]) (by rw [hf]; exact items_n _ syms) hwaits (card_le_of_nodup hnodup)
  rw [seq_done hlist, hbuild] at heq
  have hsum : b.checksum = s.srcLen := by
    rw [checksum_of_compressFront h heq, State.srcLen, State.srcLen, hb, hf]
  refine ⟨b, tr, heq, ?frame, (hspans.tree honce).1, hperm.nodup_iff.2 hnodup,
    fun x => hperm.mem_iff.trans (hsyms x), by rw [hb]; exact hzero⟩
  case frame =>
    have hcnt : b.cnt = f.cnt := by rw [hb]
    rw [hcnt, ← hsum]
    conv_lhs => rw [hb, hf]

/-! ## The compressed stream as bits (20_memory.md rule R65) -/

theorem stream_bits (tr : Tree) (bs : List Byte) :
    (stream tr bs).flatMap byteBits = (sizeHeader (BitVec.ofNat 64 bs.length)).flatMap byteBits ++
      (tr.ser ++ (tr.payload bs ++ padding (tr.ser.length + (tr.payload bs).length))) := by
  rw [stream, List.flatMap_append, flatMap_packBits _ _ (le_refl _), List.length_append, List.append_assoc]

/-- Bits of whole bytes, written into the empty channel, are those bytes appended to SNK (rules R56 and R60). -/
theorem Wrote.bytes {s t : State} {bs : List Byte} (h : Wrote s (bs.flatMap byteBits) t) (hc : s.bcCur = 0)
    (hb : s.bcBuf = 0) : t = { s with snk := Memory.ofBytes (s.snk.bytes ++ bs), bcCur := 0, bcBuf := 0 } := by
  have hcur : t.bcCur = 0 := (h.cur_eq (by rw [length_flatMap_byteBits]; omega)).trans hc
  have hbuf : t.bcBuf = 0 := by
    have hlt := h.buf (by rw [hb, hc]; decide)
    rw [hcur] at hlt
    exact BitVec.eq_of_toNat_eq (Nat.lt_one_iff.1 hlt)
  have hout := h.out
  rw [outBits_of_boundary hcur, outBits_of_boundary hc, ← List.flatMap_append] at hout
  have hsnk : t.snk = Memory.ofBytes (s.snk.bytes ++ bs) := by
    rw [h.full.eq_ofBytes, flatMap_byteBits_inj hout]
  rw [h.same, hcur, hbuf, hsnk]

/-! ## The back of COMPRESS: bodies that only write bits

A body that writes bits completes exactly where SNK has room for them; a sequence of such bodies writes their
bits one after the other. -/

/-- From `s` the body writes `bits` and leaves `SRC_POS` at `p`, or does not complete for want of room. -/
structure Op.Emits (x : Op Unit) (s : State) (bits : List Bool) (p : Word64) : Prop where
  room : ∀ {u : Unit} {t : State}, x s = .done u t → s.Room ((s.bcCur.toNat + bits.length) / 8)
  runs : s.Room ((s.bcCur.toNat + bits.length) / 8) →
    ∃ t, x s = .done () t ∧ StoresWf t ∧ Wrote { s with srcPos := p } bits t

theorem Op.Emits.of_eq {x y : Op Unit} {s : State} {bits : List Bool} {p : Word64} (h : y.Emits s bits p)
    (hxy : x s = y s) : x.Emits s bits p where
  room e := h.room (hxy.symm.trans e)
  runs hr := by rw [hxy]; exact h.runs hr

/-- What was written had room. -/
theorem Wrote.room_before {s t : State} {bits : List Bool} (h : Wrote s bits t) (ht : StoresWf t) :
    s.Room ((s.bcCur.toNat + bits.length) / 8) := by
  intro cap hc
  rw [← h.len]
  exact ht.snkLen cap (by rw [h.same]; exact hc)

theorem Op.Emits.seq {x y : Op Unit} {s : State} {b c : List Bool} {p q : Word64} (hx : x.Emits s b p)
    (hy : ∀ t, StoresWf t → Wrote { s with srcPos := p } b t → y.Emits t c q) : (x.seq y).Emits s (b ++ c) q where
  room e := by
    obtain ⟨_, v, e1, e2⟩ := seq_eq_done e
    obtain ⟨v', e1', hv, hw⟩ := hx.runs (hx.room e1)
    cases e1.symm.trans e1'
    obtain ⟨t, -, ht, hw2⟩ := (hy v hv hw).runs ((hy v hv hw).room e2)
    exact ((hw.atPos q).trans hw2).room_before ht
  runs hr := by
    rw [List.length_append] at hr
    obtain ⟨v, e1, hv, hw⟩ := hx.runs (hr.mono (by omega))
    obtain ⟨t, e2, ht, hw2⟩ := (hy v hv hw).runs (hw.room (by rw [Nat.add_assoc]; exact hr))
    exact ⟨t, (seq_done e1).trans e2, ht, (hw.atPos q).trans hw2⟩

theorem emits_writeBits {s : State} (h : StoresWf s) (bits : List Bool) : (writeBits bits).Emits s bits s.srcPos where
  room e := (writeBits_done bits h e).room_before ((keeps_writeBits storesWf_stable.writeBit bits).done h e)
  runs hr := by
    obtain ⟨t, e, hw⟩ := writeBits_wrote bits h.snk hr
    exact ⟨t, e, hw.stores h hr, hw⟩

theorem emits_opWrSize {s : State} (h : StoresWf s) (hd : s.bcDir = .wr) :
    opWrSize.Emits s ((sizeHeader s.size).flatMap byteBits) s.srcPos :=
  (emits_writeBits h _).of_eq (opWrSize_eq hd)

theorem emits_opEncode {s : State} (h : StoresWf s) (hd : s.bcDir = .wr)
    (hv : ∀ b ∈ s.rest, (s.code.get b).valid = true) : opEncode.Emits s (s.coded s.rest) s.srcLen where
  room e := (forSrc_encode_done s.rest h rfl ((opEncode_eq h hd).symm.trans e)).room_before
    (storesWf_stable.opEncode.done h e)
  runs hr := by
    obtain ⟨t, e, ht, -, hw⟩ := opEncode_run h hd hv hr
    exact ⟨t, e, ht, hw⟩

/-- FLUSH's body is the missing bits written as zeros (rule R121). -/
theorem opFlush_eq {s : State} (hd : s.bcDir = .wr) :
    opFlush s = writeBits (List.replicate ((8 - s.bcCur.toNat) % 8) false) s := by
  rw [opFlush, seq_done (needDir_ok hd)]
  by_cases hc : s.bcCur = 0
  · rw [flushLoop_boundary 7 hc, hc]
    rfl
  · have hlt := cur_lt s
    have hc' : s.bcCur.toNat ≠ 0 := fun h => hc (cur_eq_zero.2 h)
    rw [flushLoop_eq 7 hc (by omega), Nat.mod_eq_of_lt (by omega)]

/-- COMPRESS from WR_SIZE on. -/
def writeStream : Op Unit := opWrSize.seq <| opWrTree.seq <| opEncode.seq opFlush

/-- Ready to write the stream of SRC under the tree `tr`: the channel open for writing and empty, the codes
those of the tree, and nothing of SRC read. -/
structure Ready (tr : Tree) (c : State) : Prop where
  dir : c.bcDir = .wr
  cur : c.bcCur = 0
  buf : c.bcBuf = 0
  valid : c.treeValid = true
  tree : c.tree = some tr
  codes : ∀ x, c.code.get x = tr.codeEntry x
  pos : c.srcPos = 0
  size : c.size = c.srcLen

theorem Ready.rest {tr : Tree} {c : State} (hr : Ready tr c) : c.rest = c.src.bytes := by
  rw [State.rest, hr.pos]; rfl

theorem Ready.header {tr : Tree} {c : State} (hr : Ready tr c) :
    sizeHeader c.size = sizeHeader (BitVec.ofNat 64 c.src.bytes.length) := by
  rw [hr.size, State.srcLen, length_bytes]

/-- From a state ready to write, the bits of the stream, and nothing else (rules R65 and R235). -/
theorem emits_writeStream {tr : Tree} {c : State} (h : StoresWf c) (hr : Ready tr c)
    (hv : ∀ x ∈ c.src.bytes, (tr.codeEntry x).valid = true) :
    writeStream.Emits c ((stream tr c.src.bytes).flatMap byteBits) c.srcLen := by
  have hcoded : ∀ {t : State}, t.code = c.code → t.coded c.src.bytes = tr.payload c.src.bytes := fun ht => by
    rw [State.coded, ht, Tree.payload]; simp only [hr.codes]
  rw [stream_bits, ← hr.header]
  refine (emits_opWrSize h hr.dir).seq fun t ht hw => ?_
  refine ((emits_writeBits ht tr.ser).of_eq (x := opWrTree) (opWrTree_eq (by rw [hw.same]; exact hr.dir)
    (by rw [hw.same]; exact hr.valid) (by rw [← hr.tree, hw.same]; rfl))).seq fun u hu hwu => ?_
  have hw' := hw.trans hwu
  have hrest : u.rest = c.src.bytes := by rw [← hr.rest, State.rest, hw'.same]; rfl
  have hcode : u.code = c.code := by rw [hw'.same]
  have hlen : u.srcLen = c.srcLen := by rw [State.srcLen, hw'.same]; rfl
  have hencode := emits_opEncode hu (by rw [hw'.same]; exact hr.dir)
    (by rw [hrest, hcode]; simpa only [hr.codes] using hv)
  rw [hrest, hcoded hcode, hlen] at hencode
  refine hencode.seq fun v hv' hwv => ?_
  have hw'' := (hw'.atPos c.srcLen).trans hwv
  have hcur := hw''.cur
  have hbits : List.replicate ((8 - v.bcCur.toNat) % 8) false =
      padding (tr.ser.length + (tr.payload c.src.bytes).length) := by
    have hhead : ((sizeHeader c.size).flatMap byteBits).length = 64 := length_flatMap_byteBits _
    rw [hcur, padding, hr.cur]
    simp only [List.length_append, hhead]
    congr 2
    simp
    omega
  have hpos : v.srcPos = c.srcLen := by rw [hw''.same]
  rw [← hbits, ← hpos]
  exact (emits_writeBits hv' _).of_eq (opFlush_eq (by rw [hw''.same]; exact hr.dir))

/-- COMPRESS over its front's state `b`: it comes to a state ready to write, and writes the stream from there. -/
theorem opCompress_eq {s b : State} {tr : Tree} (h : StoresWf s) (e : compressFront s = .done () b)
    (hb : Built s tr b) :
    ∃ c, opCompress s = writeStream c ∧ StoresWf c ∧ Ready tr c ∧
      (c.depthOvf = true ↔ ∃ p ∈ tr.leaves, Config.codeMax < p.1.length) ∧
      c = { s with
            size := s.srcLen, checksum := s.srcLen, srcPos := 0, bcDir := .wr, bcCur := 0, bcBuf := 0
            treeValid := true, depthOvf := c.depthOvf, wl := [], cnt := b.cnt, node := b.node, root := b.root
            code := c.code } := by
  have hframe := hb.frame
  have hvalid : b.treeValid = true := by rw [hframe]
  obtain ⟨g, hgen, hg, hcodes, hdepth⟩ := opGenCodes_run hvalid hb.tree
  have hlen : g.srcLen = s.srcLen := by rw [State.srcLen, hg, hframe]; rfl
  have htree : g.tree = some tr := by rw [← hb.tree, hg]; rfl
  refine ⟨{ g with size := s.srcLen }, ?run, ?stores, ?ready, hdepth, ?frame⟩
  case run =>
    rw [opCompress, seq_done e, seq_done (show needChecksum b = .done () b from if_pos (checksum_of_compressFront h e)),
      compressBack, seq_done hgen, seq_done (opLdSize_run g), hlen]
    rfl
  case stores =>
    exact h.rewind.congr (by rw [hg, hframe]) (by rw [hg, hframe]) (by rw [hg, hframe]) (by rw [hg, hframe])
  case ready =>
    exact ⟨by rw [hg, hframe], by rw [hg, hframe], by rw [hg, hframe], by rw [hg, hframe], htree, hcodes,
      by rw [hg, hframe], hlen.symm⟩
  case frame =>
    conv_lhs => rw [hg, hframe]

/-- The codes of a tree at most 30 deep: every symbol has one (rules R180 and R184). -/
theorem codeEntry_valid {tr : Tree} (hn : tr.symbols.Nodup) (hd : ∀ p ∈ tr.leaves, p.1.length ≤ 30) {x : Byte}
    (hx : x ∈ tr.symbols) : (tr.codeEntry x).valid = true := by
  obtain ⟨p, hp, rfl⟩ := List.mem_map.1 hx
  rw [codeEntry_of_leaf hn hp (hd p hp)]

/-- A symbol with a code: a Leaf holds it at the path that is the code (rules R38 and R180). -/
theorem leaf_of_codeEntry_valid {tr : Tree} {x : Byte} (h : (tr.codeEntry x).valid = true) :
    ((tr.codeEntry x).emitted, x) ∈ tr.leaves := by
  rw [Tree.codeEntry] at h ⊢
  cases hlast : (tr.leaves.filter fun p => p.2 = x ∧ p.1.length ≤ Config.codeMax).getLast? with
  | none => rw [hlast] at h; cases h
  | some p =>
    obtain ⟨hmem, hp⟩ := List.mem_filter.1 (List.mem_of_getLast? hlast)
    obtain ⟨rfl, hlen⟩ := of_decide_eq_true hp
    show (CodeEntry.emitted ⟨true, _, _⟩, p.2) ∈ tr.leaves
    rwa [emitted_path hlen]

/-! ## COMPRESS -/

/-- COMPRESS where the tree is at most 30 deep and SNK has room (rule R235). -/
theorem exec_compress {s b : State} {tr : Tree} (h : StoresWf s) (e : compressFront s = .done () b)
    (hb : Built s tr b) (hd : ∀ p ∈ tr.leaves, p.1.length ≤ 30) (hroom : s.Room (stream tr s.src.bytes).length) :
    ∃ t : State, exec .compress s = .next t ∧
      t = { s with
            snk := Memory.ofBytes (s.snk.bytes ++ stream tr s.src.bytes)
            size := s.srcLen, checksum := s.srcLen, srcPos := s.srcLen, bcDir := .wr, bcCur := 0, bcBuf := 0,
            treeValid := true, depthOvf := false, wl := [], cnt := t.cnt, node := t.node, root := t.root,
            code := t.code, pc := s.pc + 1 } ∧
      t.tree = some tr ∧ (∀ x, t.cnt.get x = 0) ∧ ∀ x, t.code.get x = tr.codeEntry x := by
  obtain ⟨c, hrun, hstores, hready, hdepth, hc⟩ := opCompress_eq h e hb
  have hsrc : c.src = s.src := by rw [hc]
  have hsnk : c.snk = s.snk := by rw [hc]
  have hemits := emits_writeStream hstores hready fun x hx => codeEntry_valid hb.nodup hd
    ((hb.symbols x).2 (hsrc ▸ hx))
  obtain ⟨t, ht, -, hw⟩ := hemits.runs (by
    rw [hready.cur, length_flatMap_byteBits, hsrc]
    intro cap hcap
    rw [hsnk]
    have hfits := hroom cap (by rw [hc] at hcap; exact hcap)
    simpa using hfits)
  have hbytes := hw.bytes hready.cur hready.buf
  have hovf : c.depthOvf = false := by
    rw [← Bool.not_eq_true, hdepth]
    rintro ⟨p, hp, hlt⟩
    exact absurd (hd p hp) (not_le.2 hlt)
  rw [hovf] at hc
  have hlen : c.srcLen = s.srcLen := by rw [State.srcLen, hsrc, State.srcLen]
  have hcnt : t.cnt = b.cnt := by rw [hbytes, hc]
  have hnode : t.node = b.node := by rw [hbytes, hc]
  have hroot : t.root = b.root := by rw [hbytes, hc]
  have hcode : t.code = c.code := by rw [hbytes]
  refine ⟨t.advancePc, exec_of_done (i := .compress) (hrun.trans ht), ?frame, ?tree, ?zero, ?codes⟩
  case frame =>
    rw [advancePc_cnt, advancePc_node, advancePc_root, advancePc_code, hcnt, hnode, hroot, hcode]
    conv_lhs => rw [hbytes, hlen, hsrc, hc]
    rfl
  case tree => rw [← hready.tree, hbytes]; rfl
  case zero => rw [advancePc_cnt, hcnt]; exact hb.zero
  case codes => rw [advancePc_code, hcode]; exact hready.codes

/-- Settles O55. -/
theorem compressWritesTheStream : Obligations.CompressWritesTheStream := by
  unfold Obligations.CompressWritesTheStream
  intro s b tr h hne e htree hd hroom
  obtain ⟨b', tr', e', hb⟩ := compressFront_run h hne
  cases e.symm.trans e'
  cases htree.symm.trans hb.tree
  exact exec_compress h e hb hd hroom

/-- No path is longer than the tree is deep. -/
theorem length_path_le_depth (t : Tree) : ∀ p ∈ t.leaves, p.1.length ≤ t.depth := by
  induction t with
  | leaf x => simp [Tree.leaves, Tree.depth]
  | branch l r ihl ihr =>
    intro p hp
    rw [Tree.leaves, List.mem_append, List.mem_map, List.mem_map] at hp
    rcases hp with ⟨q, hq, rfl⟩ | ⟨q, hq, rfl⟩
    · exact Nat.succ_le_succ ((ihl q hq).trans (Nat.le_max_left _ _))
    · exact Nat.succ_le_succ ((ihr q hq).trans (Nat.le_max_right _ _))

/-- The tree has a Leaf per distinct byte of SRC. -/
theorem Built.length_leaves {s b : State} {tr : Tree} (hb : Built s tr b) :
    tr.leaves.length = s.src.bytes.dedup.length := by
  rw [Machine.length_leaves]
  exact ((List.perm_ext_iff_of_nodup hb.nodup (List.nodup_dedup _)).2 fun x => by
    rw [hb.symbols, List.mem_dedup]).length_eq

/-- Settles O54: 31 Leaves or fewer make a tree at most 30 deep. -/
theorem compressBuildsTheTree : Obligations.CompressBuildsTheTree := by
  unfold Obligations.CompressBuildsTheTree
  intro s h hne
  obtain ⟨b, tr, e, hb⟩ := compressFront_run h hne
  refine ⟨b, tr, e, by rw [hb.frame], hb.tree, hb.nodup, hb.symbols, by rw [hb.frame], fun hfew hcap => ?_⟩
  have hdeep : tr.depth < 31 := lt_of_lt_of_le (depth_lt_leaves tr) (hb.length_leaves.le.trans hfew)
  obtain ⟨t, ht, hframe, -⟩ := exec_compress h e hb
    (fun p hp => (length_path_le_depth tr p hp).trans (Nat.le_of_lt_succ hdeep))
    fun cap hc => by rw [hcap] at hc; cases hc
  exact ⟨t, ht, by rw [hframe], by rw [hframe], by rw [hframe]⟩

/-- HIST's body over an empty source (rule R143): nothing is counted. -/
theorem opHist_empty {s : State} (h : s.src = []) :
    opHist s = .done () { s with srcPos := 0, cnt := Table.fill 0 } := by
  have hrem : ({ s with cnt := Table.fill 0 } : State).remaining = 0 := by
    simp [State.remaining, State.srcLen, h]
  rw [opHist, modify_seq, get_bind, hrem]
  rfl

/-- COMPRESS's front over an empty source stops at BUILD_TREE, which has no item (rules R160 and R235). -/
theorem compressFront_empty {s : State} (h : s.src = []) :
    ∃ t, compressFront s = .raised .empty t ∧
      t = { s with
            srcPos := 0, bcDir := .wr, bcCur := 0, bcBuf := 0, cnt := t.cnt, node := [], wl := [], root := 0
            treeValid := false } := by
  obtain ⟨syms, t, hmem, -, hrun, -, ht⟩ := opFlist_run
    { s with srcPos := 0, bcDir := .wr, bcCur := 0, bcBuf := 0, cnt := Table.fill 0 }
  obtain rfl : syms = [] := List.eq_nil_iff_forall_not_mem.2 fun x hx => (hmem x).1 hx (Table.get_fill 0 x)
  refine ⟨t, ?_, ht⟩
  rw [compressFront, seq_done (opRewind_run s), opOpenWr, seq_done (openChannel_run .wr _),
    seq_done (opHist_empty (s := { s with srcPos := 0, bcDir := .wr, bcCur := 0, bcBuf := 0 }) h), seq_done hrun]
  exact opBuildTree_empty (by rw [ht]; rfl)

/-- Settles O56. -/
theorem compressRejectsEmptySource : Obligations.CompressRejectsEmptySource := by
  unfold Obligations.CompressRejectsEmptySource
  intro s h
  obtain ⟨t, e, ht⟩ := compressFront_empty h
  have hrun : opCompress s = .raised .empty t := seq_raised e
  refine ⟨t.takeFault .empty, exec_of_raised (i := .compress) hrun, rfl, rfl, ?_⟩
  rw [ht]
  exact ⟨rfl, rfl, rfl, rfl, rfl, rfl⟩

end Sys2Proof.Machine

/-! ## DECOMPRESS and the round trip (46_stream_codec.md rule R224, 47_macros.md rule R236) -/

namespace Sys2Proof.Machine

/-- DECOMPRESS of a stream: header, tree, paths (rules R64 to R66 and R236). -/
theorem opDecompress_run {s : State} {n : Word64} {tr : Tree} {ls : List (List Bool × Byte)} {body : List Byte}
    {rest : List Bool} (h : StoresWf s) (hsrc : s.src.bytes = sizeHeader n ++ body)
    (hbody : body.flatMap byteBits = tr.ser ++ (ls.flatMap Prod.fst ++ rest)) (hl : tr.leaves.length ≤ 256)
    (hls : ∀ p ∈ ls, p ∈ tr.leaves) (hn : ls.length = n.toNat) (hroom : s.Room ls.length) :
    ∃ t : State, opDecompress s = .done () t ∧ t.tree = some tr ∧ t.inBits = rest ∧
      t = { s with
            snk := Memory.ofBytes (s.snk.bytes ++ ls.map Prod.snd), size := n
            bcDir := .rd, bcCur := t.bcCur, bcBuf := t.bcBuf, srcPos := t.srcPos
            node := tr.preorder 0, wl := [], root := 0, treeValid := true } := by
  have hhead : (sizeHeader n).length = 8 := rfl
  have hlen : 8 ≤ s.src.length := by rw [← length_bytes, hsrc, List.length_append, hhead]; omega
  have hopen : StoresWf { s with srcPos := 0, bcDir := .rd, bcCur := 0, bcBuf := 0 } :=
    h.rewind.congr rfl rfl rfl rfl
  have htake : takeHeader { s with srcPos := 0, bcDir := .rd, bcCur := 0, bcBuf := 0 } =
      .done () { s with srcPos := 8, bcDir := .rd, bcCur := 0, bcBuf := 0, size := n } := by
    rw [takeHeader_run hopen (by simpa using hlen),
      show State.rest { s with srcPos := 0, bcDir := .rd, bcCur := 0, bcBuf := 0 } = s.src.bytes from rfl, hsrc,
      List.take_left' hhead, sizeOfHeader_sizeHeader]
    rfl
  have hbits : State.inBits { s with srcPos := 8, bcDir := .rd, bcCur := 0, bcBuf := 0, size := n } =
      tr.ser ++ (ls.flatMap Prod.fst ++ rest) := by
    rw [← hbody, State.inBits,
      show State.rest { s with srcPos := 8, bcDir := .rd, bcCur := 0, bcBuf := 0, size := n } = s.src.bytes.drop 8 from
        rfl, hsrc, List.drop_left' hhead]
    rfl
  obtain ⟨a, hread, hastores, habits, hatree, ha⟩ :=
    opRdTree_run (storesWf_stable.takeHeader.done hopen htake) rfl hbits hl
  obtain ⟨t, hdecode, htbits, ht⟩ := opDecode_run (s := a) hastores (by rw [ha]; rfl) (by rw [ha]; rfl) hatree hls
    habits (by intro cap hc; rw [ha] at hc ⊢; exact hroom cap hc) (by rw [ha]; exact hn)
  refine ⟨t, ?run, ?tree, htbits, ?frame⟩
  case run =>
    rw [opDecompress, seq_done (opRewind_run s), opOpenRd, seq_done (openChannel_run .rd _), opRdSize,
      seq_done ((seq_done (needDir_ok rfl)).trans htake), seq_done hread, hdecode]
  case tree => rw [← hatree, ht]; rfl
  case frame =>
    have hsnk : a.snk = s.snk := by rw [ha]; rfl
    rw [hsnk] at ht
    conv_lhs => rw [ht, ha]
    rfl

/-- Settles O57. -/
theorem decompressResult : Obligations.DecompressResult := by
  unfold Obligations.DecompressResult
  intro s n tr ls body rest h hsrc hbody hl hls hn hroom
  obtain ⟨t, hrun, htree, hbits, ht⟩ := opDecompress_run h hsrc hbody hl hls hn hroom
  refine ⟨t.advancePc, exec_of_done (i := .decompress) hrun, htree, hbits, ?_⟩
  conv_lhs => rw [ht]
  rfl

/-- ENCODE's scan completes only where every byte still to be read has a code (rule R215). -/
theorem valid_of_forSrc_encode_done (bs : List Byte) {s t : State} {u : Unit} (h : StoresWf s) (hr : s.rest = bs)
    (e : forSrc encodeByte bs.length s = .done u t) : ∀ b ∈ bs, (s.code.get b).valid = true := by
  induction bs generalizing s with
  | nil => nofun
  | cons b bs ih =>
    rw [List.length_cons, forSrc_cons h hr] at e
    obtain ⟨_, v, e1, e2⟩ := seq_eq_done e
    have hw := encodeByte_done (h.next hr) e1
    have hcode : v.code = s.code := by rw [hw.same]
    have hrest : v.rest = bs := by rw [State.rest, hw.same]; exact rest_next h hr
    refine List.forall_mem_cons.2 ⟨?_, ?_⟩
    · by_contra hv
      rw [encodeByte_bad (s := { s with srcPos := s.srcPos + 1 }) (Bool.not_eq_true _ ▸ hv)] at e1
      cases e1
    · rw [← hcode]
      exact ih ((keeps_encodeByte storesWf_stable.writeBit b).done (h.next hr) e1) hrest e2

/-- The writing of the stream completes only where every byte of SRC has a code. -/
theorem valid_of_writeStream_done {tr : Tree} {c t : State} {u : Unit} (h : StoresWf c) (hr : Ready tr c)
    (e : writeStream c = .done u t) : ∀ x ∈ c.src.bytes, (tr.codeEntry x).valid = true := by
  obtain ⟨_, v, e1, e2⟩ := seq_eq_done e
  obtain ⟨_, w, e3, e4⟩ := seq_eq_done e2
  obtain ⟨_, z, e5, -⟩ := seq_eq_done e4
  have hw : StoresWf w := storesWf_stable.opWrTree.done (storesWf_stable.opWrSize.done h e1) e3
  have hout : eraseOut w = eraseOut c := (opWrTree_writes.done e3).trans (opWrSize_writes.done e1)
  have hdir : w.bcDir = .wr := (congrArg State.bcDir hout).trans hr.dir
  have hcode : w.code = c.code := (congrArg State.code hout :)
  have hrest : w.rest = c.src.bytes := (congrArg State.rest hout).trans hr.rest
  rw [opEncode_eq hw hdir] at e5
  have hv := valid_of_forSrc_encode_done w.rest hw rfl e5
  rw [hrest, hcode] at hv
  simpa only [hr.codes] using hv

/-- What a COMPRESS that completes has appended: the stream of SRC under a tree that gives every byte a code. -/
theorem snk_of_exec_compress {s t : State} (h : StoresWf s) (hne : s.src ≠ []) (he : exec .compress s = .next t)
    (hf : t.fault = false) :
    ∃ tr : Tree, tr.leaves.length ≤ 256 ∧ (∀ x ∈ s.src.bytes, (tr.codeEntry x).valid = true) ∧
      t.snk = Memory.ofBytes (s.snk.bytes ++ stream tr s.src.bytes) := by
  obtain ⟨b, tr, e, hb⟩ := compressFront_run h hne
  obtain ⟨c, hrun, hstores, hready, -, hc⟩ := opCompress_eq h e hb
  have hsrc : c.src = s.src := by rw [hc]
  have hsnk : c.snk = s.snk := by rw [hc]
  rw [exec_eq] at he
  rcases complete_next he with ⟨_, v, hdone, rfl⟩ | ⟨k, v, -, rfl⟩
  · have hstream : writeStream c = .done () v := hrun.symm.trans hdone
    have hvalid := valid_of_writeStream_done hstores hready hstream
    have hemits := emits_writeStream hstores hready hvalid
    obtain ⟨v', hrun', -, hw⟩ := hemits.runs (hemits.room hstream)
    cases hstream.symm.trans hrun'
    refine ⟨tr, by rw [length_leaves]; exact card_le_of_nodup hb.nodup, hsrc ▸ hvalid, ?_⟩
    rw [advancePc_snk, hw.bytes hready.cur hready.buf, hsrc, hsnk]
  · cases hf

/-- Settles O58: the stream's payload is the paths of the Leaves that hold the bytes. -/
theorem roundTrip : Obligations.RoundTrip := by
  unfold Obligations.RoundTrip
  intro s t u h hne hsnk _ he hft hu hsrc husnk hfu hroom
  obtain ⟨tr, hl, hvalid, hstream⟩ := snk_of_exec_compress h hne he hft
  rw [hsnk] at hstream
  have hbytes : u.src.bytes = stream tr s.src.bytes := by rw [hsrc, hstream, bytes_ofBytes]; rfl
  obtain ⟨v, hv, -, -, hframe⟩ := decompressResult u (BitVec.ofNat 64 s.src.bytes.length) tr
    (s.src.bytes.map fun x => ((tr.codeEntry x).emitted, x)) _ (padding (tr.ser ++ tr.payload s.src.bytes).length) hu
    hbytes (by
      rw [flatMap_packBits _ _ (le_refl _), List.append_assoc, List.flatMap_map]; rfl) hl
    (by
      intro p hp
      obtain ⟨x, hx, rfl⟩ := List.mem_map.1 hp
      exact leaf_of_codeEntry_valid (hvalid x hx))
    (by rw [List.length_map, toNat_count (by rw [length_bytes]; exact h.srcLen)])
    (by rw [List.length_map, length_bytes]; exact hroom)
  refine ⟨v, hv, by rw [hframe]; exact hfu, ?_⟩
  rw [hframe, husnk, List.map_map]
  show Memory.ofBytes (s.src.bytes.map id) = s.src
  rw [List.map_id, ← h.src.eq_ofBytes]

end Sys2Proof.Machine
